-- ==== Sys2Proof/Word.lean ====
section
/-! DEFINITION. The bit-vector types of the block: what the spec treats as bits and nothing else. -/

namespace Sys2Proof

/-- One byte of storage or of a stream (20_memory.md R40, R42). -/
abbrev Byte := BitVec 8

/-- A 32-bit operand word, cursor, capacity or float pattern (10_state.md R14 to R18, 30_encoding.md R62). -/
abbrev Word := BitVec 32

/-- A slot number as a descriptor writes it, 4 bits (30_encoding.md R61). -/
abbrev SlotId := BitVec 4

/-- A command descriptor, `cmd_data`: W0 in bits [31:0], W1 in [63:32], W2 in [95:64], W3 in [127:96]
(30_encoding.md R60). -/
abbrev Desc := BitVec 128

/-- A response word (30_encoding.md R75). -/
abbrev Resp := BitVec 64

end Sys2Proof
end

