-- ==== Sys2Proof/Syntax.lean ====
section
/-! DEFINITION. The commands of the BBC command set 1.0, one constructor per row of spec/opcode_table.json. -/

namespace Sys2Proof

/-- A decoded command (30_encoding.md R62, R63). Operand words that R62 calls ignored are not kept. -/
inductive Instr where
  /-- NOP, 43_lifecycle_bulk.md R141. -/
  | nop
  /-- INIT: destination slot, mode (true = linear), LEN, RC0, WC0; 43_lifecycle_bulk.md R142. -/
  | init (sa : SlotId) (lin : Bool) (len rc0 wc0 : Word)
  /-- LOAD: destination slot, ABSENT, LEN (ignored when ABSENT); 43_lifecycle_bulk.md R143. -/
  | load (sa : SlotId) (absent : Bool) (len : Word)
  /-- DRAIN: slot, TRUNC; 43_lifecycle_bulk.md R144. -/
  | drain (sa : SlotId) (trunc : Bool)
  /-- FREE: slot; 43_lifecycle_bulk.md R145. -/
  | free (sa : SlotId)
  /-- QRY: slot, SEL; 43_lifecycle_bulk.md R146. -/
  | qry (sa : SlotId) (sel : Word)
  /-- RDU32: slot; 41_typed_codec.md R111. -/
  | rdu32 (sa : SlotId)
  /-- WRU32: slot, VAL; 41_typed_codec.md R112. -/
  | wru32 (sa : SlotId) (val : Word)
  /-- RDF32: slot; 41_typed_codec.md R113. -/
  | rdf32 (sa : SlotId)
  /-- WRF32: slot, VAL; 41_typed_codec.md R114. -/
  | wrf32 (sa : SlotId) (val : Word)
  /-- RDB: slot, N; 41_typed_codec.md R115. -/
  | rdb (sa : SlotId) (n : Word)
  /-- WRB: slot, N; 41_typed_codec.md R116. -/
  | wrb (sa : SlotId) (n : Word)
  /-- WRBUF: outer slot, inner slot; 42_nested_buffer.md R132. -/
  | wrbuf (outer inner : SlotId)
  /-- RDBUF: outer slot, destination slot; 42_nested_buffer.md R134. -/
  | rdbuf (outer dest : SlotId)
deriving DecidableEq, Repr

end Sys2Proof
end

