-- ==== Sys2Proof/WellFormed.lean ====
section
/-! DEFINITION. Which command terms are legal encodings: the one operand value that is illegal at decode. -/

namespace Sys2Proof

/-- Every operand value is legal but a QRY selector above 4 (30_encoding.md R66). -/
def Instr.wellFormed : Instr → Bool
  | .qry _ sel => decide (sel.toNat ≤ 4)
  | .nop => true
  | .init _ _ _ _ _ => true
  | .load _ _ _ => true
  | .drain _ _ => true
  | .free _ => true
  | .rdu32 _ => true
  | .wru32 _ _ => true
  | .rdf32 _ => true
  | .wrf32 _ _ => true
  | .rdb _ _ => true
  | .wrb _ _ => true
  | .wrbuf _ _ => true
  | .rdbuf _ _ => true

end Sys2Proof
end

