-- ==== Sys2Proof/Decode.lean ====
section
/-! DEFINITION. The decoder, total on any 128 bits, by the match and mask table of 30_encoding.md R64, and the
encoder written from the field layout of R61 and R62. -/

namespace Sys2Proof

/-- Why a descriptor is illegal (30_encoding.md R66). Both are taken as the IllegalCommand fault. -/
inductive Reject where
  /-- W0 matches no row of R64. -/
  | noMatch
  /-- W0 matches QRY and W1 is above 4. -/
  | badSelector
deriving DecidableEq, Repr

/-- Operand word W0 of a descriptor, the control word (30_encoding.md R60). -/
def Desc.w0 (d : Desc) : Word := d.extractLsb' 0 32

/-- Operand word W1 of a descriptor. -/
def Desc.w1 (d : Desc) : Word := d.extractLsb' 32 32

/-- Operand word W2 of a descriptor. -/
def Desc.w2 (d : Desc) : Word := d.extractLsb' 64 32

/-- Operand word W3 of a descriptor. -/
def Desc.w3 (d : Desc) : Word := d.extractLsb' 96 32

/-- OPC = W0[7:0] (30_encoding.md R69). -/
def Desc.opc (d : Desc) : Byte := d.extractLsb' 0 8

/-- SA = W0[11:8]. -/
def Desc.sa (d : Desc) : SlotId := d.extractLsb' 8 4

/-- SB = W0[15:12]. -/
def Desc.sb (d : Desc) : SlotId := d.extractLsb' 12 4

/-- F0 = W0[16]. -/
def Desc.f0 (d : Desc) : Bool := d.getLsbD 16

/-- One row of 30_encoding.md R64, with the command its operands make. -/
structure Row where
  pattern : Word
  mask : Word
  build : Desc → Instr

/-- The table of 30_encoding.md R64, in its order, with the operands R62 gives each command. -/
def opcodeRows : List Row :=
  [ ⟨0x00000000#32, 0xFFFFFFFF#32, fun _ => .nop⟩,
    ⟨0x00000001#32, 0xFFFEF0FF#32, fun d => .init d.sa d.f0 d.w1 d.w2 d.w3⟩,
    ⟨0x00000002#32, 0xFFFEF0FF#32, fun d => .load d.sa d.f0 d.w1⟩,
    ⟨0x00000003#32, 0xFFFEF0FF#32, fun d => .drain d.sa d.f0⟩,
    ⟨0x00000004#32, 0xFFFFF0FF#32, fun d => .free d.sa⟩,
    ⟨0x00000005#32, 0xFFFFF0FF#32, fun d => .qry d.sa d.w1⟩,
    ⟨0x00000010#32, 0xFFFFF0FF#32, fun d => .rdu32 d.sa⟩,
    ⟨0x00000011#32, 0xFFFFF0FF#32, fun d => .wru32 d.sa d.w1⟩,
    ⟨0x00000012#32, 0xFFFFF0FF#32, fun d => .rdf32 d.sa⟩,
    ⟨0x00000013#32, 0xFFFFF0FF#32, fun d => .wrf32 d.sa d.w1⟩,
    ⟨0x00000014#32, 0xFFFFF0FF#32, fun d => .rdb d.sa d.w1⟩,
    ⟨0x00000015#32, 0xFFFFF0FF#32, fun d => .wrb d.sa d.w1⟩,
    ⟨0x00000020#32, 0xFFFF00FF#32, fun d => .wrbuf d.sa d.sb⟩,
    ⟨0x00000021#32, 0xFFFF00FF#32, fun d => .rdbuf d.sa d.sb⟩ ]

/-- A row selects a descriptor when `(W0 & mask) = match` (30_encoding.md R64). -/
def Row.selects (r : Row) (d : Desc) : Bool := (d.w0 &&& r.mask) == r.pattern

/-- The decoding procedure of 30_encoding.md R72. -/
def decode (d : Desc) : Except Reject Instr :=
  match opcodeRows.find? (fun r => r.selects d) with
  | none => .error .noMatch
  | some r => if (r.build d).wellFormed then .ok (r.build d) else .error .badSelector

/-- The opcode of a command (30_encoding.md R63); FOPC of a fault it takes. -/
def Instr.opcode : Instr → Byte
  | .nop => 0x00#8
  | .init _ _ _ _ _ => 0x01#8
  | .load _ _ _ => 0x02#8
  | .drain _ _ => 0x03#8
  | .free _ => 0x04#8
  | .qry _ _ => 0x05#8
  | .rdu32 _ => 0x10#8
  | .wru32 _ _ => 0x11#8
  | .rdf32 _ => 0x12#8
  | .wrf32 _ _ => 0x13#8
  | .rdb _ _ => 0x14#8
  | .wrb _ _ => 0x15#8
  | .wrbuf _ _ => 0x20#8
  | .rdbuf _ _ => 0x21#8

/-- A descriptor from its fields (30_encoding.md R60, R61), RSV zero. -/
def packDesc (opc : Byte) (sa sb : SlotId) (f0 : Bool) (w1 w2 w3 : Word) : Desc :=
  w3 ++ w2 ++ w1 ++ ((0 : BitVec 15) ++ BitVec.ofBool f0 ++ sb ++ sa ++ opc)

/-- The descriptor of a command: the words of 30_encoding.md R73, words it does not mention being 0. -/
def encode (i : Instr) : Desc :=
  match i with
  | .nop => packDesc i.opcode 0 0 false 0 0 0
  | .init sa lin len rc0 wc0 => packDesc i.opcode sa 0 lin len rc0 wc0
  | .load sa absent len => packDesc i.opcode sa 0 absent len 0 0
  | .drain sa trunc => packDesc i.opcode sa 0 trunc 0 0 0
  | .free sa => packDesc i.opcode sa 0 false 0 0 0
  | .qry sa sel => packDesc i.opcode sa 0 false sel 0 0
  | .rdu32 sa => packDesc i.opcode sa 0 false 0 0 0
  | .wru32 sa val => packDesc i.opcode sa 0 false val 0 0
  | .rdf32 sa => packDesc i.opcode sa 0 false 0 0 0
  | .wrf32 sa val => packDesc i.opcode sa 0 false val 0 0
  | .rdb sa n => packDesc i.opcode sa 0 false n 0 0
  | .wrb sa n => packDesc i.opcode sa 0 false n 0 0
  | .wrbuf outer inner => packDesc i.opcode outer inner false 0 0 0
  | .rdbuf outer dest => packDesc i.opcode outer dest false 0 0 0

/-- The descriptor whose low `nbits` bits are `w` and whose other bits are 0. -/
def tableDesc (nbits w : Nat) : Desc := BitVec.ofNat 128 (w % 2 ^ nbits)

/-- What the decoder reads from a word numbered as spec/opcode_table.json numbers it. -/
def decodeTableWord (nbits w : Nat) : Option Instr :=
  match decode (tableDesc nbits w) with
  | .ok i => some i
  | .error _ => none

end Sys2Proof
end

