-- ==== Sys2Proof/Config.lean ====
section
/-! DEFINITION. The constants of the spec, the suggested parameter values, and the free values. -/

namespace Sys2Proof

/-- `SNAP_OFFSET`: where a ring-mode write that lands on capacity leaves the write cursor (00_scope.md R5). -/
def Config.snapOffset : Nat := 4

/-- `LEN_CEILING`: a decoded nested-buffer field fails when it is strictly greater (00_scope.md R5). -/
def Config.lenCeiling : Nat := 1048576

/-- `UNIT`: the size in bytes of a typed primitive (00_scope.md R5). -/
def Config.unit : Nat := 4

/-- The value 00_scope.md R4 suggests for `NSLOTS`; only the state after reset uses it.
DESIGN CHOICE (log entry 1). -/
def Config.suggestedSlots : Nat := 4

/-- The value 00_scope.md R4 suggests for `CAP_MAX`; only the state after reset uses it.
DESIGN CHOICE (log entry 1). -/
def Config.suggestedCapMax : Nat := 2097152

/-- Free value: how many payload bytes a LOAD had taken when `io_err` ended it, before the limit LEN is
applied (93_implementation_defined.md V4). DESIGN CHOICE (log entry 4). -/
opaque Config.loadTaken : Nat → Nat

/-- Free value: how many bytes a DRAIN had emitted when `io_err` ended it, before the limit of what there is
to emit is applied (93_implementation_defined.md V5). DESIGN CHOICE (log entry 4). -/
opaque Config.drainEmitted : Nat → Nat

end Sys2Proof
end

