-- ==== Sys2Proof/Machine/State.lean ====
section
/-! DEFINITION. The state of the block as plain data, the state after reset, and the reasons a step can stop. -/

namespace Sys2Proof.Machine

/-- Storage of one slot: (offset, byte) cells, offsets rising, none holding what an unlisted offset reads as
(10_state.md R13, 20_memory.md R50; log entry 3). -/
abbrev Memory := List Host.Cell

/-- The content of a slot with VALID = 1: one Buffer (10_state.md R11, R13 to R18). -/
structure Buffer where
  /-- CAP, the capacity, R14. -/
  cap : Word
  /-- RC, the read cursor, R15. -/
  rc : Word
  /-- WC, the write cursor, R16. -/
  wc : Word
  /-- LIN, the mode flag: true linear, false ring, R17. -/
  lin : Bool
  /-- LWF, the pattern of the last float written, R18. -/
  lwf : Word
  /-- STORE, the bytes at offsets 0 .. CAP-1, R13. -/
  store : Memory
deriving DecidableEq, Repr

/-- One command as the host issues it: the triple of 10_state.md R27, and whether the host takes the
command's output (93_implementation_defined.md V8). -/
structure Request where
  /-- The 128-bit descriptor. -/
  desc : Desc
  /-- The bytes the host puts on DIN for this command, early or late (70_reset_and_hazards.md R201, R203). -/
  supplied : List Byte
  /-- `io_err` was 1 at some time during the command (93_implementation_defined.md V6). -/
  ioErr : Bool
  /-- The host accepts every byte the command emits and its response (70_reset_and_hazards.md R203). -/
  accepts : Bool
deriving DecidableEq, Repr

/-- What the host does next (70_reset_and_hazards.md R203). -/
inductive HostEvent where
  /-- It issues a command. -/
  | issue (r : Request)
  /-- It asserts `rst`. -/
  | rst
deriving DecidableEq, Repr

/-- Everything the spec gives the block (10_state.md), with the host's actions still to come. -/
structure State where
  /-- The slot file: `none` is VALID = 0, and the slot then holds no value (10_state.md R11, R12). Its length
  is NSLOTS (00_scope.md R4). -/
  slots : List (Option Buffer)
  /-- FAULT, 10_state.md R21, R22. -/
  fault : Bool
  /-- FCODE, 10_state.md R21. -/
  fcode : Byte
  /-- FOPC, 10_state.md R21. -/
  fopc : Byte
  /-- FSLOT, 10_state.md R21. -/
  fslot : SlotId
  /-- The status output `busy`: true from the acceptance of a descriptor to the acceptance of its response
  (20_memory.md R41; 60_exceptions.md R181). -/
  busy : Bool
  /-- DIN: the bytes supplied and not yet taken, first to be taken first (20_memory.md R42). -/
  din : List Byte
  /-- DOUT: the bytes emitted since the last reset, in order (20_memory.md R42; log entry 6). -/
  dout : List Byte
  /-- The response channel: the responses issued since the last reset, in order (30_encoding.md R75; log entry 6). -/
  rsp : List Resp
  /-- `io_err` over the present command (20_memory.md R43; log entry 5). -/
  ioErr : Bool
  /-- The host's actions still to come, first action first (10_state.md R27; log entry 5). -/
  host : List HostEvent
  /-- The model's pc: how many descriptors have been accepted (10_state.md R27). Not a hardware register. -/
  pc : Nat
  /-- CAP_MAX, a parameter that nothing writes (00_scope.md R4; log entry 1). -/
  capMax : Nat
  /-- The model's own field: how many free values have been drawn (log entry 4). -/
  freeCount : Nat
deriving DecidableEq, Repr

/-- The state right after reset (10_state.md R28), with the suggested parameters (log entry 1). -/
def State.reset : State where
  slots := List.replicate Config.suggestedSlots none
  fault := false
  fcode := 0
  fopc := 0
  fslot := 0
  busy := false
  din := []
  dout := []
  rsp := []
  ioErr := false
  host := []
  pc := 0
  capMax := Config.suggestedCapMax
  freeCount := 0

/-- The faults of the block (60_exceptions.md R160). A command that takes one answers a next state. -/
inductive FaultKind where
  | overflowLinear | overflowRing | oversizedLength | ioFailure | rangeFault
  | badSlot | illegalCommand | badLength | slotAlias | slotInUse
deriving DecidableEq, Repr

/-- Why the machine has no successor state. Neither is a fault of the block. -/
inductive Fault where
  /-- DIN holds fewer bytes than the command takes; raised by INIT, LOAD (F0 = 0) and WRB. The block waits for
  ever (93_implementation_defined.md V7, "stuck"). Safe: nothing happens after it. -/
  | payloadStarved
  /-- The host never accepts the command's output or response; raised on accepting a descriptor. The block waits
  for ever (93_implementation_defined.md V8, "stuck"). Safe: nothing happens after it. -/
  | outputNotAccepted
deriving DecidableEq, Repr

/-- Why a command is not given a meaning. -/
inductive Refusal where
  /-- The command has no meaning in the model yet; raised by exec's arm. Safe: no next state. -/
  | notModelled (mnemonic : String)
deriving DecidableEq, Repr

/-- What a command that completes reports: VALUE and the two wrap bits (30_encoding.md R75). -/
structure Reply where
  value : Word
  wrapR : Bool
  wrapW : Bool
deriving DecidableEq, Repr

/-- How a piece of a command ends: it goes on with a value and a state, it raises a fault naming a slot with
the writes made so far kept (60_exceptions.md R170, R183), or it waits for ever. -/
inductive Run (α : Type) where
  | done (a : α) (s : State)
  | raised (k : FaultKind) (slot : SlotId) (s : State)
  | stuck (f : Fault)
deriving DecidableEq, Repr

end Sys2Proof.Machine
end

