-- ==== Sys2Proof/Machine/Flags.lean ====
section
/-! DEFINITION. Every flag and code the block computes: fault codes, the response word with its wrap bits, and
the FLAGS value of QRY. -/

namespace Sys2Proof.Machine

/-- The code of a fault (60_exceptions.md R160). -/
def FaultKind.code : FaultKind → Byte
  | .overflowLinear => 0x01#8
  | .overflowRing => 0x02#8
  | .oversizedLength => 0x03#8
  | .ioFailure => 0x04#8
  | .rangeFault => 0x05#8
  | .badSlot => 0x06#8
  | .illegalCommand => 0x07#8
  | .badLength => 0x08#8
  | .slotAlias => 0x09#8
  | .slotInUse => 0x0A#8

/-- The response-only code Halted (60_exceptions.md R160, R171). -/
def haltedCode : Byte := 0xFF#8

/-- A response word: VALUE [31:0], CODE [39:32], WRAPR [40], WRAPW [41], zeros above (30_encoding.md R75). -/
def responseWord (value : Word) (code : Byte) (wrapR wrapW : Bool) : Resp :=
  (0 : BitVec 22) ++ BitVec.ofBool wrapW ++ BitVec.ofBool wrapR ++ code ++ value

/-- The response of a command that completes (30_encoding.md R75). -/
def Reply.word (r : Reply) : Resp := responseWord r.value 0 r.wrapR r.wrapW

/-- The response of a fault or of a refusal: its CODE and nothing else (30_encoding.md R75). -/
def codeWord (code : Byte) : Resp := responseWord 0 code false false

/-- A reply with a value and no wrap bit. -/
def Reply.plain (value : Word) : Reply := ⟨value, false, false⟩

/-- FLAGS of QRY: bit 0 VALID, bit 1 LIN, LIN read as 0 on a free slot (43_lifecycle_bulk.md R146). -/
def slotFlags : Option Buffer → Word
  | none => 0
  | some b => if b.lin then 3 else 1

end Sys2Proof.Machine
end

