-- ==== Sys2Proof/Machine/Ops.lean ====
section
/-! DEFINITION. The named operations over storage, slots and streams; fault entry; the halted answer; reset. -/

namespace Sys2Proof.Machine

/-! ### Storage of one slot -/

/-- What an unlisted offset reads as (log entry 3). -/
def Memory.background : Byte := 0x00#8

/-- The byte at an offset. -/
def Memory.read : Memory → Nat → Byte
  | [], _ => Memory.background
  | (k, v) :: m, a => if k = a then v else Memory.read m a

/-- Forget what an offset holds. -/
def Memory.erase (m : Memory) (a : Nat) : Memory := m.filter fun c => decide (c.1 ≠ a)

/-- List a cell in its place. -/
def Memory.insert : Memory → Nat → Byte → Memory
  | [], a, v => [(a, v)]
  | (k, w) :: m, a, v => if a < k then (a, v) :: (k, w) :: m else (k, w) :: Memory.insert m a v

/-- Set the byte at an offset, keeping the canonical form: a background byte is not listed. -/
def Memory.write (m : Memory) (a : Nat) (v : Byte) : Memory :=
  if v = Memory.background then m.erase a else (m.erase a).insert a v

/-- The canonical form from offset `lo` on: offsets rising, no cell holding the background byte. -/
def Memory.wfFrom : Nat → Memory → Bool
  | _, [] => true
  | lo, (k, v) :: m => decide (lo ≤ k) && decide (v ≠ Memory.background) && Memory.wfFrom (k + 1) m

/-- The canonical form of a storage array. -/
def Memory.wf (m : Memory) : Bool := Memory.wfFrom 0 m

/-- MemRead: the `n` bytes from offset `off` (20_memory.md R47). -/
def memRead (m : Memory) (off : Nat) : Nat → List Byte
  | 0 => []
  | n + 1 => m.read off :: memRead m (off + 1) n

/-- MemWrite: set the bytes from offset `off` on (20_memory.md R47). -/
def memWrite (m : Memory) (off : Nat) : List Byte → Memory
  | [] => m
  | b :: bs => memWrite (m.write off b) (off + 1) bs

/-- A storage array filled with given bytes from offset 0 (43_lifecycle_bulk.md R142: an exact copy). -/
def Memory.ofBytes (bs : List Byte) : Memory := memWrite [] 0 bs

/-! ### The slot file -/

/-- NSLOTS (00_scope.md R4). -/
def State.nslots (s : State) : Nat := s.slots.length

/-- The Buffer a slot holds; `none` when the slot is free or its number out of range (10_state.md R11, R12). -/
def State.buf (s : State) (sl : SlotId) : Option Buffer := (s.slots[sl.toNat]?).join

/-- The slot's number is below NSLOTS (30_encoding.md R61). -/
def State.inRange (s : State) (sl : SlotId) : Bool := decide (sl.toNat < s.nslots)

/-- Write a slot's registers and storage. -/
def State.setBuf (s : State) (sl : SlotId) (b : Buffer) : State :=
  { s with slots := s.slots.set sl.toNat (some b) }

/-- VALID <- 0: the slot holds no value afterwards (43_lifecycle_bulk.md R145). -/
def State.release (s : State) (sl : SlotId) : State :=
  { s with slots := s.slots.set sl.toNat none }

/-- One byte of storage, by slot and offset: `none` where no byte exists (20_memory.md R50). -/
def State.peek (s : State) (sl : SlotId) (off : Nat) : Option Byte :=
  match s.buf sl with
  | none => none
  | some b => if off < b.cap.toNat then some (b.store.read off) else none

/-! ### Pieces of a command in sequence -/

/-- Go on with the next piece, unless a fault was raised or the command waits (00_scope.md R6, `raise`). -/
def Run.bind {α β : Type} (x : Run α) (f : α → State → Run β) : Run β :=
  match x with
  | .done a s => f a s
  | .raised k sl s => .raised k sl s
  | .stuck r => .stuck r

/-! ### Streams -/

/-- DinTake: the next `n` bytes of DIN; with fewer there the command waits for ever (20_memory.md R42,
93_implementation_defined.md V7). -/
def dinTake (n : Nat) (s : State) : Run (List Byte) :=
  if s.din.length < n then .stuck .payloadStarved
  else .done (s.din.take n) { s with din := s.din.drop n }

/-- DoutEmit (20_memory.md R42). -/
def State.emit (s : State) (bs : List Byte) : State := { s with dout := s.dout ++ bs }

/-- Bytes leave DIN without reaching storage: the payload a LOAD had taken when `io_err` ended it. -/
def State.dropDin (s : State) (n : Nat) : State := { s with din := s.din.drop n }

/-- The next free value is to be a fresh one (log entry 4). -/
def State.countFree (s : State) : State := { s with freeCount := s.freeCount + 1 }

/-- Issue a response (30_encoding.md R75). -/
def State.respond (s : State) (w : Resp) : State := { s with rsp := s.rsp ++ [w] }

/-- The host accepts the command's response, and `busy` ends (20_memory.md R41, R56). -/
def State.takeResponse (s : State) : State := { s with busy := false }

/-! ### Faults and reset -/

/-- Fault entry, `raise` (60_exceptions.md R170): FAULT, FCODE, FOPC, FSLOT, and the response with the code. -/
def State.enterFault (s : State) (k : FaultKind) (opc : Byte) (slot : SlotId) : State :=
  { s with
    fault := true
    fcode := k.code
    fopc := opc
    fslot := slot
    rsp := s.rsp ++ [codeWord k.code] }

/-- The answer of a halted block: a response, and nothing else changes (60_exceptions.md R171). -/
def State.answerHalted (s : State) : State := s.respond (codeWord haltedCode)

/-- How a command ends: its response, fault entry, or no successor. -/
def Run.close (opc : Byte) (x : Run Reply) : Host.Outcome State Fault Refusal :=
  match x with
  | .done r s => .next (s.respond r.word)
  | .raised k sl s => .next (s.enterFault k opc sl)
  | .stuck f => .fault f

/-- Reset, the only return from a fault (60_exceptions.md R176, 70_reset_and_hazards.md R190): 10_state.md R28,
the parameters and the host's list being no part of what `rst` clears (log entries 1 and 5). -/
def State.applyReset (s : State) : State :=
  { State.reset with
    slots := List.replicate s.nslots none
    host := s.host
    pc := s.pc
    capMax := s.capMax
    freeCount := s.freeCount }

end Sys2Proof.Machine
end

