-- ==== Sys2Proof/Machine/Operands.lean ====
section
/-! DEFINITION. How commands reach their operands: byte order, the two cursor primitives, the common checks, and
the runs through a cursor that every storage command is built from. -/

namespace Sys2Proof.Machine

/-! ### Byte order (20_memory.md R44) -/

/-- LE32: lowest offset first. -/
def le32 (v : Word) : List Byte :=
  [v.extractLsb' 0 8, v.extractLsb' 8 8, v.extractLsb' 16 8, v.extractLsb' 24 8]

/-- The number a little-endian byte sequence stands for. -/
def leNat : List Byte → Nat
  | [] => 0
  | b :: bs => b.toNat + 256 * leNat bs

/-- UnLE32, used on 4 bytes. -/
def unLE32 (bs : List Byte) : Word := BitVec.ofNat 32 (leNat bs)

/-! ### The cursor primitives (40_cursor_arithmetic.md) -/

/-- What AcquireRead returns, with the buffer it leaves (R92). -/
structure ReadRegion where
  bytes : List Byte
  split : Bool
  buf : Buffer
deriving DecidableEq, Repr

/-- AcquireRead (40_cursor_arithmetic.md R92 to R96); `none` is RangeFault, nothing changed. -/
def acquireRead (b : Buffer) (n : Nat) : Option ReadRegion :=
  let rc := b.rc.toNat
  let cap := b.cap.toNat
  if rc + n ≤ cap then
    some ⟨memRead b.store rc n, false, { b with rc := BitVec.ofNat 32 (rc + n) }⟩
  else if cap < rc ∨ cap < n then none
  else
    let overflow := rc + n - cap
    some ⟨memRead b.store rc (cap - rc) ++ memRead b.store 0 overflow, true,
      { b with rc := BitVec.ofNat 32 overflow }⟩

/-- What AcquireWrite gives: a region and the buffer, or an overflow fault and the buffer it leaves (R97, R99). -/
inductive WriteRegion where
  | region (off : Nat) (snapped : Bool) (b : Buffer)
  | overflow (k : FaultKind) (b : Buffer)
deriving DecidableEq, Repr

/-- AcquireWrite (40_cursor_arithmetic.md R97 to R102): the advance, then the snap, then the overshoot test.
The region starts at the old write cursor (R100). -/
def acquireWrite (b : Buffer) (n : Nat) : WriteRegion :=
  let t := b.wc.toNat + n
  let snapped := decide (t = b.cap.toNat) && !b.lin
  let b' := { b with
    wc := if snapped then BitVec.ofNat 32 Config.snapOffset else BitVec.ofNat 32 t }
  let cur := if snapped then Config.snapOffset else t
  if b.cap.toNat < cur then
    .overflow (if b.lin then .overflowLinear else .overflowRing) b'
  else .region b.wc.toNat snapped b'

/-! ### The common checks (60_exceptions.md R173) -/

/-- One of the common checks, naming what it looks at. -/
inductive Check where
  /-- Step 2's operand part: a QRY selector is at most 4. -/
  | selector (sa : SlotId) (sel : Word)
  /-- Steps 3 and 4: the slot number is below NSLOTS. -/
  | inRange (sl : SlotId)
  /-- Steps 5 and 7: the slot holds a Buffer. -/
  | isValid (sl : SlotId)
  /-- Step 6: two different slots. -/
  | distinct (sa sb : SlotId)
  /-- Step 8: the destination is free. -/
  | isFree (sl : SlotId)
  /-- Step 9: the length is at most CAP_MAX. -/
  | lenFits (sa : SlotId) (len : Word)
deriving DecidableEq, Repr

/-- The fault a failed check raises and the slot it names; `none` when the check passes. -/
def Check.failure (s : State) : Check → Option (FaultKind × SlotId)
  | .selector sa sel => if sel.toNat ≤ 4 then none else some (.illegalCommand, sa)
  | .inRange sl => if s.inRange sl then none else some (.badSlot, sl)
  | .isValid sl => if (s.buf sl).isSome then none else some (.badSlot, sl)
  | .distinct sa sb => if sa = sb then some (.slotAlias, sa) else none
  | .isFree sl => if (s.buf sl).isSome then some (.slotInUse, sl) else none
  | .lenFits sa len => if len.toNat ≤ s.capMax then none else some (.badLength, sa)

/-- The checks of each command, in the order of 60_exceptions.md R173. -/
def commonChecks : Instr → List Check
  | .nop => []
  | .init sa _ len _ _ => [.inRange sa, .isFree sa, .lenFits sa len]
  | .load sa absent len =>
    if absent then [.inRange sa, .isFree sa] else [.inRange sa, .isFree sa, .lenFits sa len]
  | .drain sa _ => [.inRange sa, .isValid sa]
  | .free sa => [.inRange sa, .isValid sa]
  | .qry sa sel =>
    if sel = 3 then [.selector sa sel, .inRange sa]
    else [.selector sa sel, .inRange sa, .isValid sa]
  | .rdu32 sa => [.inRange sa, .isValid sa]
  | .wru32 sa _ => [.inRange sa, .isValid sa]
  | .rdf32 sa => [.inRange sa, .isValid sa]
  | .wrf32 sa _ => [.inRange sa, .isValid sa]
  | .rdb sa _ => [.inRange sa, .isValid sa]
  | .wrb sa _ => [.inRange sa, .isValid sa]
  | .wrbuf o i => [.inRange o, .inRange i, .isValid o, .distinct o i, .isValid i]
  | .rdbuf o d => [.inRange o, .inRange d, .isValid o, .distinct o d, .isFree d]

/-- The first check of a command that fails (60_exceptions.md R173, steps 2 to 9). -/
def commonFault (i : Instr) (s : State) : Option (FaultKind × SlotId) :=
  (commonChecks i).findSome? (Check.failure s)

/-- A command: the halted answer, the common checks, then its own rule (60_exceptions.md R173). -/
def command (i : Instr) (body : State → Run Reply) (s : State) : Host.Outcome State Fault Refusal :=
  if s.fault then .next s.answerHalted
  else
    match commonFault i s with
    | some (k, sl) => .next (s.enterFault k i.opcode sl)
    | none => (body s).close i.opcode

/-- A descriptor that decodes to no command (60_exceptions.md R167, R173 steps 1 and 2). -/
def illegalCommand (d : Desc) (s : State) : State :=
  if s.fault then s.answerHalted else s.enterFault .illegalCommand d.opc d.sa

/-! ### Runs through a cursor -/

/-- The Buffer of a slot that the checks found valid; on a free slot BadSlot, as for every command that would
read one (10_state.md R12). -/
def withBuf {α : Type} (sl : SlotId) (f : Buffer → State → Run α) (s : State) : Run α :=
  match s.buf sl with
  | none => .raised .badSlot sl s
  | some b => f b s

/-- AcquireRead on a slot: the bytes and whether the read split (40_cursor_arithmetic.md R92). -/
def readRun (sl : SlotId) (n : Nat) (s : State) : Run (List Byte × Bool) :=
  withBuf sl (fun b s =>
    match acquireRead b n with
    | none => .raised .rangeFault sl s
    | some r => .done (r.bytes, r.split) (s.setBuf sl r.buf)) s

/-- AcquireWrite on a slot: the offset of the region and whether the cursor snapped (40_cursor_arithmetic.md R97). -/
def openRun (sl : SlotId) (n : Nat) (s : State) : Run (Nat × Bool) :=
  withBuf sl (fun b s =>
    match acquireWrite b n with
    | .overflow k b' => .raised k sl (s.setBuf sl b')
    | .region off snapped b' => .done (off, snapped) (s.setBuf sl b')) s

/-- MemWrite on a slot (20_memory.md R47). -/
def fillRun (sl : SlotId) (off : Nat) (bs : List Byte) (s : State) : State :=
  match s.buf sl with
  | none => s
  | some b => s.setBuf sl { b with store := memWrite b.store off bs }

/-- Acquire a write region for given bytes and fill it; whether the cursor snapped (42_nested_buffer.md R132,
`WriteRun`). -/
def writeRun (sl : SlotId) (bs : List Byte) (s : State) : Run Bool :=
  (openRun sl bs.length s).bind fun r s => .done r.2 (fillRun sl r.1 bs s)

/-- Several write runs in order; whether one of them snapped (42_nested_buffer.md R132). -/
def writeRuns (sl : SlotId) : List (List Byte) → Bool → State → Run Bool
  | [], w, s => .done w s
  | bs :: rest, w, s => (writeRun sl bs s).bind fun sn s => writeRuns sl rest (w || sn) s

/-- Construct a Buffer in a slot: the storage is an exact copy of the bytes, LWF is 0 (10_state.md R12, R13, R18). -/
def State.construct (s : State) (sl : SlotId) (cap rc wc : Word) (lin : Bool) (bs : List Byte) : State :=
  s.setBuf sl ⟨cap, rc, wc, lin, 0, Memory.ofBytes bs⟩

end Sys2Proof.Machine
end

