-- ==== Sys2Proof/Machine/Codec.lean ====
section
/-! DEFINITION. The typed codec commands of 41_typed_codec.md: RDU32, WRU32, RDF32, WRF32, RDB, WRB. -/

namespace Sys2Proof.Machine

/-- A 4-byte little-endian read through the read cursor (41_typed_codec.md R110, R111). -/
def readWord (sa : SlotId) (s : State) : Run Reply :=
  (readRun sa Config.unit s).bind fun r s => .done ⟨unLE32 r.1, r.2, false⟩ s

/-- A 4-byte little-endian write through the write cursor (41_typed_codec.md R110, R112). -/
def writeWord (sa : SlotId) (val : Word) (s : State) : Run Reply :=
  (writeRun sa (le32 val) s).bind fun snapped s => .done ⟨0, false, snapped⟩ s

/-- LWF <- VAL (10_state.md R18). -/
def setLwf (sa : SlotId) (val : Word) (s : State) : State :=
  match s.buf sa with
  | none => s
  | some b => s.setBuf sa { b with lwf := val }

/-- RDU32, 41_typed_codec.md R111. -/
def execRdu32 (sa : SlotId) (s : State) : Host.Outcome State Fault Refusal :=
  command (.rdu32 sa) (readWord sa) s

/-- WRU32, 41_typed_codec.md R112. -/
def execWru32 (sa : SlotId) (val : Word) (s : State) : Host.Outcome State Fault Refusal :=
  command (.wru32 sa val) (writeWord sa val) s

/-- RDF32, 41_typed_codec.md R113: the bit pattern, no conversion. -/
def execRdf32 (sa : SlotId) (s : State) : Host.Outcome State Fault Refusal :=
  command (.rdf32 sa) (readWord sa) s

/-- WRF32, 41_typed_codec.md R114: LWF is written only when the region was acquired. -/
def execWrf32 (sa : SlotId) (val : Word) (s : State) : Host.Outcome State Fault Refusal :=
  command (.wrf32 sa val)
    (fun s => (writeWord sa val s).bind fun r s => .done r (setLwf sa val s)) s

/-- RDB, 41_typed_codec.md R115. -/
def execRdb (sa : SlotId) (n : Word) (s : State) : Host.Outcome State Fault Refusal :=
  command (.rdb sa n)
    (fun s => (readRun sa n.toNat s).bind fun r s => .done ⟨n, r.2, false⟩ (s.emit r.1)) s

/-- WRB, 41_typed_codec.md R116: the payload is taken only after the region was acquired. -/
def execWrb (sa : SlotId) (n : Word) (s : State) : Host.Outcome State Fault Refusal :=
  command (.wrb sa n)
    (fun s => (openRun sa n.toNat s).bind fun r s =>
      (dinTake n.toNat s).bind fun p s =>
        .done ⟨0, false, r.2⟩ (fillRun sa r.1 p s)) s

end Sys2Proof.Machine
end

