-- ==== Sys2Proof/Machine/Lifecycle.lean ====
section
/-! DEFINITION. The lifecycle and bulk commands of 43_lifecycle_bulk.md: NOP, INIT, LOAD, DRAIN, FREE, QRY. -/

namespace Sys2Proof.Machine

/-- NOP, 43_lifecycle_bulk.md R141. -/
def execNop (s : State) : Host.Outcome State Fault Refusal :=
  command .nop (fun s => .done (Reply.plain 0) s) s

/-- INIT, 43_lifecycle_bulk.md R142. -/
def execInit (sa : SlotId) (lin : Bool) (len rc0 wc0 : Word) (s : State) :
    Host.Outcome State Fault Refusal :=
  command (.init sa lin len rc0 wc0)
    (fun s => (dinTake len.toNat s).bind fun p s =>
      .done (Reply.plain 0) (s.construct sa len rc0 wc0 lin p)) s

/-- LOAD, 43_lifecycle_bulk.md R143. When `io_err` ends it, the number of payload bytes taken is a free value of
at most LEN (93_implementation_defined.md V4; DESIGN CHOICE, log entry 4). -/
def execLoad (sa : SlotId) (absent : Bool) (len : Word) (s : State) :
    Host.Outcome State Fault Refusal :=
  command (.load sa absent len)
    (fun s =>
      if absent then .done (Reply.plain 0) (s.construct sa 0 0 0 true [])
      else if s.ioErr then
        .raised .ioFailure sa (s.dropDin (min (Config.loadTaken s.freeCount) len.toNat)).countFree
      else (dinTake len.toNat s).bind fun p s =>
        .done (Reply.plain 0) (s.construct sa len 0 0 true p)) s

/-- DRAIN, 43_lifecycle_bulk.md R144. When `io_err` ends it, an unspecified prefix has been emitted: its length is
a free value (93_implementation_defined.md V5; DESIGN CHOICE, log entry 4). -/
def execDrain (sa : SlotId) (trunc : Bool) (s : State) : Host.Outcome State Fault Refusal :=
  command (.drain sa trunc)
    (withBuf sa fun b s =>
      if trunc ∧ b.cap.toNat < b.wc.toNat then .raised .rangeFault sa s
      else
        let bs := memRead b.store 0 (if trunc then b.wc.toNat else b.cap.toNat)
        if s.ioErr then
          .raised .ioFailure sa (s.emit (bs.take (Config.drainEmitted s.freeCount))).countFree
        else .done (Reply.plain (if trunc then b.wc else b.cap)) (s.emit bs)) s

/-- FREE, 43_lifecycle_bulk.md R145. -/
def execFree (sa : SlotId) (s : State) : Host.Outcome State Fault Refusal :=
  command (.free sa) (fun s => .done (Reply.plain 0) (s.release sa)) s

/-- The register a QRY selector other than FLAGS names (43_lifecycle_bulk.md R146). -/
def Buffer.register (b : Buffer) (sel : Word) : Word :=
  if sel = 0 then b.cap
  else if sel = 1 then b.rc
  else if sel = 2 then b.wc
  else b.lwf

/-- QRY, 43_lifecycle_bulk.md R146. -/
def execQry (sa : SlotId) (sel : Word) (s : State) : Host.Outcome State Fault Refusal :=
  command (.qry sa sel)
    (fun s =>
      if sel = 3 then .done (Reply.plain (slotFlags (s.buf sa))) s
      else withBuf sa (fun b s => .done (Reply.plain (b.register sel)) s) s) s

end Sys2Proof.Machine
end

