-- ==== Sys2Proof/Machine/Nested.lean ====
section
/-! DEFINITION. The nested-buffer commands of 42_nested_buffer.md: WRBUF and RDBUF. -/

namespace Sys2Proof.Machine

/-- The four parts of the serialized form, in order: capacity, read cursor, write cursor, the whole storage
(42_nested_buffer.md R130, R132). -/
def nestedParts (b : Buffer) : List (List Byte) :=
  [le32 b.cap, le32 b.rc, le32 b.wc, memRead b.store 0 b.cap.toNat]

/-- WRBUF, 42_nested_buffer.md R132. -/
def execWrbuf (outer inner : SlotId) (s : State) : Host.Outcome State Fault Refusal :=
  command (.wrbuf outer inner)
    (withBuf inner fun b s =>
      (writeRuns outer (nestedParts b) false s).bind fun w s => .done ⟨0, false, w⟩ s) s

/-- `ReadField`: one 4-byte read on the outer slot, then the ceiling; the value and whether a read has split so far
(42_nested_buffer.md R134, R135). -/
def readField (outer : SlotId) (split : Bool) (s : State) : Run (Word × Bool) :=
  (readRun outer Config.unit s).bind fun r s =>
    if Config.lenCeiling < (unLE32 r.1).toNat then .raised .oversizedLength outer s
    else .done (unLE32 r.1, split || r.2) s

/-- RDBUF, 42_nested_buffer.md R134: the destination is always a ring buffer (R136). -/
def execRdbuf (outer dest : SlotId) (s : State) : Host.Outcome State Fault Refusal :=
  command (.rdbuf outer dest)
    (fun s =>
      (readField outer false s).bind fun cap s =>
      (readField outer cap.2 s).bind fun rc s =>
      (readField outer rc.2 s).bind fun wc s =>
      (readRun outer cap.1.toNat s).bind fun r s =>
        .done ⟨0, wc.2 || r.2, false⟩ (s.construct dest cap.1 rc.1 wc.1 false r.1)) s

end Sys2Proof.Machine
end

