-- ==== Sys2Proof/Machine/Dispatch.lean ====
section
/-! DEFINITION. The meaning of every command, one arm per constructor. -/

namespace Sys2Proof.Machine

def exec (i : Instr) (s : State) : Host.Outcome State Fault Refusal :=
  match i with
  | .nop => Sys2Proof.Machine.execNop s
  | .init sa lin len rc0 wc0 => Sys2Proof.Machine.execInit sa lin len rc0 wc0 s
  | .load sa absent len => Sys2Proof.Machine.execLoad sa absent len s
  | .drain sa trunc => Sys2Proof.Machine.execDrain sa trunc s
  | .free sa => Sys2Proof.Machine.execFree sa s
  | .qry sa sel => Sys2Proof.Machine.execQry sa sel s
  | .rdu32 sa => Sys2Proof.Machine.execRdu32 sa s
  | .wru32 sa val => Sys2Proof.Machine.execWru32 sa val s
  | .rdf32 sa => Sys2Proof.Machine.execRdf32 sa s
  | .wrf32 sa val => Sys2Proof.Machine.execWrf32 sa val s
  | .rdb sa n => Sys2Proof.Machine.execRdb sa n s
  | .wrb sa n => Sys2Proof.Machine.execWrb sa n s
  | .wrbuf outer inner => Sys2Proof.Machine.execWrbuf outer inner s
  | .rdbuf outer dest => Sys2Proof.Machine.execRdbuf outer dest s

end Sys2Proof.Machine
end

