-- ==== Sys2Proof/Machine/Fetch.lean ====
section
/-! DEFINITION. How the block comes to its next command: the command port, DIN, `io_err` and `rst`. -/

namespace Sys2Proof.Machine

/-- What the host's next action gives the block. -/
inductive Fetched where
  /-- Nothing: the block waits with all state held (60_exceptions.md R182). -/
  | idle
  /-- `rst` was asserted; the state it leaves (70_reset_and_hazards.md R190). -/
  | reset (s : State)
  /-- A descriptor was accepted; the state in which it is decoded. -/
  | command (d : Desc) (s : State)
  /-- The host never takes the command's output (93_implementation_defined.md V8); the state the block waits in. -/
  | stuck (f : Fault) (s : State)
deriving DecidableEq, Repr

/-- Accept a descriptor: `busy` begins (20_memory.md R41); the pc advances by 1, faulting or not (10_state.md R27);
the bytes supplied for the command are on DIN behind any surplus (70_reset_and_hazards.md R201); `io_err` is what the
wire shows over the command. -/
def State.accept (s : State) (r : Request) (rest : List HostEvent) : State :=
  { s with
    host := rest
    busy := true
    pc := s.pc + 1
    din := s.din ++ r.supplied
    ioErr := r.ioErr }

/-- The host's next action. -/
def fetch (s : State) : Fetched :=
  match s.host with
  | [] => .idle
  | .rst :: rest => .reset ({ s with host := rest }).applyReset
  | .issue r :: rest =>
    if r.accepts then .command r.desc (s.accept r rest)
    else .stuck .outputNotAccepted (s.accept r rest)

/-- How a command ends on the host's side. One that was answered ends when the host accepts its response (20_memory.md
R41, R56). One that waits for ever is ended by `rst` and by nothing else: it is abandoned without a response
(70_reset_and_hazards.md R190, R201). `t` is the state in which the command began. -/
def endCommand (t : State) (o : Host.Outcome State Fault Refusal) : Host.Outcome State Fault Refusal :=
  match o with
  | .fault f =>
    match t.host with
    | .rst :: rest => .next ({ t with host := rest }).applyReset
    | _ => .fault f
  | .next u => .next u.takeResponse
  | .refused r => .refused r

/-- The request by which a host issues a descriptor with no payload and takes its output. -/
def plainRequest (d : Desc) : Request := ⟨d, [], false, true⟩

end Sys2Proof.Machine
end

