-- ==== Sys2Proof/Machine/Step.lean ====
section
/-! DEFINITION. One step: the host's next action, a whole command at a time (10_state.md R10). -/

namespace Sys2Proof.Machine

/-- One step of the block. -/
def step (s : State) : Host.Outcome State Fault Refusal :=
  match fetch s with
  | .idle => .next s
  | .reset t => .next t
  | .stuck f t => endCommand t (.fault f)
  | .command d t =>
    match decode d with
    | .ok i => endCommand t (exec i t)
    | .error _ => endCommand t (.next (illegalCommand d t))

/-- The same state with the descriptor that the table's word makes placed as the host's next command, so that
the next step runs it. It stands for the host presenting a descriptor (10_state.md R27; log entry 7). -/
def State.withFetchWord (s : State) (nbits w : Nat) : State :=
  { s with host := .issue (plainRequest (tableDesc nbits w)) :: s.host }

end Sys2Proof.Machine
end

