-- ==== Sys2Proof/Safety.lean ====
section
/-! DEFINITION. The terms claims are stated in: the invariant of the block, the spec's own formulas for reads and
the serialized form, and what a claim calls unchanged. -/

namespace Sys2Proof

/-! ### What a descriptor and a command name -/

/-- SA of a command that uses it (30_encoding.md R63). -/
def Instr.sa? : Instr → Option SlotId
  | .nop => none
  | .init sa _ _ _ _ | .load sa _ _ | .drain sa _ | .free sa | .qry sa _ | .rdu32 sa | .wru32 sa _
  | .rdf32 sa | .wrf32 sa _ | .rdb sa _ | .wrb sa _ | .wrbuf sa _ | .rdbuf sa _ => some sa

/-- SB of a command that uses it (30_encoding.md R63). -/
def Instr.sb? : Instr → Option SlotId
  | .wrbuf _ sb | .rdbuf _ sb => some sb
  | .nop | .init _ _ _ _ _ | .load _ _ _ | .drain _ _ | .free _ | .qry _ _ | .rdu32 _ | .wru32 _ _
  | .rdf32 _ | .wrf32 _ _ | .rdb _ _ | .wrb _ _ => none

/-- The command needs a valid SA (60_exceptions.md R166). -/
def Instr.needsValidSa : Instr → Bool
  | .drain _ _ | .free _ | .rdu32 _ | .wru32 _ _ | .rdf32 _ | .wrf32 _ _ | .rdb _ _ | .wrb _ _
  | .wrbuf _ _ | .rdbuf _ _ => true
  | .qry _ sel => decide (sel ≠ 3)
  | .nop | .init _ _ _ _ _ | .load _ _ _ => false

/-- The slots whose content a command may change: SA, and SB for RDBUF (10_state.md R29). -/
def Instr.writes : Instr → List SlotId
  | .nop | .drain _ _ | .qry _ _ => []
  | .init sa _ _ _ _ | .load sa _ _ | .free sa | .rdu32 sa | .wru32 sa _ | .rdf32 sa | .wrf32 sa _
  | .rdb sa _ | .wrb sa _ | .wrbuf sa _ => [sa]
  | .rdbuf sa sb => [sa, sb]

/-- The number of payload bytes a command that completes takes (30_encoding.md R70). -/
def Instr.payload : Instr → Nat
  | .init _ _ len _ _ => len.toNat
  | .load _ absent len => if absent then 0 else len.toNat
  | .wrb _ n => n.toNat
  | .nop | .drain _ _ | .free _ | .qry _ _ | .rdu32 _ | .wru32 _ _ | .rdf32 _ | .wrf32 _ _ | .rdb _ _
  | .wrbuf _ _ | .rdbuf _ _ => 0

/-- The command reads through the read cursor of the slot (40_cursor_arithmetic.md R90). -/
def Instr.readsThrough (sl : SlotId) : Instr → Bool
  | .rdu32 sa | .rdf32 sa | .rdb sa _ | .rdbuf sa _ => decide (sa = sl)
  | .nop | .init _ _ _ _ _ | .load _ _ _ | .drain _ _ | .free _ | .qry _ _ | .wru32 _ _ | .wrf32 _ _
  | .wrb _ _ | .wrbuf _ _ => false

/-- The command writes through the write cursor of the slot (40_cursor_arithmetic.md R90). -/
def Instr.writesThrough (sl : SlotId) : Instr → Bool
  | .wru32 sa _ | .wrf32 sa _ | .wrb sa _ | .wrbuf sa _ => decide (sa = sl)
  | .nop | .init _ _ _ _ _ | .load _ _ _ | .drain _ _ | .free _ | .qry _ _ | .rdu32 _ | .rdf32 _
  | .rdb _ _ | .rdbuf _ _ => false

/-- The command reads `io_err` (30_encoding.md R71). -/
def Instr.readsIoErr : Instr → Bool
  | .load _ absent _ => !absent
  | .drain _ _ => true
  | .nop | .init _ _ _ _ _ | .free _ | .qry _ _ | .rdu32 _ | .wru32 _ _ | .rdf32 _ | .wrf32 _ _
  | .rdb _ _ | .wrb _ _ | .wrbuf _ _ | .rdbuf _ _ => false

/-- W1 is an operand of the command (30_encoding.md R62). -/
def Desc.usesW1 (d : Desc) : Bool :=
  d.opc == 0x01#8 || (d.opc == 0x02#8 && !d.f0) || d.opc == 0x05#8 || d.opc == 0x11#8 ||
  d.opc == 0x13#8 || d.opc == 0x14#8 || d.opc == 0x15#8

/-- The opcodes of 30_encoding.md R63. -/
def legalOpcodes : List Byte :=
  [0x00#8, 0x01#8, 0x02#8, 0x03#8, 0x04#8, 0x05#8, 0x10#8, 0x11#8, 0x12#8, 0x13#8, 0x14#8, 0x15#8,
    0x20#8, 0x21#8]

/-- What 30_encoding.md R66 calls an illegal descriptor, field by field. -/
abbrev Desc.Illegal (d : Desc) : Prop :=
  d.opc ∉ legalOpcodes ∨
  d.extractLsb' 17 15 ≠ 0 ∨
  (d.sb ≠ 0 ∧ d.opc ≠ 0x20#8 ∧ d.opc ≠ 0x21#8) ∨
  (d.f0 = true ∧ d.opc ≠ 0x01#8 ∧ d.opc ≠ 0x02#8 ∧ d.opc ≠ 0x03#8) ∨
  (d.opc = 0x00#8 ∧ d.sa ≠ 0) ∨
  (d.opc = 0x05#8 ∧ 4 < d.w1.toNat)

end Sys2Proof

namespace Sys2Proof.Machine

/-! ### The invariant -/

/-- The parameters are in their ranges (00_scope.md R4). -/
abbrev State.ParamsOk (s : State) : Prop :=
  2 ≤ s.nslots ∧ s.nslots ≤ 16 ∧ 1048576 ≤ s.capMax ∧ s.capMax ≤ 4294967295

/-- A Buffer's storage is in canonical form and lists no offset at or above its capacity (10_state.md R13), and
its capacity is one a slot can have (10_state.md R14). -/
abbrev Buffer.Ok (capMax : Nat) (b : Buffer) : Prop :=
  b.store.wf = true ∧ (∀ c ∈ b.store, c.1 < b.cap.toNat) ∧ b.cap.toNat ≤ capMax

/-- Every Buffer of the slot file is in order. -/
abbrev State.BuffersOk (s : State) : Prop := ∀ o ∈ s.slots, ∀ b ∈ o.toList, b.Ok s.capMax

/-- The status registers are zero before the first fault and hold a code of 60_exceptions.md R160 after it
(10_state.md R21, R28). -/
abbrev State.StatusOk (s : State) : Prop :=
  (s.fault = false ∧ s.fcode = 0 ∧ s.fopc = 0 ∧ s.fslot = 0) ∨
  (s.fault = true ∧ 0x01#8 ≤ s.fcode ∧ s.fcode ≤ 0x0A#8)

/-- The CODE field of a response (30_encoding.md R75). -/
def respCode (r : Resp) : Byte := r.extractLsb' 32 8

/-- The VALUE field of a response (30_encoding.md R75). -/
def respValue (r : Resp) : Word := r.extractLsb' 0 32

/-- The response of a command that completes with VALUE and no wrap bit (30_encoding.md R75). -/
def valueResp (v : Word) : Resp := (0 : BitVec 32) ++ v

/-- The response of a fault (30_encoding.md R75). -/
def faultResp (code : Byte) : Resp := (0 : BitVec 24) ++ code ++ (0 : BitVec 32)

/-- A response has zeros above bit 41, a CODE of 60_exceptions.md R160, and nothing but its CODE when that is
not 0 (30_encoding.md R75). -/
abbrev ResponseOk (r : Resp) : Prop :=
  r.extractLsb' 42 22 = 0 ∧
  (respCode r ≤ 0x0A#8 ∨ respCode r = 0xFF#8) ∧
  (respCode r ≠ 0 → r = faultResp (respCode r))

/-- The invariant of the block between two steps; no command is in progress there (10_state.md R10). -/
structure State.Inv (s : State) : Prop where
  params : s.ParamsOk
  buffers : s.BuffersOk
  status : s.StatusOk
  responses : ∀ r ∈ s.rsp, ResponseOk r
  idle : s.busy = false

/-- The block is not halted (60_exceptions.md R171). -/
abbrev State.running (s : State) : Prop := s.fault = false

/-! ### What a claim calls unchanged -/

/-- The host's side, `busy`, the parameters and the number of slots are unchanged. -/
abbrev SameOutside (s t : State) : Prop :=
  t.host = s.host ∧ t.pc = s.pc ∧ t.ioErr = s.ioErr ∧ t.capMax = s.capMax ∧ t.nslots = s.nslots ∧
    t.busy = s.busy

/-- The status registers are unchanged. -/
abbrev SameStatus (s t : State) : Prop :=
  t.fault = s.fault ∧ t.fcode = s.fcode ∧ t.fopc = s.fopc ∧ t.fslot = s.fslot

/-- Every slot but the named ones is unchanged, registers and storage. -/
abbrev SameSlotsBut (named : List SlotId) (s t : State) : Prop :=
  ∀ sl, sl ∉ named → t.buf sl = s.buf sl

/-- The outcome with a change made to its next state. -/
def mapNext (f : State → State) :
    Host.Outcome State Fault Refusal → Host.Outcome State Fault Refusal
  | .next t => .next (f t)
  | .fault r => .fault r
  | .refused r => .refused r

/-! ### The spec's formulas -/

/-- The read cursor after a read of `n` bytes that is served (40_cursor_arithmetic.md R93, R94). -/
def nextRc (cap rc n : Nat) : Nat := if rc + n ≤ cap then rc + n else rc + n - cap

/-- The bytes a served read of `n` bytes from `start` returns: storage in order, going round its end. -/
def lapBytes (b : Buffer) (start n : Nat) : List Byte :=
  (List.range n).map fun p => b.store.read ((start + p) % b.cap.toNat)

/-- The 32-bit value of 4 bytes read that way. -/
def lapWord (b : Buffer) (start : Nat) : Word := unLE32 (lapBytes b start 4)

/-- The storage offsets `0 .. n-1` (43_lifecycle_bulk.md R144). -/
def firstBytes (b : Buffer) (n : Nat) : List Byte := (List.range n).map fun k => b.store.read k

/-- The serialized form of a buffer (42_nested_buffer.md R130). -/
def nestedForm (b : Buffer) : List Byte :=
  le32 b.cap ++ le32 b.rc ++ le32 b.wc ++ firstBytes b b.cap.toNat

/-- A storage array `m'` is `m` with `bs` written from offset `off` on. -/
abbrev Filled (m m' : Memory) (off : Nat) (bs : List Byte) : Prop :=
  ∀ a, m'.read a = if off ≤ a ∧ a < off + bs.length then bs.getD (a - off) 0 else m.read a

/-- The overflow fault of a slot's mode (40_cursor_arithmetic.md R99). -/
def overflowOf (b : Buffer) : FaultKind := if b.lin then .overflowLinear else .overflowRing

/-- A write of `n` bytes at the write cursor lands on capacity in ring mode (40_cursor_arithmetic.md R98). -/
def landsInRing (b : Buffer) (n : Nat) : Bool := decide (b.wc.toNat + n = b.cap.toNat) && !b.lin

/-- The write cursor after a write of `n` bytes that is accepted (40_cursor_arithmetic.md R97, R98). -/
def nextWc (b : Buffer) (n : Nat) : Word := if landsInRing b n then 4 else b.wc + BitVec.ofNat 32 n

/-- The regions that successive writes of given lengths acquire, up to the first overshoot: (offset, length)
(42_nested_buffer.md R132, 40_cursor_arithmetic.md R97). -/
def runRegions (b : Buffer) : List Nat → List (Nat × Nat)
  | [] => []
  | n :: ns =>
    match acquireWrite b n with
    | .overflow _ _ => []
    | .region off _ b' => (off, n) :: runRegions b' ns

/-- Successive writes into one buffer up to the first overshoot: the buffer they leave, whether one snapped, and the
fault if one overshot (42_nested_buffer.md R132). -/
def writeAll (b : Buffer) : List (List Byte) → Buffer × Bool × Option FaultKind
  | [] => (b, false, none)
  | bs :: rest =>
    match acquireWrite b bs.length with
    | .overflow k b' => (b', false, some k)
    | .region off sn b' =>
      let r := writeAll { b' with store := memWrite b'.store off bs } rest
      (r.1, sn || r.2.1, r.2.2)

/-- The same state with another mode and write cursor in a slot that holds a Buffer. -/
def State.withMode (sl : SlotId) (lin : Bool) (wc : Word) (s : State) : State :=
  match s.buf sl with
  | none => s
  | some b => s.setBuf sl { b with lin := lin, wc := wc }

/-- The same state with another read cursor in a slot that holds a Buffer. -/
def State.withRc (sl : SlotId) (rc : Word) (s : State) : State :=
  match s.buf sl with
  | none => s
  | some b => s.setBuf sl { b with rc := rc }

/-- The same state with `io_err` at another level. -/
def State.withIoErr (e : Bool) (s : State) : State := { s with ioErr := e }

/-- What the common checks decide for a descriptor (60_exceptions.md R173). -/
inductive CheckResult where
  | halted
  | fault (k : FaultKind) (slot : SlotId)
  | pass (i : Instr)
deriving DecidableEq, Repr

/-- The common checks as 60_exceptions.md R173 lists them, steps 3 to 10, for a decoded command. -/
def checkInstr (i : Instr) (s : State) : CheckResult :=
  let outOfRange (o : Option SlotId) := o.any fun sl => decide (s.nslots ≤ sl.toNat)
  let isFree (o : Option SlotId) := o.any fun sl => (s.buf sl).isNone
  let isValid (o : Option SlotId) := o.any fun sl => (s.buf sl).isSome
  let sa := i.sa?.getD 0
  let sb := i.sb?.getD 0
  if outOfRange i.sa? then .fault .badSlot sa
  else if outOfRange i.sb? then .fault .badSlot sb
  else if i.needsValidSa && isFree i.sa? then .fault .badSlot sa
  else if i.sb?.isSome && i.sa? == i.sb? then .fault .slotAlias sa
  else
    match i with
    | .wrbuf _ _ => if isFree i.sb? then .fault .badSlot sb else .pass i
    | .rdbuf _ _ => if isValid i.sb? then .fault .slotInUse sb else .pass i
    | .init _ _ len _ _ =>
      if isValid i.sa? then .fault .slotInUse sa
      else if s.capMax < len.toNat then .fault .badLength sa else .pass i
    | .load _ absent len =>
      if isValid i.sa? then .fault .slotInUse sa
      else if !absent && decide (s.capMax < len.toNat) then .fault .badLength sa else .pass i
    | _ => .pass i

/-- The common checks of 60_exceptions.md R173, all ten steps. -/
def checkDesc (d : Desc) (s : State) : CheckResult :=
  if s.fault then .halted
  else
    match decode d with
    | .error _ => .fault .illegalCommand d.sa
    | .ok i => checkInstr i s

end Sys2Proof.Machine
end

