-- ==== Sys2Proof/Certificates/Slice0/Obligations.lean ====
section
/-! DEFINITION. The statements for the provers, from the numbered rules of spec/. -/

open Sys2Proof Sys2Proof.Machine

/-! ### Encoding -/

/-- 30_encoding.md R73's assembler lines and R77's worked descriptors decode to the commands they stand for. -/
def Obligations.KnownWordsDecode : Prop :=
  decode 0x00000000000000000000000000000000#128 = .ok .nop ∧
  decode 0x000000000000000E0000001000000101#128 = .ok (.init 1 false 16 14 0) ∧
  decode 0x00000000000000000000000000010002#128 = .ok (.load 0 true 0) ∧
  decode 0x00000000000000000000000000010003#128 = .ok (.drain 0 true) ∧
  decode 0x0000000000000000DEADBEEF00000011#128 = .ok (.wru32 0 0xDEADBEEF#32) ∧
  decode 0x00000000000000000000000000002021#128 = .ok (.rdbuf 0 2)

/-- Decoding the descriptor of a legal command gives the command back, at every operand value (30_encoding.md R61,
R62, R64, R69, R72, R73). -/
def Obligations.DecodeOfEncodeIsIdentity : Prop :=
  ∀ i : Instr, i.wellFormed = true → decode (encode i) = .ok i

/-- A descriptor that decodes agrees with the descriptor of its command in W0 and in every operand word the command
uses, and its command is legal (30_encoding.md R62, R69, R72). -/
def Obligations.EncodeAgreesWithTheDescriptor : Prop :=
  ∀ (d : Desc) (i : Instr), decode d = .ok i →
    i.wellFormed = true ∧ (encode i).w0 = d.w0 ∧
    (d.usesW1 = true → (encode i).w1 = d.w1) ∧
    (d.opc = 0x01#8 → (encode i).w2 = d.w2 ∧ (encode i).w3 = d.w3)

/-- No two rows of R64 select the same descriptor, and the row that selects one decides its decoding (30_encoding.md
R64, R72). -/
def Obligations.OneRowSelectsADescriptor : Prop :=
  ∀ (d : Desc) (r : Row), r ∈ opcodeRows → r.selects d = true →
    (∀ r' ∈ opcodeRows, r'.selects d = true → r'.pattern = r.pattern ∧ r'.mask = r.mask) ∧
    decode d = (if (r.build d).wellFormed then .ok (r.build d) else .error .badSelector)

/-- The illegal descriptors are those R66 lists and no others, and a running block takes IllegalCommand on each
(30_encoding.md R66; 60_exceptions.md R167: FOPC = W0[7:0], FSLOT = W0[11:8]). -/
def Obligations.IllegalDescriptorsAreExactlyThese : Prop :=
  (∀ d : Desc, (∃ e, decode d = .error e) ↔ d.Illegal) ∧
  ∀ (s : State) (r : Request) (rest : List HostEvent),
    s.running → s.host = .issue r :: rest → r.accepts = true → r.desc.Illegal →
    step s = .next { s.accept r rest with
      fault := true, fcode := 0x07#8, fopc := r.desc.extractLsb' 0 8, fslot := r.desc.extractLsb' 8 4,
      busy := false, rsp := s.rsp ++ [faultResp 0x07#8] }

/-- Operand words a command does not use are not examined: descriptors that differ only there act alike
(30_encoding.md R62, R65). -/
def Obligations.IgnoredWordsChangeNothing : Prop :=
  ∀ (s : State) (rest : List HostEvent) (d d' : Desc) (p : List Byte) (e a : Bool),
    d.w0 = d'.w0 → (d.usesW1 = true → d.w1 = d'.w1) →
    (d.opc = 0x01#8 → d.w2 = d'.w2 ∧ d.w3 = d'.w3) →
    step { s with host := .issue ⟨d, p, e, a⟩ :: rest } =
      step { s with host := .issue ⟨d', p, e, a⟩ :: rest }

/-! ### The machine -/

/-- When the descriptor the host presents decodes, a step is the command's meaning in the state with the descriptor
accepted: the pc advanced, `busy` on, the supplied bytes on DIN, `io_err` at its level; nothing else differs; `busy`
goes off when the answer is taken (10_state.md R27, 20_memory.md R41; that the supplied bytes and `io_err` come with
the request is the model's choice, log entry 5). -/
def Obligations.StepRunsTheDecodedCommand : Prop :=
  ∀ (s : State) (r : Request) (rest : List HostEvent) (i : Instr),
    s.host = .issue r :: rest → r.accepts = true → decode r.desc = .ok i →
    i.wellFormed = true ∧
    s.accept r rest =
      { s with host := rest, busy := true, pc := s.pc + 1, din := s.din ++ r.supplied, ioErr := r.ioErr } ∧
    step s = endCommand (s.accept r rest) (exec i (s.accept r rest)) ∧
    ∀ t, exec i (s.accept r rest) = .next t → step s = .next { t with busy := false }

/-- With no action of the host to come, the block waits with all state held (60_exceptions.md R182; the list of host
actions is the model's choice, log entry 5). -/
def Obligations.IdleBlockHoldsItsState : Prop :=
  ∀ s : State, s.host = [] → step s = .next s

/-- The state right after reset (10_state.md R28). -/
def Obligations.ResetValues : Prop :=
  (∀ sl, State.reset.buf sl = none) ∧
  State.reset.fault = false ∧ State.reset.fcode = 0x00#8 ∧ State.reset.fopc = 0x00#8 ∧
  State.reset.fslot = 0x0#4 ∧ State.reset.host = [] ∧ State.reset.din = [] ∧
  State.reset.dout = [] ∧ State.reset.rsp = []

/-- `rst` frees every slot, clears the status registers and empties the channels; the number of slots, CAP_MAX and
the pc stay; `busy` is off (70_reset_and_hazards.md R190; what stays is the model's choice, log entries 1 and 5). -/
def Obligations.RstClearsTheBlock : Prop :=
  ∀ (s : State) (rest : List HostEvent), s.host = .rst :: rest →
    ∃ t, step s = .next t ∧ (∀ sl, t.buf sl = none) ∧
      t.fault = false ∧ t.fcode = 0 ∧ t.fopc = 0 ∧ t.fslot = 0 ∧ t.busy = false ∧
      t.din = [] ∧ t.dout = [] ∧ t.rsp = [] ∧
      t.host = rest ∧ t.nslots = s.nslots ∧ t.capMax = s.capMax ∧ t.pc = s.pc

/-- While FAULT = 1 every descriptor the block accepts, legal or not, is answered Halted and changes nothing else: no
slot, no storage, no status register, nothing taken from DIN or put on DOUT; and FAULT stays 1 until `rst`
(10_state.md R22, 60_exceptions.md R171). -/
def Obligations.HaltedBlockAnswersHalted : Prop :=
  (∀ (s : State) (r : Request) (rest : List HostEvent),
    s.fault = true → s.host = .issue r :: rest → r.accepts = true →
    step s = .next { s.accept r rest with busy := false, rsp := s.rsp ++ [0x000000FF00000000#64] }) ∧
  ∀ s t : State, s.fault = true → step s = .next t → .rst ∉ s.host → t.fault = true

/-- A halted block stays halted with its slots, its storage and its first fault, unless `rst` comes
(60_exceptions.md R176, 70_reset_and_hazards.md R191). -/
def Obligations.OnlyRstLeavesTheHaltedState : Prop :=
  ∀ s t : State, s.fault = true → step s = .next t →
    (t.fault = true ∧ t.fcode = s.fcode ∧ t.fopc = s.fopc ∧ t.fslot = s.fslot ∧
      t.slots = s.slots ∧ t.dout = s.dout) ∨
    (.rst ∈ s.host ∧ t.fault = false ∧ ∀ sl, t.buf sl = none)

/-- Every descriptor, faulting or not, advances the pc by exactly 1 (10_state.md R27); idling leaves it
(60_exceptions.md R182). That `rst` leaves it, and that a descriptor whose command `rst` abandons still counts, is the
model's choice, log entry 5: R27 does not say. -/
def Obligations.EveryDescriptorAdvancesThePc : Prop :=
  ∀ s t : State, step s = .next t →
    (∀ r rest, s.host = .issue r :: rest → t.pc = s.pc + 1) ∧
    (∀ rest, s.host = .rst :: rest → t.pc = s.pc) ∧
    (s.host = [] → t.pc = s.pc)

/-- A command whose payload never comes, or whose output the host never takes, has no successor but by `rst`
(70_reset_and_hazards.md R201, R202; 93_implementation_defined.md V7, V8; that the host's list says when it waits for
ever is the model's choice, log entries 5 and 9). -/
def Obligations.WaitingCommandEndsOnlyByRst : Prop :=
  ∀ (s : State) (r : Request) (rest : List HostEvent),
    s.host = .issue r :: rest →
    (r.accepts = false ∨
      r.accepts = true ∧ ∃ i, decode r.desc = .ok i ∧
        exec i (s.accept r rest) = .fault .payloadStarved) →
    (rest.head? ≠ some .rst → ∃ f, step s = .fault f) ∧
    (∀ rest', rest = .rst :: rest' →
      ∃ t, step s = .next t ∧ t.host = rest' ∧ t.rsp = [] ∧ t.fault = false ∧ ∀ sl, t.buf sl = none)

/-- The status output `busy` is on from the acceptance of a descriptor, through its whole command, to the acceptance of
its response, also while the command waits; it is off after every step that takes an action of the host, and after
reset (20_memory.md R41; 60_exceptions.md R181; its reset value is read from R41, log entry 8). -/
def Obligations.BusyFromAcceptanceToResponse : Prop :=
  State.reset.busy = false ∧
  (∀ (s : State) (r : Request) (rest : List HostEvent), s.host = .issue r :: rest →
    (r.accepts = true → fetch s = .command r.desc (s.accept r rest)) ∧
    (r.accepts = false → fetch s = .stuck .outputNotAccepted (s.accept r rest)) ∧
    (s.accept r rest).busy = true ∧
    ∀ i t, exec i (s.accept r rest) = .next t → t.busy = true) ∧
  ∀ s t : State, step s = .next t → (s.host ≠ [] → t.busy = false) ∧ (s.host = [] → t.busy = s.busy)

/-- The common checks, in R173's order, decide every descriptor: the first that fails gives the response and the
status registers and changes nothing else; when all pass the command's own rule runs, and it takes none of the
faults of the checks (60_exceptions.md R173). -/
def Obligations.CommonChecksDecideInOrder : Prop :=
  ∀ (s : State) (r : Request) (rest : List HostEvent),
    s.host = .issue r :: rest → r.accepts = true →
    match checkDesc r.desc (s.accept r rest) with
    | .halted =>
      step s = .next { s.accept r rest with busy := false, rsp := s.rsp ++ [faultResp 0xFF#8] }
    | .fault k sl =>
      step s = .next { s.accept r rest with
        fault := true, fcode := k.code, fopc := r.desc.extractLsb' 0 8, fslot := sl,
        busy := false, rsp := s.rsp ++ [faultResp k.code] }
    | .pass i =>
      decode r.desc = .ok i ∧ step s = endCommand (s.accept r rest) (exec i (s.accept r rest)) ∧
      ∀ t, exec i (s.accept r rest) = .next t → t.fault = true →
        t.fcode ∉ [0x06#8, 0x07#8, 0x08#8, 0x09#8, 0x0A#8]

/-- A command that takes a fault sets FAULT, FCODE, FOPC and FSLOT and answers with the code alone; one that takes
none leaves them and answers with code 0 (60_exceptions.md R170, 30_encoding.md R75). -/
def Obligations.FaultEntryRecordsTheFault : Prop :=
  ∀ (i : Instr) (s t : State), s.running → exec i s = .next t →
    (t.fault = true ∧ t.fopc = i.opcode ∧ t.fslot ∈ i.sa?.toList ++ i.sb?.toList ∧
      ∃ k : FaultKind, t.fcode = k.code ∧ t.rsp = s.rsp ++ [faultResp k.code]) ∨
    (SameStatus s t ∧ ∃ w, t.rsp = s.rsp ++ [w] ∧ respCode w = 0)

/-- Every command that has a successor issues exactly one response, in R75's format, with CODE 0 exactly when it
completed (30_encoding.md R75). -/
def Obligations.OneResponsePerCommand : Prop :=
  ∀ (i : Instr) (s t : State), exec i s = .next t →
    ∃ w, t.rsp = s.rsp ++ [w] ∧ ResponseOk w ∧ (respCode w = 0 ↔ t.fault = false)

/-- Every command, in every state, has a successor, unless its payload is missing; none is refused
(93_implementation_defined.md section 3). -/
def Obligations.AnsweredUnlessPayloadMissing : Prop :=
  ∀ (i : Instr) (s : State),
    (i.payload ≤ s.din.length → ∃ t, exec i s = .next t) ∧
    (∀ f, exec i s = .fault f → f = .payloadStarved ∧ s.running ∧ s.din.length < i.payload) ∧
    ∀ r, exec i s ≠ .refused r

/-! ### Frames -/

/-- A command changes no slot but those it writes, and nothing on the host's side (10_state.md R29). -/
def Obligations.CommandsLeaveOtherSlots : Prop :=
  ∀ (i : Instr) (s t : State), exec i s = .next t →
    SameSlotsBut i.writes s t ∧ SameOutside s t ∧
    ∀ sl, sl ∉ i.writes → ∀ off, t.peek sl off = s.peek sl off

/-- The payload a command takes from DIN is exactly R70's count; a command that faults takes none, except that a LOAD
ended by `io_err` may have taken up to its count (30_encoding.md R70, 60_exceptions.md R183). -/
def Obligations.PayloadTakenIsExact : Prop :=
  ∀ (i : Instr) (s t : State), s.running → exec i s = .next t →
    (t.fault = false → i.payload ≤ s.din.length ∧ t.din = s.din.drop i.payload) ∧
    (t.fault = true → t.fcode ≠ 0x04#8 → t.din = s.din) ∧
    ∃ k, k ≤ i.payload ∧ t.din = s.din.drop k

/-- RDU32, RDF32 and RDB write the read cursor of their slot and nothing else of any slot; every byte of storage
stays; a fault changes no slot and emits nothing (41_typed_codec.md R111, R113, R115; 20_memory.md R49). -/
def Obligations.ReadsLeaveAllButTheReadCursor : Prop :=
  ∀ (i : Instr) (sa : SlotId) (n : Word) (s t : State),
    (i = .rdu32 sa ∨ i = .rdf32 sa ∨ i = .rdb sa n) → exec i s = .next t →
    SameSlotsBut [sa] s t ∧ SameOutside s t ∧ t.din = s.din ∧ t.freeCount = s.freeCount ∧
    (∀ b, s.buf sa = some b → ∃ rc, t.buf sa = some { b with rc := rc }) ∧
    (s.buf sa = none → t.buf sa = none) ∧
    (∀ sl off, t.peek sl off = s.peek sl off) ∧
    (i ≠ .rdb sa n → t.dout = s.dout) ∧
    (t.fault = true → t.slots = s.slots ∧ t.dout = s.dout) ∧
    (t.fault = false → SameStatus s t)

/-- WRU32, WRF32 and WRB store into the region that starts at the old write cursor and nowhere else, and write the
write cursor (WRF32 also LWF) and no other register; on a fault no byte of storage changes (41_typed_codec.md
R112, R114, R116; 60_exceptions.md R183). -/
def Obligations.WritesLeaveAllButTheirRegion : Prop :=
  ∀ (i : Instr) (sa : SlotId) (v n : Word) (len : Nat) (s t : State),
    ((i = .wru32 sa v ∧ len = 4) ∨ (i = .wrf32 sa v ∧ len = 4) ∨ (i = .wrb sa n ∧ len = n.toNat)) →
    exec i s = .next t →
    SameSlotsBut [sa] s t ∧ SameOutside s t ∧ t.dout = s.dout ∧ t.freeCount = s.freeCount ∧
    (i ≠ .wrb sa n → t.din = s.din) ∧
    (t.fault = false → SameStatus s t) ∧
    (∀ sl off, sl ≠ sa → t.peek sl off = s.peek sl off) ∧
    (s.buf sa = none → t.buf sa = none) ∧
    ∀ b, s.buf sa = some b → ∃ b', t.buf sa = some b' ∧
      b'.cap = b.cap ∧ b'.rc = b.rc ∧ b'.lin = b.lin ∧
      ((i ≠ .wrf32 sa v ∨ t.fault = true) → b'.lwf = b.lwf) ∧
      (∀ off, ¬ (b.wc.toNat ≤ off ∧ off < b.wc.toNat + len) → t.peek sa off = s.peek sa off) ∧
      (t.fault = true → ∀ off, t.peek sa off = s.peek sa off)

/-- NOP, QRY and DRAIN change no slot, take no payload, and NOP and QRY emit nothing (43_lifecycle_bulk.md R141,
R144, R146; 20_memory.md R49). -/
def Obligations.NopQryDrainLeaveEverySlot : Prop :=
  ∀ (i : Instr) (sa : SlotId) (f : Bool) (sel : Word) (s t : State),
    (i = .nop ∨ i = .qry sa sel ∨ i = .drain sa f) → exec i s = .next t →
    t.slots = s.slots ∧ SameOutside s t ∧ t.din = s.din ∧
    (∀ sl off, t.peek sl off = s.peek sl off) ∧
    (i ≠ .drain sa f → t.dout = s.dout ∧ t.freeCount = s.freeCount) ∧
    (t.fault = false → SameStatus s t ∧ t.freeCount = s.freeCount)

/-- INIT, LOAD and FREE change their slot and no other, emit nothing, and change no slot when they fault
(43_lifecycle_bulk.md R142, R143, R145; 60_exceptions.md R183). -/
def Obligations.ConstructionsLeaveOtherSlots : Prop :=
  ∀ (i : Instr) (sa : SlotId) (f : Bool) (len rc wc : Word) (s t : State),
    (i = .init sa f len rc wc ∨ i = .load sa f len ∨ i = .free sa) → exec i s = .next t →
    SameSlotsBut [sa] s t ∧ SameOutside s t ∧ t.dout = s.dout ∧
    (∀ sl off, sl ≠ sa → t.peek sl off = s.peek sl off) ∧
    (i = .free sa → t.din = s.din ∧ t.freeCount = s.freeCount) ∧
    (t.fault = true → t.slots = s.slots) ∧
    (t.fault = false → SameStatus s t ∧ t.freeCount = s.freeCount)

/-- WRBUF stores into the regions its four writes acquire in the outer slot and nowhere else, and writes the outer
write cursor and no other register; the inner slot is unchanged (42_nested_buffer.md R132). -/
def Obligations.WrbufLeavesAllButItsRegions : Prop :=
  ∀ (o j : SlotId) (s t : State), exec (.wrbuf o j) s = .next t →
    SameSlotsBut [o] s t ∧ SameOutside s t ∧ t.din = s.din ∧ t.dout = s.dout ∧
    t.freeCount = s.freeCount ∧
    (t.fault = false → SameStatus s t) ∧
    (∀ sl off, sl ≠ o → t.peek sl off = s.peek sl off) ∧
    (s.buf o = none → t.buf o = none) ∧
    ∀ b, s.buf o = some b → ∃ b', t.buf o = some b' ∧
      b'.cap = b.cap ∧ b'.rc = b.rc ∧ b'.lin = b.lin ∧ b'.lwf = b.lwf ∧
      ∀ ib off, s.buf j = some ib →
        (∀ r ∈ runRegions b [4, 4, 4, ib.cap.toNat], ¬ (r.1 ≤ off ∧ off < r.1 + r.2)) →
        t.peek o off = s.peek o off

/-- RDBUF writes the outer read cursor and the destination slot and nothing else of any slot; the outer storage
stays; a fault leaves the destination as it was (42_nested_buffer.md R134, 60_exceptions.md R183). -/
def Obligations.RdbufLeavesAllButItsDestination : Prop :=
  ∀ (o d : SlotId) (s t : State), exec (.rdbuf o d) s = .next t →
    SameSlotsBut [o, d] s t ∧ SameOutside s t ∧ t.din = s.din ∧ t.dout = s.dout ∧
    t.freeCount = s.freeCount ∧
    (t.fault = false → SameStatus s t) ∧
    (∀ sl off, sl ≠ d → t.peek sl off = s.peek sl off) ∧
    (∀ b, s.buf o = some b → ∃ rc, t.buf o = some { b with rc := rc }) ∧
    (s.buf o = none → t.slots = s.slots) ∧
    (t.fault = true → o ≠ d → t.buf d = s.buf d)

/-- While a slot holds a Buffer its capacity and mode never change; only a read moves its read cursor, only a write
its write cursor, and only WRF32 its LWF (10_state.md R14 to R18; 43_lifecycle_bulk.md R147). -/
def Obligations.OnlyTheNamedCommandsChangeARegister : Prop :=
  ∀ (i : Instr) (s t : State) (sl : SlotId) (b b' : Buffer),
    exec i s = .next t → s.buf sl = some b → t.buf sl = some b' →
    b'.cap = b.cap ∧ b'.lin = b.lin ∧
    (b'.rc ≠ b.rc → i.readsThrough sl = true) ∧
    (b'.wc ≠ b.wc → i.writesThrough sl = true) ∧
    (b'.lwf ≠ b.lwf → ∃ v, i = .wrf32 sl v ∧ b'.lwf = v)

/-- No command but LOAD with F0 = 0 and DRAIN looks at `io_err` (30_encoding.md R71). -/
def Obligations.IoErrIsReadByLoadAndDrainOnly : Prop :=
  ∀ (i : Instr) (s : State) (e : Bool), i.readsIoErr = false →
    exec i (s.withIoErr e) = mapNext (State.withIoErr e) (exec i s)

/-! ### What each command does -/

/-- NOP answers 0 in a running block and Halted in a halted one, and is W0 = 0 exactly (43_lifecycle_bulk.md R141). -/
def Obligations.NopAnswersZero : Prop :=
  (∀ s : State, s.running → exec .nop s = .next { s with rsp := s.rsp ++ [0x0000000000000000#64] }) ∧
  (∀ s : State, s.fault = true →
    exec .nop s = .next { s with rsp := s.rsp ++ [0x000000FF00000000#64] }) ∧
  ∀ d : Desc, decode d = .ok .nop ↔ d.w0 = 0

/-- INIT constructs a Buffer from its payload, cursors and mode, or takes BadSlot, SlotInUse or BadLength, or waits
for its payload (43_lifecycle_bulk.md R142). -/
def Obligations.InitConstructsItsBuffer : Prop :=
  (∀ (sa : SlotId) (lin : Bool) (len rc0 wc0 : Word),
    decode (packDesc 0x01#8 sa 0 lin len rc0 wc0) = .ok (.init sa lin len rc0 wc0)) ∧
  ∀ (s : State) (sa : SlotId) (lin : Bool) (len rc0 wc0 : Word), s.running →
    (s.nslots ≤ sa.toNat →
      exec (.init sa lin len rc0 wc0) s = .next (s.enterFault .badSlot 0x01#8 sa)) ∧
    (∀ b, s.buf sa = some b →
      exec (.init sa lin len rc0 wc0) s = .next (s.enterFault .slotInUse 0x01#8 sa)) ∧
    (sa.toNat < s.nslots → s.buf sa = none →
      (s.capMax < len.toNat →
        exec (.init sa lin len rc0 wc0) s = .next (s.enterFault .badLength 0x01#8 sa)) ∧
      (len.toNat ≤ s.capMax → s.din.length < len.toNat →
        exec (.init sa lin len rc0 wc0) s = .fault .payloadStarved) ∧
      (len.toNat ≤ s.capMax → len.toNat ≤ s.din.length →
        ∃ m : Memory, (∀ off, m.read off = (s.din.take len.toNat).getD off 0) ∧
          exec (.init sa lin len rc0 wc0) s = .next { s with
            slots := s.slots.set sa.toNat (some ⟨len, rc0, wc0, lin, 0, m⟩)
            din := s.din.drop len.toNat
            rsp := s.rsp ++ [valueResp 0] }))

/-- LOAD constructs a linear Buffer with both cursors 0 from its payload, an empty one when the source is absent
(whatever W1 and `io_err` are); it takes BadSlot, SlotInUse, BadLength or IOFailure, or waits for its payload. How
much payload an IOFailure had taken is open: any number up to LEN (43_lifecycle_bulk.md R143). -/
def Obligations.LoadConstructsALinearBuffer : Prop :=
  (∀ (sa : SlotId) (f : Bool) (len w2 w3 : Word),
    decode (packDesc 0x02#8 sa 0 f len w2 w3) = .ok (.load sa f len)) ∧
  ∀ (s : State) (sa : SlotId) (len : Word), s.running →
    (∀ f, s.nslots ≤ sa.toNat → exec (.load sa f len) s = .next (s.enterFault .badSlot 0x02#8 sa)) ∧
    (∀ f b, s.buf sa = some b → exec (.load sa f len) s = .next (s.enterFault .slotInUse 0x02#8 sa)) ∧
    (sa.toNat < s.nslots → s.buf sa = none →
      (exec (.load sa true len) s = .next { s with
        slots := s.slots.set sa.toNat (some ⟨0, 0, 0, true, 0, []⟩)
        rsp := s.rsp ++ [valueResp 0] }) ∧
      (s.capMax < len.toNat →
        exec (.load sa false len) s = .next (s.enterFault .badLength 0x02#8 sa)) ∧
      (len.toNat ≤ s.capMax → s.ioErr = true →
        ∃ k c, k ≤ len.toNat ∧ exec (.load sa false len) s =
          .next (({ s with din := s.din.drop k, freeCount := c } : State).enterFault .ioFailure 0x02#8 sa)) ∧
      (len.toNat ≤ s.capMax → s.ioErr = false → s.din.length < len.toNat →
        exec (.load sa false len) s = .fault .payloadStarved) ∧
      (len.toNat ≤ s.capMax → s.ioErr = false → len.toNat ≤ s.din.length →
        ∃ m : Memory, (∀ off, m.read off = (s.din.take len.toNat).getD off 0) ∧
          exec (.load sa false len) s = .next { s with
            slots := s.slots.set sa.toNat (some ⟨len, 0, 0, true, 0, m⟩)
            din := s.din.drop len.toNat
            rsp := s.rsp ++ [valueResp 0] }))

/-- DRAIN emits the whole storage, or with TRUNC the first WC bytes, answers their number and changes no slot; it
takes BadSlot, RangeFault (TRUNC and WC > CAP, before `io_err` matters) or IOFailure after an open prefix of the
bytes (43_lifecycle_bulk.md R144). -/
def Obligations.DrainEmitsStorage : Prop :=
  (∀ (sa : SlotId) (f : Bool) (w1 w2 w3 : Word),
    decode (packDesc 0x03#8 sa 0 f w1 w2 w3) = .ok (.drain sa f)) ∧
  ∀ (s : State) (sa : SlotId) (f : Bool), s.running →
    (s.buf sa = none → exec (.drain sa f) s = .next (s.enterFault .badSlot 0x03#8 sa)) ∧
    ∀ b, s.buf sa = some b →
      (f = true → b.cap.toNat < b.wc.toNat →
        exec (.drain sa f) s = .next (s.enterFault .rangeFault 0x03#8 sa)) ∧
      ∀ n, n = (if f then b.wc else b.cap) → n.toNat ≤ b.cap.toNat →
        (s.ioErr = false → exec (.drain sa f) s = .next { s with
          dout := s.dout ++ firstBytes b n.toNat
          rsp := s.rsp ++ [valueResp n] }) ∧
        (s.ioErr = true → ∃ k c, exec (.drain sa f) s =
          .next (({ s with dout := s.dout ++ (firstBytes b n.toNat).take k, freeCount := c } : State).enterFault
            .ioFailure 0x03#8 sa))

/-- FREE frees its slot and no other; BadSlot when the slot is out of range or already free (43_lifecycle_bulk.md
R145). -/
def Obligations.FreeReleasesItsSlot : Prop :=
  (∀ (sa : SlotId) (w1 w2 w3 : Word), decode (packDesc 0x04#8 sa 0 false w1 w2 w3) = .ok (.free sa)) ∧
  ∀ (s : State) (sa : SlotId), s.running →
    (s.buf sa = none → exec (.free sa) s = .next (s.enterFault .badSlot 0x04#8 sa)) ∧
    ∀ b, s.buf sa = some b →
      ∃ t, exec (.free sa) s = .next t ∧ t.buf sa = none ∧ SameSlotsBut [sa] s t ∧
        t = { s with slots := t.slots, rsp := s.rsp ++ [valueResp 0] }

/-- QRY answers the selected register and writes nothing; FLAGS is allowed on a free slot and is 0 there; a selector
above 4 is IllegalCommand, a slot out of range or a free slot (but for FLAGS) BadSlot; it is not available in the
halted state (43_lifecycle_bulk.md R146). -/
def Obligations.QryAnswersTheRegister : Prop :=
  ((∀ (sa : SlotId) (sel w2 w3 : Word),
      decode (packDesc 0x05#8 sa 0 false sel w2 w3) =
        if sel.toNat ≤ 4 then .ok (.qry sa sel) else .error .badSelector) ∧
    ∀ (s : State) (sa : SlotId) (sel : Word), s.fault = true →
      exec (.qry sa sel) s = .next { s with rsp := s.rsp ++ [0x000000FF00000000#64] }) ∧
  ∀ (s : State) (sa : SlotId), s.running →
    (∀ b, s.buf sa = some b →
      exec (.qry sa 0) s = .next { s with rsp := s.rsp ++ [valueResp b.cap] } ∧
      exec (.qry sa 1) s = .next { s with rsp := s.rsp ++ [valueResp b.rc] } ∧
      exec (.qry sa 2) s = .next { s with rsp := s.rsp ++ [valueResp b.wc] } ∧
      exec (.qry sa 3) s = .next { s with rsp := s.rsp ++ [valueResp (if b.lin then 3 else 1)] } ∧
      exec (.qry sa 4) s = .next { s with rsp := s.rsp ++ [valueResp b.lwf] }) ∧
    (sa.toNat < s.nslots → s.buf sa = none →
      exec (.qry sa 3) s = .next { s with rsp := s.rsp ++ [valueResp 0] }) ∧
    (∀ sel : Word, 4 < sel.toNat →
      exec (.qry sa sel) s = .next (s.enterFault .illegalCommand 0x05#8 sa)) ∧
    (∀ sel : Word, sel.toNat ≤ 4 → (s.nslots ≤ sa.toNat ∨ sel ≠ 3) → s.buf sa = none →
      exec (.qry sa sel) s = .next (s.enterFault .badSlot 0x05#8 sa))

/-- RDU32 and RDF32 answer the 4 bytes at the read cursor, going round the end of storage, as a little-endian value,
move the read cursor, report a split in WRAPR, and take RangeFault exactly when the cursor is above capacity or
capacity is below 4 (41_typed_codec.md R111, R113; 40_cursor_arithmetic.md R93, R94, R95). -/
def Obligations.TypedReadsAnswerTheWordAtTheCursor : Prop :=
  (∀ (sa : SlotId) (w1 w2 w3 : Word),
    decode (packDesc 0x10#8 sa 0 false w1 w2 w3) = .ok (.rdu32 sa) ∧
    decode (packDesc 0x12#8 sa 0 false w1 w2 w3) = .ok (.rdf32 sa)) ∧
  ∀ (s : State) (sa : SlotId) (b : Buffer) (i : Instr),
    (i = .rdu32 sa ∨ i = .rdf32 sa) → s.running → s.buf sa = some b →
    (b.rc.toNat ≤ b.cap.toNat → 4 ≤ b.cap.toNat →
      exec i s = .next
        ((s.setBuf sa { b with rc := BitVec.ofNat 32 (nextRc b.cap.toNat b.rc.toNat 4) }).respond
          (Reply.word ⟨lapWord b b.rc.toNat, decide (b.cap.toNat < b.rc.toNat + 4), false⟩))) ∧
    ((b.cap.toNat < b.rc.toNat ∨ b.cap.toNat < 4) →
      exec i s = .next (s.enterFault .rangeFault i.opcode sa))

/-- RDB emits N bytes from the read cursor, going round the end of storage once at most, moves the read cursor,
answers N, and takes RangeFault exactly when the cursor or N is above capacity (41_typed_codec.md R115;
40_cursor_arithmetic.md R93, R94, R95). -/
def Obligations.RdbEmitsTheBytesAtTheCursor : Prop :=
  (∀ (sa : SlotId) (n w2 w3 : Word), decode (packDesc 0x14#8 sa 0 false n w2 w3) = .ok (.rdb sa n)) ∧
  ∀ (s : State) (sa : SlotId) (b : Buffer) (n : Word), s.running → s.buf sa = some b →
    (b.rc.toNat ≤ b.cap.toNat → n.toNat ≤ b.cap.toNat →
      exec (.rdb sa n) s = .next
        (((s.setBuf sa { b with rc := BitVec.ofNat 32 (nextRc b.cap.toNat b.rc.toNat n.toNat) }).emit
          (lapBytes b b.rc.toNat n.toNat)).respond
          (Reply.word ⟨n, decide (b.cap.toNat < b.rc.toNat + n.toNat), false⟩))) ∧
    ((b.cap.toNat < b.rc.toNat ∨ b.cap.toNat < n.toNat) →
      exec (.rdb sa n) s = .next (s.enterFault .rangeFault 0x14#8 sa))

/-- WRU32 and WRF32 store the little-endian bytes of VAL at the old write cursor, move it (to 4 with WRAPW on a ring
landing), WRF32 also setting LWF; when WC + 4 > CAP they take the overflow fault of the mode with WC advanced and
nothing stored (41_typed_codec.md R112, R114; 40_cursor_arithmetic.md R98, R99, R100). -/
def Obligations.TypedWritesStoreTheWordAtTheCursor : Prop :=
  (∀ (sa : SlotId) (v w2 w3 : Word),
    decode (packDesc 0x11#8 sa 0 false v w2 w3) = .ok (.wru32 sa v) ∧
    decode (packDesc 0x13#8 sa 0 false v w2 w3) = .ok (.wrf32 sa v)) ∧
  ∀ (s : State) (sa : SlotId) (b : Buffer) (v lwf : Word) (i : Instr),
    (i = .wru32 sa v ∧ lwf = b.lwf ∨ i = .wrf32 sa v ∧ lwf = v) → s.running → s.buf sa = some b →
    (b.wc.toNat + 4 ≤ b.cap.toNat →
      ∃ m : Memory, Filled b.store m b.wc.toNat (le32 v) ∧
        exec i s = .next
          ((s.setBuf sa { b with wc := nextWc b 4, lwf := lwf, store := m }).respond
            (Reply.word ⟨0, false, landsInRing b 4⟩))) ∧
    (b.cap.toNat < b.wc.toNat + 4 →
      exec i s = .next ((s.setBuf sa { b with wc := b.wc + 4 }).enterFault (overflowOf b) i.opcode sa))

/-- WRB stores its payload at the old write cursor and moves it; it takes the overflow fault of the mode, with no
payload taken and nothing stored, when WC + N > CAP (WC advanced) or on a ring landing on a capacity below 4
(WC = 4); otherwise it waits while the payload is short (41_typed_codec.md R116; 40_cursor_arithmetic.md R98,
R99, R100). -/
def Obligations.WrbStoresItsPayloadAtTheCursor : Prop :=
  (∀ (sa : SlotId) (n w2 w3 : Word), decode (packDesc 0x15#8 sa 0 false n w2 w3) = .ok (.wrb sa n)) ∧
  ∀ (s : State) (sa : SlotId) (b : Buffer) (n : Word), s.running → s.buf sa = some b →
    (b.cap.toNat < b.wc.toNat + n.toNat →
      exec (.wrb sa n) s =
        .next ((s.setBuf sa { b with wc := b.wc + n }).enterFault (overflowOf b) 0x15#8 sa)) ∧
    (landsInRing b n.toNat = true → b.cap.toNat < 4 →
      exec (.wrb sa n) s =
        .next ((s.setBuf sa { b with wc := 4 }).enterFault .overflowRing 0x15#8 sa)) ∧
    (b.wc.toNat + n.toNat ≤ b.cap.toNat → (landsInRing b n.toNat = true → 4 ≤ b.cap.toNat) →
      (s.din.length < n.toNat → exec (.wrb sa n) s = .fault .payloadStarved) ∧
      (n.toNat ≤ s.din.length →
        ∃ m : Memory, Filled b.store m b.wc.toNat (s.din.take n.toNat) ∧
          exec (.wrb sa n) s = .next
            ((({ s with din := s.din.drop n.toNat } : State).setBuf sa
              { b with wc := nextWc b n.toNat, store := m }).respond
              (Reply.word ⟨0, false, landsInRing b n.toNat⟩))))

/-- Where the whole form fits before capacity, WRBUF stores the inner buffer's serialized form at the outer write
cursor in one piece and moves the outer write cursor past it (42_nested_buffer.md R130, R132). -/
def Obligations.WrbufStoresTheSerializedForm : Prop :=
  ∀ (s : State) (o j : SlotId) (ob ib : Buffer), s.running → o ≠ j →
    s.buf o = some ob → s.buf j = some ib →
    ob.wc.toNat + 12 + ib.cap.toNat ≤ ob.cap.toNat →
    ∃ m : Memory, Filled ob.store m ob.wc.toNat (nestedForm ib) ∧
      exec (.wrbuf o j) s = .next
        ((s.setBuf o { ob with wc := nextWc ob (12 + ib.cap.toNat), store := m }).respond
          (Reply.word ⟨0, false, landsInRing ob (12 + ib.cap.toNat)⟩))

/-- WRBUF is four writes into the outer buffer, capacity, read cursor, write cursor, bytes; the first that overshoots
ends it with the parts before it stored and the outer write cursor as that write left it (42_nested_buffer.md R132;
60_exceptions.md R183). -/
def Obligations.WrbufIsFourWritesInOrder : Prop :=
  (∀ (o j : SlotId) (w1 w2 w3 : Word),
    decode (packDesc 0x20#8 o j false w1 w2 w3) = .ok (.wrbuf o j)) ∧
  ∀ (s : State) (o j : SlotId) (ob ib : Buffer), s.running → o ≠ j →
    s.buf o = some ob → s.buf j = some ib →
    ∀ b' w f,
      writeAll ob [le32 ib.cap, le32 ib.rc, le32 ib.wc, firstBytes ib ib.cap.toNat] = (b', w, f) →
      (f = none →
        exec (.wrbuf o j) s = .next ((s.setBuf o b').respond (Reply.word ⟨0, false, w⟩))) ∧
      (∀ k, f = some k → exec (.wrbuf o j) s = .next ((s.setBuf o b').enterFault k 0x20#8 o))

/-- RDBUF reads capacity, read cursor and write cursor and then that many bytes from the outer read cursor on, and
constructs a ring buffer with LWF 0 from them in the destination (42_nested_buffer.md R134, R136). -/
def Obligations.RdbufConstructsARingBuffer : Prop :=
  (∀ (o d : SlotId) (w1 w2 w3 : Word),
    decode (packDesc 0x21#8 o d false w1 w2 w3) = .ok (.rdbuf o d)) ∧
  ∀ (s : State) (o d : SlotId) (b : Buffer) (cap rc wc : Word), s.running →
    s.buf o = some b → d.toNat < s.nslots → s.buf d = none →
    b.rc.toNat ≤ b.cap.toNat → 4 ≤ b.cap.toNat →
    cap = lapWord b b.rc.toNat → rc = lapWord b (b.rc.toNat + 4) → wc = lapWord b (b.rc.toNat + 8) →
    cap.toNat ≤ 1048576 → rc.toNat ≤ 1048576 → wc.toNat ≤ 1048576 → cap.toNat ≤ b.cap.toNat →
    ∃ (m : Memory) (rc' : Nat),
      rc' = nextRc b.cap.toNat
        (nextRc b.cap.toNat (nextRc b.cap.toNat (nextRc b.cap.toNat b.rc.toNat 4) 4) 4) cap.toNat ∧
      (∀ off, m.read off = (lapBytes b (b.rc.toNat + 12) cap.toNat).getD off 0) ∧
      exec (.rdbuf o d) s = .next
        (((s.setBuf o { b with rc := BitVec.ofNat 32 rc' }).setBuf d ⟨cap, rc, wc, false, 0, m⟩).respond
          (Reply.word ⟨0, decide (b.cap.toNat < b.rc.toNat + 12 + cap.toNat), false⟩))

/-- RDBUF checks each field right after reading it: RangeFault when 4 bytes cannot be read, OversizedLength at the
first field above 1,048,576 with the outer read cursor past it, RangeFault on a byte run longer than the outer
capacity; the destination stays free (42_nested_buffer.md R134, R135; 60_exceptions.md R163). -/
def Obligations.RdbufFaultsAtTheFirstBadField : Prop :=
  ∀ (s : State) (o d : SlotId) (b : Buffer) (c1 c2 c3 : Nat), s.running →
    s.buf o = some b → d.toNat < s.nslots → s.buf d = none →
    c1 = nextRc b.cap.toNat b.rc.toNat 4 → c2 = nextRc b.cap.toNat c1 4 →
    c3 = nextRc b.cap.toNat c2 4 →
    ((b.cap.toNat < b.rc.toNat ∨ b.cap.toNat < 4) →
      exec (.rdbuf o d) s = .next (s.enterFault .rangeFault 0x21#8 o)) ∧
    (b.rc.toNat ≤ b.cap.toNat → 4 ≤ b.cap.toNat →
      (1048576 < (lapWord b b.rc.toNat).toNat →
        exec (.rdbuf o d) s = .next
          ((s.setBuf o { b with rc := BitVec.ofNat 32 c1 }).enterFault .oversizedLength 0x21#8 o)) ∧
      ((lapWord b b.rc.toNat).toNat ≤ 1048576 →
        1048576 < (lapWord b (b.rc.toNat + 4)).toNat →
        exec (.rdbuf o d) s = .next
          ((s.setBuf o { b with rc := BitVec.ofNat 32 c2 }).enterFault .oversizedLength 0x21#8 o)) ∧
      ((lapWord b b.rc.toNat).toNat ≤ 1048576 →
        (lapWord b (b.rc.toNat + 4)).toNat ≤ 1048576 →
        1048576 < (lapWord b (b.rc.toNat + 8)).toNat →
        exec (.rdbuf o d) s = .next
          ((s.setBuf o { b with rc := BitVec.ofNat 32 c3 }).enterFault .oversizedLength 0x21#8 o)) ∧
      ((lapWord b b.rc.toNat).toNat ≤ 1048576 →
        (lapWord b (b.rc.toNat + 4)).toNat ≤ 1048576 →
        (lapWord b (b.rc.toNat + 8)).toNat ≤ 1048576 →
        b.cap.toNat < (lapWord b b.rc.toNat).toNat →
        exec (.rdbuf o d) s = .next
          ((s.setBuf o { b with rc := BitVec.ofNat 32 c3 }).enterFault .rangeFault 0x21#8 o)))

/-! ### Laws of the block -/

/-- LE32 puts the low byte first, UnLE32 is its inverse, both ways (20_memory.md R44). -/
def Obligations.LittleEndianCodec : Prop :=
  (∀ v : Word, le32 v = [BitVec.ofNat 8 v.toNat, BitVec.ofNat 8 (v.toNat / 256),
    BitVec.ofNat 8 (v.toNat / 65536), BitVec.ofNat 8 (v.toNat / 16777216)]) ∧
  (∀ b0 b1 b2 b3 : Byte, (unLE32 [b0, b1, b2, b3]).toNat =
    b0.toNat + 256 * b1.toNat + 65536 * b2.toNat + 16777216 * b3.toNat) ∧
  (∀ v : Word, unLE32 (le32 v) = v) ∧
  (∀ b0 b1 b2 b3 : Byte, le32 (unLE32 [b0, b1, b2, b3]) = [b0, b1, b2, b3]) ∧
  le32 0x01000F0E#32 = [0x0E#8, 0x0F#8, 0x00#8, 0x01#8]

/-- A read, RDBUF's reads of its outer slot among them, looks at neither the mode nor the write cursor of its slot: with
both at other values it does the same (40_cursor_arithmetic.md R96). -/
def Obligations.ReadsIgnoreModeAndWriteCursor : Prop :=
  ∀ (i : Instr) (sa d : SlotId) (n : Word) (s : State) (lin : Bool) (wc : Word),
    (i = .rdu32 sa ∨ i = .rdf32 sa ∨ i = .rdb sa n ∨ i = .rdbuf sa d) →
    exec i (s.withMode sa lin wc) = mapNext (State.withMode sa lin wc) (exec i s)

/-- A write, WRBUF's writes to its outer slot among them, does not look at the read cursor of its slot
(40_cursor_arithmetic.md R102). -/
def Obligations.WritesIgnoreTheReadCursor : Prop :=
  ∀ (i : Instr) (sa j : SlotId) (v n : Word) (s : State) (rc : Word),
    (i = .wru32 sa v ∨ i = .wrf32 sa v ∨ i = .wrb sa n ∨ i = .wrbuf sa j) →
    exec i (s.withRc sa rc) = mapNext (State.withRc sa rc) (exec i s)

/-- After a read that completes RC is at most CAP; after a write that completes WC is at most CAP, and below it in a
ring of capacity above 4 (10_state.md R15, R16). -/
def Obligations.CompletedTransfersLeaveTheCursorInStorage : Prop :=
  ∀ (i : Instr) (s t : State) (sl : SlotId) (b : Buffer),
    exec i s = .next t → t.fault = false → t.buf sl = some b →
    (i.readsThrough sl = true → b.rc.toNat ≤ b.cap.toNat) ∧
    (i.writesThrough sl = true → b.wc.toNat ≤ b.cap.toNat ∧
      (b.lin = false → 4 < b.cap.toNat → b.wc.toNat < b.cap.toNat))

/-- A value written at the offset the reader stands at is read back, every 32-bit pattern unchanged, as an integer or
as a float, and so is a byte run (41_typed_codec.md R117, R118; an inference the spec marks as derived from R111 to
R116 and R44). -/
def Obligations.WriteThenReadGivesTheValueBack : Prop :=
  ∀ (s : State) (sa : SlotId) (b : Buffer), s.running → s.buf sa = some b → b.rc = b.wc →
    (∀ (v : Word) (w r : Instr), (w = .wru32 sa v ∨ w = .wrf32 sa v) →
      (r = .rdu32 sa ∨ r = .rdf32 sa) → b.wc.toNat + 4 ≤ b.cap.toNat →
      ∃ t u, exec w s = .next t ∧ exec r t = .next u ∧ u.rsp = t.rsp ++ [valueResp v]) ∧
    (∀ n : Word, b.wc.toNat + n.toNat ≤ b.cap.toNat →
      (landsInRing b n.toNat = true → 4 ≤ b.cap.toNat) → n.toNat ≤ s.din.length →
      ∃ t u, exec (.wrb sa n) s = .next t ∧ exec (.rdb sa n) t = .next u ∧
        u.rsp = t.rsp ++ [valueResp n] ∧ u.dout = s.dout ++ s.din.take n.toNat)

/-- A buffer serialized with WRBUF and read back with RDBUF from where it was written comes out with the same
capacity, cursors and bytes, in ring mode whatever its mode was, and LWF 0 (42_nested_buffer.md R137; an inference
the spec marks as derived from R132, R134 and R135, with the conditions it lists). -/
def Obligations.NestedBufferRoundTrip : Prop :=
  ∀ (s : State) (o j d : SlotId) (ob ib : Buffer), s.running → o ≠ j →
    s.buf o = some ob → s.buf j = some ib → d.toNat < s.nslots → s.buf d = none →
    ob.rc = ob.wc → ob.wc.toNat + 12 + ib.cap.toNat ≤ ob.cap.toNat →
    ib.cap.toNat ≤ 1048576 → ib.rc.toNat ≤ 1048576 → ib.wc.toNat ≤ 1048576 →
    ∃ t u c, exec (.wrbuf o j) s = .next t ∧ exec (.rdbuf o d) t = .next u ∧ u.fault = false ∧
      u.buf d = some c ∧ c.cap = ib.cap ∧ c.rc = ib.rc ∧ c.wc = ib.wc ∧ c.lin = false ∧ c.lwf = 0 ∧
      ∀ off, u.peek d off = s.peek j off

/-- A ring buffer of capacity above 4, written always w bytes at a time with w one of 1, 2, 4 and dividing the
capacity, from a write cursor that w divides, goes round for ever: each write completes and leaves such a cursor
(40_cursor_arithmetic.md R105; an inference the spec marks as derived from R97, R98 and R99). -/
def Obligations.AlignedRingWritesGoRoundForEver : Prop :=
  ∀ (s : State) (sa : SlotId) (b : Buffer) (w : Word), s.running → s.buf sa = some b →
    b.lin = false → 4 < b.cap.toNat → w.toNat ∈ [1, 2, 4] → w.toNat ∣ b.cap.toNat →
    b.wc.toNat < b.cap.toNat → w.toNat ∣ b.wc.toNat → w.toNat ≤ s.din.length →
    ∃ t b', exec (.wrb sa w) s = .next t ∧ t.fault = false ∧ t.buf sa = some b' ∧
      b'.lin = false ∧ b'.cap = b.cap ∧ b'.wc.toNat < b.cap.toNat ∧ w.toNat ∣ b'.wc.toNat

/-- Every step keeps the invariant: parameters in range, every Buffer's storage canonical and inside its capacity, no
capacity above CAP_MAX, the status registers zero or a fault's code, every response in R75's format, `busy` off
between steps (10_state.md R10, R13, R14, R21; 20_memory.md R41; 30_encoding.md R75; 60_exceptions.md R160). -/
def Obligations.EveryStepKeepsTheInvariant : Prop :=
  ∀ s t : State, s.Inv → step s = .next t → t.Inv

/-- The state after reset meets the invariant, with the suggested parameters (log entry 1). -/
def Obligations.ResetMeetsTheInvariant : Prop := State.reset.Inv
end

