-- ==== Sys2Proof/Laws/Decode.lean ====
section
/-! SUPPORT. The fields of a packed descriptor, one lemma per field (30_encoding.md R60, R61). -/

namespace Sys2Proof

variable (opc : Byte) (sa sb : SlotId) (f0 : Bool) (w1 w2 w3 : Word)

/-- Bit `j` of a packed descriptor. -/
theorem getLsbD_packDesc (j : Nat) : (packDesc opc sa sb f0 w1 w2 w3).getLsbD j =
    if j < 8 then opc.getLsbD j
    else if j < 12 then sa.getLsbD (j - 8)
    else if j < 16 then sb.getLsbD (j - 12)
    else if j < 17 then f0
    else if j < 32 then false
    else if j < 64 then w1.getLsbD (j - 32)
    else if j < 96 then w2.getLsbD (j - 64)
    else w3.getLsbD (j - 96) := by
  simp only [packDesc, BitVec.getLsbD_append]
  by_cases h32 : j < 32
  · rw [if_pos (by omega)]
    by_cases h8 : j < 8
    · simp only [h8, if_true]
    by_cases h12 : j < 12
    · simp only [h8, h12, if_true, if_false, show j - 8 < 4 by omega]
    by_cases h16 : j < 16
    · simp only [h8, h12, h16, if_true, if_false, show ¬ j - 8 < 4 by omega,
        show j - 8 - 4 = j - 12 by omega, show j - 12 < 4 by omega]
    by_cases h17 : j < 17
    · have h0 : j - 8 - 4 - 4 = 0 := by omega
      simp [h8, h12, h16, h17, show ¬ j - 8 < 4 by omega, show ¬ j - 8 - 4 < 4 by omega, h0]
    · simp [h8, h12, h16, h17, h32, show ¬ j - 8 < 4 by omega, show ¬ j - 8 - 4 < 4 by omega,
        show ¬ j - 8 - 4 - 4 < 1 by omega]
  · rw [if_neg (by omega)]
    simp only [show ¬ j < 8 by omega, show ¬ j < 12 by omega, show ¬ j < 16 by omega,
      show ¬ j < 17 by omega, h32, if_false]
    by_cases h64 : j < 64
    · simp only [h64, if_true, show j - (15 + 1 + 4 + 4 + 8) < 32 by omega,
        show j - (15 + 1 + 4 + 4 + 8) = j - 32 by omega]
    by_cases h96 : j < 96
    · simp only [h64, h96, if_true, if_false, show ¬ j - (15 + 1 + 4 + 4 + 8) < 32 by omega,
        show j - (15 + 1 + 4 + 4 + 8) - 32 = j - 64 by omega, show j - 64 < 32 by omega]
    · simp only [h64, h96, if_false, show ¬ j - (15 + 1 + 4 + 4 + 8) < 32 by omega,
        show ¬ j - (15 + 1 + 4 + 4 + 8) - 32 < 32 by omega,
        show j - (15 + 1 + 4 + 4 + 8) - 32 - 32 = j - 96 by omega]

@[simp] theorem opc_packDesc : (packDesc opc sa sb f0 w1 w2 w3).opc = opc := by
  apply BitVec.eq_of_getLsbD_eq
  intro j hj
  simp only [Desc.opc, BitVec.getLsbD_extractLsb', hj, getLsbD_packDesc, Nat.zero_add, if_true,
    decide_true, Bool.true_and]

@[simp] theorem sa_packDesc : (packDesc opc sa sb f0 w1 w2 w3).sa = sa := by
  apply BitVec.eq_of_getLsbD_eq
  intro j hj
  simp only [Desc.sa, BitVec.getLsbD_extractLsb', hj, getLsbD_packDesc, show ¬ 8 + j < 8 by omega,
    show 8 + j < 12 by omega, show 8 + j - 8 = j by omega, if_true, if_false, decide_true,
    Bool.true_and]

@[simp] theorem sb_packDesc : (packDesc opc sa sb f0 w1 w2 w3).sb = sb := by
  apply BitVec.eq_of_getLsbD_eq
  intro j hj
  simp only [Desc.sb, BitVec.getLsbD_extractLsb', hj, getLsbD_packDesc, show ¬ 12 + j < 8 by omega,
    show ¬ 12 + j < 12 by omega, show 12 + j < 16 by omega, show 12 + j - 12 = j by omega, if_true,
    if_false, decide_true, Bool.true_and]

@[simp] theorem f0_packDesc : (packDesc opc sa sb f0 w1 w2 w3).f0 = f0 := by
  rw [Desc.f0, getLsbD_packDesc]
  rfl

@[simp] theorem rsv_packDesc : (packDesc opc sa sb f0 w1 w2 w3).extractLsb' 17 15 = 0 := by
  apply BitVec.eq_of_getLsbD_eq
  intro j hj
  simp only [BitVec.getLsbD_extractLsb', hj, getLsbD_packDesc, show ¬ 17 + j < 8 by omega,
    show ¬ 17 + j < 12 by omega, show ¬ 17 + j < 16 by omega, show ¬ 17 + j < 17 by omega,
    show 17 + j < 32 by omega, if_true, if_false, Bool.and_false]
  simp

@[simp] theorem w1_packDesc : (packDesc opc sa sb f0 w1 w2 w3).w1 = w1 := by
  apply BitVec.eq_of_getLsbD_eq
  intro j hj
  simp only [Desc.w1, BitVec.getLsbD_extractLsb', hj, getLsbD_packDesc, show ¬ 32 + j < 8 by omega,
    show ¬ 32 + j < 12 by omega, show ¬ 32 + j < 16 by omega, show ¬ 32 + j < 17 by omega,
    show ¬ 32 + j < 32 by omega, show 32 + j < 64 by omega, show 32 + j - 32 = j by omega, if_true,
    if_false, decide_true, Bool.true_and]

@[simp] theorem w2_packDesc : (packDesc opc sa sb f0 w1 w2 w3).w2 = w2 := by
  apply BitVec.eq_of_getLsbD_eq
  intro j hj
  simp only [Desc.w2, BitVec.getLsbD_extractLsb', hj, getLsbD_packDesc, show ¬ 64 + j < 8 by omega,
    show ¬ 64 + j < 12 by omega, show ¬ 64 + j < 16 by omega, show ¬ 64 + j < 17 by omega,
    show ¬ 64 + j < 32 by omega, show ¬ 64 + j < 64 by omega, show 64 + j < 96 by omega,
    show 64 + j - 64 = j by omega, if_true, if_false, decide_true, Bool.true_and]

@[simp] theorem w3_packDesc : (packDesc opc sa sb f0 w1 w2 w3).w3 = w3 := by
  apply BitVec.eq_of_getLsbD_eq
  intro j hj
  simp only [Desc.w3, BitVec.getLsbD_extractLsb', hj, getLsbD_packDesc, show ¬ 96 + j < 8 by omega,
    show ¬ 96 + j < 12 by omega, show ¬ 96 + j < 16 by omega, show ¬ 96 + j < 17 by omega,
    show ¬ 96 + j < 32 by omega, show ¬ 96 + j < 64 by omega, show ¬ 96 + j < 96 by omega,
    show 96 + j - 96 = j by omega, if_false, decide_true, Bool.true_and]

/-- W0 of a packed descriptor: its fields in R61's places. -/
@[simp] theorem w0_packDesc :
    (packDesc opc sa sb f0 w1 w2 w3).w0 = (0 : BitVec 15) ++ BitVec.ofBool f0 ++ sb ++ sa ++ opc := by
  apply BitVec.eq_of_getLsbD_eq
  intro j hj
  simp only [Desc.w0, packDesc, BitVec.getLsbD_extractLsb', hj, Nat.zero_add, decide_true,
    Bool.true_and]
  rw [BitVec.getLsbD_append, if_pos hj]

end Sys2Proof
end

