-- ==== Sys2Proof/Laws/Memory.lean ====
section
/-! SUPPORT. The laws of one slot's storage: reads after writes, the canonical form, and the byte runs. -/

namespace Sys2Proof.Machine

/-! ### The canonical form -/

/-- A canonical array that starts higher is canonical from any lower offset. -/
theorem Memory.wfFrom_mono {m : Memory} {lo lo' : Nat} (h : lo' ≤ lo) (hm : Memory.wfFrom lo m = true) :
    Memory.wfFrom lo' m = true := by
  cases m with
  | nil => rfl
  | cons c m =>
    obtain ⟨k, v⟩ := c
    simp only [Memory.wfFrom, Bool.and_eq_true, decide_eq_true_eq] at hm ⊢
    exact ⟨⟨h.trans hm.1.1, hm.1.2⟩, hm.2⟩

/-- A canonical array reads as background below its first offset. -/
theorem Memory.read_of_lt {m : Memory} {lo a : Nat} (hm : Memory.wfFrom lo m = true) (h : a < lo) :
    m.read a = Memory.background := by
  induction m generalizing lo with
  | nil => rfl
  | cons c m ih =>
    obtain ⟨k, v⟩ := c
    simp only [Memory.wfFrom, Bool.and_eq_true, decide_eq_true_eq] at hm
    have hk : k ≠ a := by omega
    simpa [Memory.read, hk] using ih hm.2 (by omega)

/-- Forgetting an offset keeps the canonical form. -/
theorem Memory.wfFrom_erase {m : Memory} {lo : Nat} (hm : Memory.wfFrom lo m = true) (a : Nat) :
    Memory.wfFrom lo (m.erase a) = true := by
  induction m generalizing lo with
  | nil => rfl
  | cons c m ih =>
    obtain ⟨k, w⟩ := c
    simp only [Memory.wfFrom, Bool.and_eq_true, decide_eq_true_eq] at hm
    obtain ⟨⟨hlo, hw⟩, hm⟩ := hm
    by_cases hk : k = a
    · have : Memory.erase ((k, w) :: m) a = Memory.erase m a := by simp [Memory.erase, hk]
      rw [this]
      exact Memory.wfFrom_mono (by omega) (ih hm)
    · have : Memory.erase ((k, w) :: m) a = (k, w) :: Memory.erase m a := by simp [Memory.erase, hk]
      rw [this]
      simp only [Memory.wfFrom, Bool.and_eq_true, decide_eq_true_eq]
      exact ⟨⟨hlo, hw⟩, ih hm⟩

/-- A forgotten offset is not listed. -/
theorem Memory.not_mem_erase {m : Memory} {a : Nat} {c : Host.Cell} (h : c ∈ m.erase a) :
    c ∈ m ∧ c.1 ≠ a := by
  simpa [Memory.erase] using h

/-- Listing a cell whose offset is not listed keeps the canonical form. -/
theorem Memory.wfFrom_insert {m : Memory} {lo a : Nat} {v : Byte} (hm : Memory.wfFrom lo m = true)
    (h : lo ≤ a) (hv : v ≠ Memory.background) (hn : ∀ c ∈ m, c.1 ≠ a) :
    Memory.wfFrom lo (m.insert a v) = true := by
  induction m generalizing lo with
  | nil => simp [Memory.insert, Memory.wfFrom, h, hv]
  | cons c m ih =>
    obtain ⟨k, w⟩ := c
    simp only [Memory.wfFrom, Bool.and_eq_true, decide_eq_true_eq] at hm
    obtain ⟨⟨hlo, hw⟩, hm⟩ := hm
    have hk : k ≠ a := hn (k, w) List.mem_cons_self
    simp only [Memory.insert]
    split_ifs with h1
    · simp only [Memory.wfFrom, Bool.and_eq_true, decide_eq_true_eq]
      exact ⟨⟨h, hv⟩, ⟨by omega, hw⟩, hm⟩
    · simp only [Memory.wfFrom, Bool.and_eq_true, decide_eq_true_eq]
      exact ⟨⟨hlo, hw⟩, ih hm (by omega) fun c hc => hn c (List.mem_cons_of_mem _ hc)⟩

/-- A write keeps the canonical form. -/
theorem Memory.wfFrom_write {m : Memory} {lo a : Nat} {v : Byte} (hm : Memory.wfFrom lo m = true)
    (h : lo ≤ a) : Memory.wfFrom lo (m.write a v) = true := by
  simp only [Memory.write]
  split_ifs with hv
  · exact Memory.wfFrom_erase hm a
  · exact Memory.wfFrom_insert (Memory.wfFrom_erase hm a) h hv fun c hc => (Memory.not_mem_erase hc).2

/-- A write keeps the canonical form. -/
theorem Memory.wf_write {m : Memory} (hm : m.wf = true) (a : Nat) (v : Byte) : (m.write a v).wf = true :=
  Memory.wfFrom_write hm (Nat.zero_le a)

/-- MemWrite keeps the canonical form. -/
theorem Memory.wf_memWrite {m : Memory} (hm : m.wf = true) (off : Nat) (bs : List Byte) :
    (memWrite m off bs).wf = true := by
  induction bs generalizing m off with
  | nil => exact hm
  | cons b bs ih => exact ih (Memory.wf_write hm off b) (off + 1)

/-- A freshly filled array is canonical. -/
theorem Memory.wf_ofBytes (bs : List Byte) : (Memory.ofBytes bs).wf = true :=
  Memory.wf_memWrite rfl 0 bs

/-! ### Which offsets are listed -/

/-- An inserted cell is the only new one. -/
theorem Memory.mem_insert {m : Memory} {a : Nat} {v : Byte} {c : Host.Cell} (h : c ∈ m.insert a v) :
    c ∈ m ∨ c.1 = a := by
  induction m with
  | nil =>
    simp only [Memory.insert, List.mem_singleton] at h
    exact .inr (by rw [h])
  | cons d m ih =>
    obtain ⟨k, w⟩ := d
    simp only [Memory.insert] at h
    split_ifs at h with h1
    · rcases List.mem_cons.1 h with rfl | h
      · exact .inr rfl
      · exact .inl h
    · rcases List.mem_cons.1 h with rfl | h
      · exact .inl List.mem_cons_self
      · exact (ih h).imp (List.mem_cons_of_mem _) id

/-- A write lists no offset but those listed before and its own. -/
theorem Memory.mem_write {m : Memory} {a : Nat} {v : Byte} {c : Host.Cell} (h : c ∈ m.write a v) :
    c ∈ m ∨ c.1 = a := by
  simp only [Memory.write] at h
  split_ifs at h with hv
  · exact .inl (Memory.not_mem_erase h).1
  · exact (Memory.mem_insert h).imp (fun h => (Memory.not_mem_erase h).1) id

/-- MemWrite lists no offset outside its region but those listed before. -/
theorem Memory.mem_memWrite {m : Memory} {off : Nat} {bs : List Byte} {c : Host.Cell}
    (h : c ∈ memWrite m off bs) : c ∈ m ∨ (off ≤ c.1 ∧ c.1 < off + bs.length) := by
  induction bs generalizing m off with
  | nil => exact .inl h
  | cons b bs ih =>
    rcases ih h with h | h
    · rcases Memory.mem_write h with h | h
      · exact .inl h
      · exact .inr (by simp only [List.length_cons]; omega)
    · exact .inr (by simp only [List.length_cons]; omega)

/-- Inside the capacity, MemWrite lists offsets below the capacity only. -/
theorem Memory.bound_memWrite {m : Memory} {off cap : Nat} {bs : List Byte}
    (hm : ∀ c ∈ m, c.1 < cap) (h : off + bs.length ≤ cap) : ∀ c ∈ memWrite m off bs, c.1 < cap := by
  intro c hc
  rcases Memory.mem_memWrite hc with hc | hc
  · exact hm c hc
  · omega

/-! ### Reads after writes -/

/-- An array reads as background at an offset it does not list. -/
theorem Memory.read_of_not_listed {m : Memory} {a : Nat} (h : ∀ c ∈ m, c.1 ≠ a) :
    m.read a = Memory.background := by
  induction m with
  | nil => rfl
  | cons c m ih =>
    obtain ⟨k, w⟩ := c
    have hk : k ≠ a := h (k, w) List.mem_cons_self
    simpa [Memory.read, hk] using ih fun c hc => h c (List.mem_cons_of_mem _ hc)

/-- Forgetting an offset leaves the others alone. -/
theorem Memory.read_erase_ne {m : Memory} {a a' : Nat} (h : a' ≠ a) : (m.erase a).read a' = m.read a' := by
  induction m with
  | nil => rfl
  | cons c m ih =>
    obtain ⟨k, w⟩ := c
    by_cases hk : k = a
    · have he : Memory.erase ((k, w) :: m) a = Memory.erase m a := by simp [Memory.erase, hk]
      have hk' : k ≠ a' := fun e => h (e.symm.trans hk)
      rw [he, ih, Memory.read, if_neg hk']
    · have he : Memory.erase ((k, w) :: m) a = (k, w) :: Memory.erase m a := by simp [Memory.erase, hk]
      rw [he, Memory.read, Memory.read, ih]

/-- Reading through an inserted cell. -/
theorem Memory.read_insert {m : Memory} {a : Nat} (h : ∀ c ∈ m, c.1 ≠ a) (v : Byte) (a' : Nat) :
    (m.insert a v).read a' = if a' = a then v else m.read a' := by
  induction m with
  | nil =>
    by_cases ha : a' = a
    · simp [Memory.insert, Memory.read, ha]
    · simp [Memory.insert, Memory.read, ha, Ne.symm ha]
  | cons c m ih =>
    obtain ⟨k, w⟩ := c
    have hk : k ≠ a := h (k, w) List.mem_cons_self
    have ih := ih fun c hc => h c (List.mem_cons_of_mem _ hc)
    simp only [Memory.insert]
    split_ifs with h1 h2 h2
    · simp [Memory.read, h2]
    · simp [Memory.read, Ne.symm h2]
    · subst h2
      rw [Memory.read, if_neg hk, ih, if_pos rfl]
    · rw [Memory.read, Memory.read, ih, if_neg h2]

/-- What each offset reads as after a write of one byte. -/
theorem Memory.read_write (m : Memory) (a : Nat) (v : Byte) (a' : Nat) :
    (m.write a v).read a' = if a' = a then v else m.read a' := by
  have hn : ∀ c ∈ m.erase a, c.1 ≠ a := fun c hc => (Memory.not_mem_erase hc).2
  simp only [Memory.write]
  split_ifs with hv h h
  · rw [h, Memory.read_of_not_listed hn, hv]
  · exact Memory.read_erase_ne h
  · rw [Memory.read_insert hn, if_pos h]
  · rw [Memory.read_insert hn, if_neg h, Memory.read_erase_ne h]

/-- What each offset reads as after MemWrite (20_memory.md R47). -/
theorem Memory.filled_memWrite (m : Memory) (off : Nat) (bs : List Byte) :
    Filled m (memWrite m off bs) off bs := by
  induction bs generalizing m off with
  | nil => intro a; simp only [memWrite, List.length_nil]; split <;> first | omega | rfl
  | cons b bs ih =>
    intro a
    rw [memWrite, ih (m.write off b) (off + 1) a, Memory.read_write]
    by_cases h0 : a = off
    · subst h0
      simp
    · rw [if_neg h0]
      by_cases h1 : off ≤ a ∧ a < off + (b :: bs).length
      · have h2 : off + 1 ≤ a ∧ a < off + 1 + bs.length := by
          simp only [List.length_cons] at h1; omega
        have h3 : a - off = (a - (off + 1)) + 1 := by omega
        simp only [h1, h2, h3, and_self, if_true, List.getD_cons_succ]
      · have h2 : ¬ (off + 1 ≤ a ∧ a < off + 1 + bs.length) := by
          simp only [List.length_cons] at h1; omega
        simp only [h1, h2, if_false]

/-- What each offset reads as after a slot is filled (43_lifecycle_bulk.md R142). -/
theorem Memory.read_ofBytes (bs : List Byte) (a : Nat) : (Memory.ofBytes bs).read a = bs.getD a 0 := by
  have h := Memory.filled_memWrite [] 0 bs a
  rw [Memory.ofBytes, h]
  by_cases ha : a < bs.length
  · simp [ha]
  · simp [ha, Memory.read, Memory.background]

/-- Canonical arrays that read the same everywhere are the same data. -/
theorem Memory.ext_of_wf {m m' : Memory} (hm : m.wf = true) (hm' : m'.wf = true)
    (h : ∀ a, m.read a = m'.read a) : m = m' := by
  suffices H : ∀ lo, Memory.wfFrom lo m = true → Memory.wfFrom lo m' = true → m = m' from H 0 hm hm'
  clear hm hm'
  induction m generalizing m' with
  | nil =>
    intro lo _ hm'
    cases m' with
    | nil => rfl
    | cons c m' =>
      obtain ⟨k, v⟩ := c
      simp only [Memory.wfFrom, Bool.and_eq_true, decide_eq_true_eq] at hm'
      exact absurd (by simpa [Memory.read] using (h k).symm) hm'.1.2
  | cons c m ih =>
    obtain ⟨k, v⟩ := c
    intro lo hm hm'
    cases m' with
    | nil =>
      simp only [Memory.wfFrom, Bool.and_eq_true, decide_eq_true_eq] at hm
      exact absurd (by simpa [Memory.read] using h k) hm.1.2
    | cons c' m' =>
      obtain ⟨k', v'⟩ := c'
      simp only [Memory.wfFrom, Bool.and_eq_true, decide_eq_true_eq] at hm hm'
      have hk : k = k' := by
        rcases Nat.lt_trichotomy k k' with hlt | heq | hgt
        · have := h k
          rw [Memory.read, if_pos rfl, Memory.read, if_neg (by omega),
            Memory.read_of_lt hm'.2 (by omega)] at this
          exact absurd this hm.1.2
        · exact heq
        · have := h k'
          rw [Memory.read, if_neg (by omega), Memory.read, if_pos rfl,
            Memory.read_of_lt hm.2 (by omega)] at this
          exact absurd this.symm hm'.1.2
      subst hk
      have hv : v = v' := by simpa [Memory.read] using h k
      subst hv
      have ht : ∀ a, Memory.read m a = Memory.read m' a := by
        intro a
        by_cases ha : k = a
        · subst ha
          rw [Memory.read_of_lt hm.2 (by omega), Memory.read_of_lt hm'.2 (by omega)]
        · simpa [Memory.read, ha] using h a
      rw [ih ht (k + 1) hm.2 hm'.2]

/-! ### Byte runs -/

@[simp] theorem length_memRead (m : Memory) (off n : Nat) : (memRead m off n).length = n := by
  induction n generalizing off with
  | zero => rfl
  | succ n ih => simp [memRead, ih]

/-- MemRead, byte by byte (20_memory.md R47). -/
theorem memRead_eq_map (m : Memory) (off n : Nat) :
    memRead m off n = (List.range n).map fun k => m.read (off + k) := by
  induction n generalizing off with
  | zero => rfl
  | succ n ih =>
    rw [memRead, ih, List.range_succ_eq_map, List.map_cons, List.map_map]
    simp [Function.comp_def, Nat.add_assoc, Nat.add_comm 1]

/-- The first bytes of storage are MemRead from offset 0. -/
theorem firstBytes_eq_memRead (b : Buffer) (n : Nat) : firstBytes b n = memRead b.store 0 n := by
  simp [firstBytes, memRead_eq_map]

end Sys2Proof.Machine
end

