-- ==== Sys2Proof/Laws/State.lean ====
section
/-! SUPPORT. One lemma per field per update of State, true by rfl, the lemmas of the slot file, and everything a step
can do. -/

namespace Sys2Proof.Machine

/-! ### setBuf -/

@[simp] theorem State.setBuf_slots (s : State) (sl : SlotId) (b : Buffer) :
    (s.setBuf sl b).slots = s.slots.set sl.toNat (some b) := rfl
@[simp] theorem State.setBuf_fault (s : State) (sl : SlotId) (b : Buffer) :
    (s.setBuf sl b).fault = s.fault := rfl
@[simp] theorem State.setBuf_fcode (s : State) (sl : SlotId) (b : Buffer) :
    (s.setBuf sl b).fcode = s.fcode := rfl
@[simp] theorem State.setBuf_fopc (s : State) (sl : SlotId) (b : Buffer) :
    (s.setBuf sl b).fopc = s.fopc := rfl
@[simp] theorem State.setBuf_fslot (s : State) (sl : SlotId) (b : Buffer) :
    (s.setBuf sl b).fslot = s.fslot := rfl
@[simp] theorem State.setBuf_busy (s : State) (sl : SlotId) (b : Buffer) :
    (s.setBuf sl b).busy = s.busy := rfl
@[simp] theorem State.setBuf_din (s : State) (sl : SlotId) (b : Buffer) :
    (s.setBuf sl b).din = s.din := rfl
@[simp] theorem State.setBuf_dout (s : State) (sl : SlotId) (b : Buffer) :
    (s.setBuf sl b).dout = s.dout := rfl
@[simp] theorem State.setBuf_rsp (s : State) (sl : SlotId) (b : Buffer) :
    (s.setBuf sl b).rsp = s.rsp := rfl
@[simp] theorem State.setBuf_ioErr (s : State) (sl : SlotId) (b : Buffer) :
    (s.setBuf sl b).ioErr = s.ioErr := rfl
@[simp] theorem State.setBuf_host (s : State) (sl : SlotId) (b : Buffer) :
    (s.setBuf sl b).host = s.host := rfl
@[simp] theorem State.setBuf_pc (s : State) (sl : SlotId) (b : Buffer) :
    (s.setBuf sl b).pc = s.pc := rfl
@[simp] theorem State.setBuf_capMax (s : State) (sl : SlotId) (b : Buffer) :
    (s.setBuf sl b).capMax = s.capMax := rfl
@[simp] theorem State.setBuf_freeCount (s : State) (sl : SlotId) (b : Buffer) :
    (s.setBuf sl b).freeCount = s.freeCount := rfl

/-! ### release -/

@[simp] theorem State.release_slots (s : State) (sl : SlotId) :
    (s.release sl).slots = s.slots.set sl.toNat none := rfl
@[simp] theorem State.release_fault (s : State) (sl : SlotId) :
    (s.release sl).fault = s.fault := rfl
@[simp] theorem State.release_fcode (s : State) (sl : SlotId) :
    (s.release sl).fcode = s.fcode := rfl
@[simp] theorem State.release_fopc (s : State) (sl : SlotId) :
    (s.release sl).fopc = s.fopc := rfl
@[simp] theorem State.release_fslot (s : State) (sl : SlotId) :
    (s.release sl).fslot = s.fslot := rfl
@[simp] theorem State.release_busy (s : State) (sl : SlotId) :
    (s.release sl).busy = s.busy := rfl
@[simp] theorem State.release_din (s : State) (sl : SlotId) :
    (s.release sl).din = s.din := rfl
@[simp] theorem State.release_dout (s : State) (sl : SlotId) :
    (s.release sl).dout = s.dout := rfl
@[simp] theorem State.release_rsp (s : State) (sl : SlotId) :
    (s.release sl).rsp = s.rsp := rfl
@[simp] theorem State.release_ioErr (s : State) (sl : SlotId) :
    (s.release sl).ioErr = s.ioErr := rfl
@[simp] theorem State.release_host (s : State) (sl : SlotId) :
    (s.release sl).host = s.host := rfl
@[simp] theorem State.release_pc (s : State) (sl : SlotId) :
    (s.release sl).pc = s.pc := rfl
@[simp] theorem State.release_capMax (s : State) (sl : SlotId) :
    (s.release sl).capMax = s.capMax := rfl
@[simp] theorem State.release_freeCount (s : State) (sl : SlotId) :
    (s.release sl).freeCount = s.freeCount := rfl

/-! ### emit -/

@[simp] theorem State.emit_slots (s : State) (bs : List Byte) :
    (s.emit bs).slots = s.slots := rfl
@[simp] theorem State.emit_fault (s : State) (bs : List Byte) :
    (s.emit bs).fault = s.fault := rfl
@[simp] theorem State.emit_fcode (s : State) (bs : List Byte) :
    (s.emit bs).fcode = s.fcode := rfl
@[simp] theorem State.emit_fopc (s : State) (bs : List Byte) :
    (s.emit bs).fopc = s.fopc := rfl
@[simp] theorem State.emit_fslot (s : State) (bs : List Byte) :
    (s.emit bs).fslot = s.fslot := rfl
@[simp] theorem State.emit_busy (s : State) (bs : List Byte) :
    (s.emit bs).busy = s.busy := rfl
@[simp] theorem State.emit_din (s : State) (bs : List Byte) :
    (s.emit bs).din = s.din := rfl
@[simp] theorem State.emit_dout (s : State) (bs : List Byte) :
    (s.emit bs).dout = s.dout ++ bs := rfl
@[simp] theorem State.emit_rsp (s : State) (bs : List Byte) :
    (s.emit bs).rsp = s.rsp := rfl
@[simp] theorem State.emit_ioErr (s : State) (bs : List Byte) :
    (s.emit bs).ioErr = s.ioErr := rfl
@[simp] theorem State.emit_host (s : State) (bs : List Byte) :
    (s.emit bs).host = s.host := rfl
@[simp] theorem State.emit_pc (s : State) (bs : List Byte) :
    (s.emit bs).pc = s.pc := rfl
@[simp] theorem State.emit_capMax (s : State) (bs : List Byte) :
    (s.emit bs).capMax = s.capMax := rfl
@[simp] theorem State.emit_freeCount (s : State) (bs : List Byte) :
    (s.emit bs).freeCount = s.freeCount := rfl

/-! ### dropDin -/

@[simp] theorem State.dropDin_slots (s : State) (n : Nat) :
    (s.dropDin n).slots = s.slots := rfl
@[simp] theorem State.dropDin_fault (s : State) (n : Nat) :
    (s.dropDin n).fault = s.fault := rfl
@[simp] theorem State.dropDin_fcode (s : State) (n : Nat) :
    (s.dropDin n).fcode = s.fcode := rfl
@[simp] theorem State.dropDin_fopc (s : State) (n : Nat) :
    (s.dropDin n).fopc = s.fopc := rfl
@[simp] theorem State.dropDin_fslot (s : State) (n : Nat) :
    (s.dropDin n).fslot = s.fslot := rfl
@[simp] theorem State.dropDin_busy (s : State) (n : Nat) :
    (s.dropDin n).busy = s.busy := rfl
@[simp] theorem State.dropDin_din (s : State) (n : Nat) :
    (s.dropDin n).din = s.din.drop n := rfl
@[simp] theorem State.dropDin_dout (s : State) (n : Nat) :
    (s.dropDin n).dout = s.dout := rfl
@[simp] theorem State.dropDin_rsp (s : State) (n : Nat) :
    (s.dropDin n).rsp = s.rsp := rfl
@[simp] theorem State.dropDin_ioErr (s : State) (n : Nat) :
    (s.dropDin n).ioErr = s.ioErr := rfl
@[simp] theorem State.dropDin_host (s : State) (n : Nat) :
    (s.dropDin n).host = s.host := rfl
@[simp] theorem State.dropDin_pc (s : State) (n : Nat) :
    (s.dropDin n).pc = s.pc := rfl
@[simp] theorem State.dropDin_capMax (s : State) (n : Nat) :
    (s.dropDin n).capMax = s.capMax := rfl
@[simp] theorem State.dropDin_freeCount (s : State) (n : Nat) :
    (s.dropDin n).freeCount = s.freeCount := rfl

/-! ### countFree -/

@[simp] theorem State.countFree_slots (s : State) :
    s.countFree.slots = s.slots := rfl
@[simp] theorem State.countFree_fault (s : State) :
    s.countFree.fault = s.fault := rfl
@[simp] theorem State.countFree_fcode (s : State) :
    s.countFree.fcode = s.fcode := rfl
@[simp] theorem State.countFree_fopc (s : State) :
    s.countFree.fopc = s.fopc := rfl
@[simp] theorem State.countFree_fslot (s : State) :
    s.countFree.fslot = s.fslot := rfl
@[simp] theorem State.countFree_busy (s : State) :
    s.countFree.busy = s.busy := rfl
@[simp] theorem State.countFree_din (s : State) :
    s.countFree.din = s.din := rfl
@[simp] theorem State.countFree_dout (s : State) :
    s.countFree.dout = s.dout := rfl
@[simp] theorem State.countFree_rsp (s : State) :
    s.countFree.rsp = s.rsp := rfl
@[simp] theorem State.countFree_ioErr (s : State) :
    s.countFree.ioErr = s.ioErr := rfl
@[simp] theorem State.countFree_host (s : State) :
    s.countFree.host = s.host := rfl
@[simp] theorem State.countFree_pc (s : State) :
    s.countFree.pc = s.pc := rfl
@[simp] theorem State.countFree_capMax (s : State) :
    s.countFree.capMax = s.capMax := rfl
@[simp] theorem State.countFree_freeCount (s : State) :
    s.countFree.freeCount = s.freeCount + 1 := rfl

/-! ### respond -/

@[simp] theorem State.respond_slots (s : State) (w : Resp) :
    (s.respond w).slots = s.slots := rfl
@[simp] theorem State.respond_fault (s : State) (w : Resp) :
    (s.respond w).fault = s.fault := rfl
@[simp] theorem State.respond_fcode (s : State) (w : Resp) :
    (s.respond w).fcode = s.fcode := rfl
@[simp] theorem State.respond_fopc (s : State) (w : Resp) :
    (s.respond w).fopc = s.fopc := rfl
@[simp] theorem State.respond_fslot (s : State) (w : Resp) :
    (s.respond w).fslot = s.fslot := rfl
@[simp] theorem State.respond_busy (s : State) (w : Resp) :
    (s.respond w).busy = s.busy := rfl
@[simp] theorem State.respond_din (s : State) (w : Resp) :
    (s.respond w).din = s.din := rfl
@[simp] theorem State.respond_dout (s : State) (w : Resp) :
    (s.respond w).dout = s.dout := rfl
@[simp] theorem State.respond_rsp (s : State) (w : Resp) :
    (s.respond w).rsp = s.rsp ++ [w] := rfl
@[simp] theorem State.respond_ioErr (s : State) (w : Resp) :
    (s.respond w).ioErr = s.ioErr := rfl
@[simp] theorem State.respond_host (s : State) (w : Resp) :
    (s.respond w).host = s.host := rfl
@[simp] theorem State.respond_pc (s : State) (w : Resp) :
    (s.respond w).pc = s.pc := rfl
@[simp] theorem State.respond_capMax (s : State) (w : Resp) :
    (s.respond w).capMax = s.capMax := rfl
@[simp] theorem State.respond_freeCount (s : State) (w : Resp) :
    (s.respond w).freeCount = s.freeCount := rfl

/-! ### enterFault -/

@[simp] theorem State.enterFault_slots (s : State) (k : FaultKind) (opc : Byte) (sl : SlotId) :
    (s.enterFault k opc sl).slots = s.slots := rfl
@[simp] theorem State.enterFault_fault (s : State) (k : FaultKind) (opc : Byte) (sl : SlotId) :
    (s.enterFault k opc sl).fault = true := rfl
@[simp] theorem State.enterFault_fcode (s : State) (k : FaultKind) (opc : Byte) (sl : SlotId) :
    (s.enterFault k opc sl).fcode = k.code := rfl
@[simp] theorem State.enterFault_fopc (s : State) (k : FaultKind) (opc : Byte) (sl : SlotId) :
    (s.enterFault k opc sl).fopc = opc := rfl
@[simp] theorem State.enterFault_fslot (s : State) (k : FaultKind) (opc : Byte) (sl : SlotId) :
    (s.enterFault k opc sl).fslot = sl := rfl
@[simp] theorem State.enterFault_busy (s : State) (k : FaultKind) (opc : Byte) (sl : SlotId) :
    (s.enterFault k opc sl).busy = s.busy := rfl
@[simp] theorem State.enterFault_din (s : State) (k : FaultKind) (opc : Byte) (sl : SlotId) :
    (s.enterFault k opc sl).din = s.din := rfl
@[simp] theorem State.enterFault_dout (s : State) (k : FaultKind) (opc : Byte) (sl : SlotId) :
    (s.enterFault k opc sl).dout = s.dout := rfl
@[simp] theorem State.enterFault_rsp (s : State) (k : FaultKind) (opc : Byte) (sl : SlotId) :
    (s.enterFault k opc sl).rsp = s.rsp ++ [codeWord k.code] := rfl
@[simp] theorem State.enterFault_ioErr (s : State) (k : FaultKind) (opc : Byte) (sl : SlotId) :
    (s.enterFault k opc sl).ioErr = s.ioErr := rfl
@[simp] theorem State.enterFault_host (s : State) (k : FaultKind) (opc : Byte) (sl : SlotId) :
    (s.enterFault k opc sl).host = s.host := rfl
@[simp] theorem State.enterFault_pc (s : State) (k : FaultKind) (opc : Byte) (sl : SlotId) :
    (s.enterFault k opc sl).pc = s.pc := rfl
@[simp] theorem State.enterFault_capMax (s : State) (k : FaultKind) (opc : Byte) (sl : SlotId) :
    (s.enterFault k opc sl).capMax = s.capMax := rfl
@[simp] theorem State.enterFault_freeCount (s : State) (k : FaultKind) (opc : Byte) (sl : SlotId) :
    (s.enterFault k opc sl).freeCount = s.freeCount := rfl

/-! ### takeResponse -/

@[simp] theorem State.takeResponse_slots (s : State) :
    s.takeResponse.slots = s.slots := rfl
@[simp] theorem State.takeResponse_fault (s : State) :
    s.takeResponse.fault = s.fault := rfl
@[simp] theorem State.takeResponse_fcode (s : State) :
    s.takeResponse.fcode = s.fcode := rfl
@[simp] theorem State.takeResponse_fopc (s : State) :
    s.takeResponse.fopc = s.fopc := rfl
@[simp] theorem State.takeResponse_fslot (s : State) :
    s.takeResponse.fslot = s.fslot := rfl
@[simp] theorem State.takeResponse_busy (s : State) :
    s.takeResponse.busy = false := rfl
@[simp] theorem State.takeResponse_din (s : State) :
    s.takeResponse.din = s.din := rfl
@[simp] theorem State.takeResponse_dout (s : State) :
    s.takeResponse.dout = s.dout := rfl
@[simp] theorem State.takeResponse_rsp (s : State) :
    s.takeResponse.rsp = s.rsp := rfl
@[simp] theorem State.takeResponse_ioErr (s : State) :
    s.takeResponse.ioErr = s.ioErr := rfl
@[simp] theorem State.takeResponse_host (s : State) :
    s.takeResponse.host = s.host := rfl
@[simp] theorem State.takeResponse_pc (s : State) :
    s.takeResponse.pc = s.pc := rfl
@[simp] theorem State.takeResponse_capMax (s : State) :
    s.takeResponse.capMax = s.capMax := rfl
@[simp] theorem State.takeResponse_freeCount (s : State) :
    s.takeResponse.freeCount = s.freeCount := rfl

/-! ### accept -/

@[simp] theorem State.accept_slots (s : State) (r : Request) (rest : List HostEvent) :
    (s.accept r rest).slots = s.slots := rfl
@[simp] theorem State.accept_fault (s : State) (r : Request) (rest : List HostEvent) :
    (s.accept r rest).fault = s.fault := rfl
@[simp] theorem State.accept_fcode (s : State) (r : Request) (rest : List HostEvent) :
    (s.accept r rest).fcode = s.fcode := rfl
@[simp] theorem State.accept_fopc (s : State) (r : Request) (rest : List HostEvent) :
    (s.accept r rest).fopc = s.fopc := rfl
@[simp] theorem State.accept_fslot (s : State) (r : Request) (rest : List HostEvent) :
    (s.accept r rest).fslot = s.fslot := rfl
@[simp] theorem State.accept_busy (s : State) (r : Request) (rest : List HostEvent) :
    (s.accept r rest).busy = true := rfl
@[simp] theorem State.accept_din (s : State) (r : Request) (rest : List HostEvent) :
    (s.accept r rest).din = s.din ++ r.supplied := rfl
@[simp] theorem State.accept_dout (s : State) (r : Request) (rest : List HostEvent) :
    (s.accept r rest).dout = s.dout := rfl
@[simp] theorem State.accept_rsp (s : State) (r : Request) (rest : List HostEvent) :
    (s.accept r rest).rsp = s.rsp := rfl
@[simp] theorem State.accept_ioErr (s : State) (r : Request) (rest : List HostEvent) :
    (s.accept r rest).ioErr = r.ioErr := rfl
@[simp] theorem State.accept_host (s : State) (r : Request) (rest : List HostEvent) :
    (s.accept r rest).host = rest := rfl
@[simp] theorem State.accept_pc (s : State) (r : Request) (rest : List HostEvent) :
    (s.accept r rest).pc = s.pc + 1 := rfl
@[simp] theorem State.accept_capMax (s : State) (r : Request) (rest : List HostEvent) :
    (s.accept r rest).capMax = s.capMax := rfl
@[simp] theorem State.accept_freeCount (s : State) (r : Request) (rest : List HostEvent) :
    (s.accept r rest).freeCount = s.freeCount := rfl

/-! ### applyReset -/

@[simp] theorem State.applyReset_slots (s : State) :
    s.applyReset.slots = List.replicate s.nslots none := rfl
@[simp] theorem State.applyReset_fault (s : State) :
    s.applyReset.fault = false := rfl
@[simp] theorem State.applyReset_fcode (s : State) :
    s.applyReset.fcode = 0 := rfl
@[simp] theorem State.applyReset_fopc (s : State) :
    s.applyReset.fopc = 0 := rfl
@[simp] theorem State.applyReset_fslot (s : State) :
    s.applyReset.fslot = 0 := rfl
@[simp] theorem State.applyReset_busy (s : State) :
    s.applyReset.busy = false := rfl
@[simp] theorem State.applyReset_din (s : State) :
    s.applyReset.din = [] := rfl
@[simp] theorem State.applyReset_dout (s : State) :
    s.applyReset.dout = [] := rfl
@[simp] theorem State.applyReset_rsp (s : State) :
    s.applyReset.rsp = [] := rfl
@[simp] theorem State.applyReset_ioErr (s : State) :
    s.applyReset.ioErr = false := rfl
@[simp] theorem State.applyReset_host (s : State) :
    s.applyReset.host = s.host := rfl
@[simp] theorem State.applyReset_pc (s : State) :
    s.applyReset.pc = s.pc := rfl
@[simp] theorem State.applyReset_capMax (s : State) :
    s.applyReset.capMax = s.capMax := rfl
@[simp] theorem State.applyReset_freeCount (s : State) :
    s.applyReset.freeCount = s.freeCount := rfl

/-! ### How a command ends on the host's side -/

@[simp] theorem endCommand_next (t u : State) : endCommand t (.next u) = .next u.takeResponse := rfl

/-- A command that has a successor was answered and its response taken, or waited and was ended by `rst`. -/
theorem endCommand_eq_next {t v : State} {o : Host.Outcome State Fault Refusal} (h : endCommand t o = .next v) :
    (∃ u, o = .next u ∧ v = u.takeResponse) ∨
    ∃ f rest, o = .fault f ∧ t.host = .rst :: rest ∧ v = ({ t with host := rest } : State).applyReset := by
  cases o with
  | next u => cases h; exact .inl ⟨u, rfl, rfl⟩
  | refused r => cases h
  | fault f =>
    simp only [endCommand] at h
    split at h
    · rename_i rest hr; cases h; exact .inr ⟨f, rest, rfl, hr, rfl⟩
    · cases h

/-- Everything a step can do: idle, reset, end a waiting command by `rst`, run a command, or refuse an illegal
descriptor. -/
theorem step_cases {s t : State} (h : step s = .next t) :
    (s.host = [] ∧ t = s) ∨
    (∃ rest, s.host = .rst :: rest ∧ t = ({ s with host := rest } : State).applyReset) ∨
    ∃ r rest, s.host = .issue r :: rest ∧
      ((∃ rest', rest = .rst :: rest' ∧ t = ({ s.accept r rest with host := rest' } : State).applyReset) ∨
       (∃ i u, decode r.desc = .ok i ∧ exec i (s.accept r rest) = .next u ∧ t = u.takeResponse) ∨
       ∃ e, decode r.desc = .error e ∧ t = (illegalCommand r.desc (s.accept r rest)).takeResponse) := by
  simp only [step, fetch] at h
  cases hh : s.host with
  | nil => simp only [hh] at h; cases h; exact .inl ⟨rfl, rfl⟩
  | cons ev rest =>
    cases ev with
    | rst => simp only [hh] at h; cases h; exact .inr (.inl ⟨rest, rfl, rfl⟩)
    | issue r =>
      refine .inr (.inr ⟨r, rest, rfl, ?_⟩)
      simp only [hh] at h
      cases ha : r.accepts with
      | false =>
        simp only [ha] at h
        obtain ⟨u, hu, -⟩ | ⟨_, rest', -, hr, ht⟩ := endCommand_eq_next h
        · cases hu
        · exact .inl ⟨rest', hr, ht⟩
      | true =>
        simp only [ha, if_true] at h
        cases hd : decode r.desc with
        | ok i =>
          simp only [hd] at h
          obtain ⟨u, hu, ht⟩ | ⟨_, rest', -, hr, ht⟩ := endCommand_eq_next h
          · exact .inr (.inl ⟨i, u, rfl, hu, ht⟩)
          · exact .inl ⟨rest', hr, ht⟩
        | error e => simp only [hd] at h; cases h; exact .inr (.inr ⟨e, rfl, rfl⟩)

/-! ### The number of slots -/

@[simp] theorem State.nslots_setBuf (s : State) (sl : SlotId) (b : Buffer) :
    (s.setBuf sl b).nslots = s.nslots := by simp [State.nslots]
@[simp] theorem State.nslots_release (s : State) (sl : SlotId) :
    (s.release sl).nslots = s.nslots := by simp [State.nslots]
@[simp] theorem State.nslots_emit (s : State) (bs : List Byte) : (s.emit bs).nslots = s.nslots := rfl
@[simp] theorem State.nslots_dropDin (s : State) (n : Nat) : (s.dropDin n).nslots = s.nslots := rfl
@[simp] theorem State.nslots_countFree (s : State) : s.countFree.nslots = s.nslots := rfl
@[simp] theorem State.nslots_respond (s : State) (w : Resp) : (s.respond w).nslots = s.nslots := rfl
@[simp] theorem State.nslots_takeResponse (s : State) : s.takeResponse.nslots = s.nslots := rfl
@[simp] theorem State.nslots_enterFault (s : State) (k : FaultKind) (opc : Byte) (sl : SlotId) :
    (s.enterFault k opc sl).nslots = s.nslots := rfl
@[simp] theorem State.nslots_accept (s : State) (r : Request) (rest : List HostEvent) :
    (s.accept r rest).nslots = s.nslots := rfl
@[simp] theorem State.nslots_applyReset (s : State) : s.applyReset.nslots = s.nslots := by
  simp [State.nslots]

/-! ### Reading a slot -/

/-- Two states with the same slot file hold the same Buffers. -/
theorem State.buf_congr {s t : State} (h : t.slots = s.slots) (sl : SlotId) : t.buf sl = s.buf sl := by
  simp [State.buf, h]

@[simp] theorem State.buf_emit (s : State) (bs : List Byte) (sl : SlotId) :
    (s.emit bs).buf sl = s.buf sl := rfl
@[simp] theorem State.buf_dropDin (s : State) (n : Nat) (sl : SlotId) :
    (s.dropDin n).buf sl = s.buf sl := rfl
@[simp] theorem State.buf_countFree (s : State) (sl : SlotId) : s.countFree.buf sl = s.buf sl := rfl
@[simp] theorem State.buf_respond (s : State) (w : Resp) (sl : SlotId) :
    (s.respond w).buf sl = s.buf sl := rfl
@[simp] theorem State.buf_takeResponse (s : State) (sl : SlotId) : s.takeResponse.buf sl = s.buf sl := rfl
@[simp] theorem State.buf_enterFault (s : State) (k : FaultKind) (opc : Byte) (sl sl' : SlotId) :
    (s.enterFault k opc sl).buf sl' = s.buf sl' := rfl
@[simp] theorem State.buf_accept (s : State) (r : Request) (rest : List HostEvent) (sl : SlotId) :
    (s.accept r rest).buf sl = s.buf sl := rfl

/-- The slot's number is below NSLOTS. -/
theorem State.inRange_iff {s : State} {sl : SlotId} : s.inRange sl = true ↔ sl.toNat < s.slots.length :=
  decide_eq_true_iff

/-- A slot that holds a Buffer has a number below NSLOTS. -/
theorem State.inRange_of_buf {s : State} {sl : SlotId} {b : Buffer} (h : s.buf sl = some b) :
    s.inRange sl = true := by
  by_contra hn
  rw [State.inRange_iff, not_lt] at hn
  simp [State.buf, List.getElem?_eq_none hn] at h

/-- A slot that holds a Buffer lists it in the slot file. -/
theorem State.mem_slots_of_buf {s : State} {sl : SlotId} {b : Buffer} (h : s.buf sl = some b) :
    some b ∈ s.slots := by
  simp only [State.buf, Option.join_eq_some_iff] at h
  exact List.mem_of_getElem? h

@[simp] theorem State.inRange_setBuf (s : State) (sl sl' : SlotId) (b : Buffer) :
    (s.setBuf sl b).inRange sl' = s.inRange sl' := by simp [State.inRange]

/-- Reading the slot just written. -/
theorem State.buf_setBuf_same {s : State} {sl : SlotId} {b : Buffer} (h : s.inRange sl = true) :
    (s.setBuf sl b).buf sl = some b := by
  rw [State.inRange_iff] at h
  simp [State.buf, h]

/-- Reading the slot just written, when it held a Buffer before. -/
theorem State.buf_setBuf_of_buf {s : State} {sl : SlotId} {b b' : Buffer} (h : s.buf sl = some b) :
    (s.setBuf sl b').buf sl = some b' :=
  State.buf_setBuf_same (State.inRange_of_buf h)

/-- Reading another slot than the one written. -/
theorem State.buf_setBuf_ne {s : State} {sl sl' : SlotId} {b : Buffer} (h : sl' ≠ sl) :
    (s.setBuf sl b).buf sl' = s.buf sl' := by
  have h' : sl.toNat ≠ sl'.toNat := fun e => h (BitVec.eq_of_toNat_eq e.symm)
  simp [State.buf, List.getElem?_set_ne h']

/-- A released slot is free. -/
theorem State.buf_release_same (s : State) (sl : SlotId) : (s.release sl).buf sl = none := by
  simp only [State.buf, State.release_slots, List.getElem?_set_self']
  cases s.slots[sl.toNat]? <;> rfl

/-- Releasing a slot leaves the others alone. -/
theorem State.buf_release_ne {s : State} {sl sl' : SlotId} (h : sl' ≠ sl) :
    (s.release sl).buf sl' = s.buf sl' := by
  have h' : sl.toNat ≠ sl'.toNat := fun e => h (BitVec.eq_of_toNat_eq e.symm)
  simp [State.buf, List.getElem?_set_ne h']

/-- After reset every slot is free (10_state.md R28). -/
@[simp] theorem State.buf_applyReset (s : State) (sl : SlotId) : s.applyReset.buf sl = none := by
  simp only [State.buf, State.applyReset_slots, List.getElem?_replicate]
  split <;> rfl

/-- Writing a slot twice keeps the second value. -/
@[simp] theorem State.setBuf_setBuf (s : State) (sl : SlotId) (b b' : Buffer) :
    (s.setBuf sl b).setBuf sl b' = s.setBuf sl b' := by
  simp [State.setBuf]

/-- A byte of storage is read through the slot's Buffer. -/
theorem State.peek_of_buf {s : State} {sl : SlotId} {b : Buffer} (h : s.buf sl = some b) (off : Nat) :
    s.peek sl off = if off < b.cap.toNat then some (b.store.read off) else none := by
  simp [State.peek, h]

/-- Two states that hold the same Buffer in a slot read the same bytes there. -/
theorem State.peek_congr {s t : State} {sl : SlotId} (h : t.buf sl = s.buf sl) (off : Nat) :
    t.peek sl off = s.peek sl off := by
  simp [State.peek, h]

end Sys2Proof.Machine
end

