-- ==== Sys2Proof/Laws/Operands.lean ====
section
/-! SUPPORT. What each shared operation of Machine/Operands.lean can do, said once. -/

namespace Sys2Proof.Machine

/-! ### Sequencing -/

@[simp] theorem Run.bind_done {α β : Type} (a : α) (s : State) (f : α → State → Run β) :
    (Run.done a s).bind f = f a s := rfl
@[simp] theorem Run.bind_raised {α β : Type} (k : FaultKind) (sl : SlotId) (s : State)
    (f : α → State → Run β) : (Run.raised k sl s : Run α).bind f = .raised k sl s := rfl
@[simp] theorem Run.bind_stuck {α β : Type} (r : Fault) (f : α → State → Run β) :
    (Run.stuck r : Run α).bind f = .stuck r := rfl

/-- A sequence completes only when both pieces do. -/
theorem Run.bind_eq_done {α β : Type} {x : Run α} {f : α → State → Run β} {b : β} {t : State}
    (h : x.bind f = .done b t) : ∃ a u, x = .done a u ∧ f a u = .done b t := by
  cases x with
  | done a u => exact ⟨a, u, rfl, h⟩
  | raised k sl u => cases h
  | stuck r => cases h

/-- A sequence raises a fault in its first piece or in its second. -/
theorem Run.bind_eq_raised {α β : Type} {x : Run α} {f : α → State → Run β} {k : FaultKind} {sl : SlotId}
    {t : State} (h : x.bind f = .raised k sl t) :
    x = .raised k sl t ∨ ∃ a u, x = .done a u ∧ f a u = .raised k sl t := by
  cases x with
  | done a u => exact .inr ⟨a, u, rfl, h⟩
  | raised k' sl' u => cases h; exact .inl rfl
  | stuck r => cases h

@[simp] theorem Run.close_done (opc : Byte) (r : Reply) (s : State) :
    (Run.done r s).close opc = .next (s.respond r.word) := rfl
@[simp] theorem Run.close_raised (opc : Byte) (k : FaultKind) (sl : SlotId) (s : State) :
    (Run.raised k sl s).close opc = .next (s.enterFault k opc sl) := rfl
@[simp] theorem Run.close_stuck (opc : Byte) (f : Fault) : (Run.stuck f).close opc = .fault f := rfl

/-- What a command's last piece can have done when the command answers a next state. -/
theorem Run.close_eq_next {opc : Byte} {x : Run Reply} {t : State} (h : x.close opc = .next t) :
    (∃ r u, x = .done r u ∧ t = u.respond r.word) ∨
    (∃ k sl u, x = .raised k sl u ∧ t = u.enterFault k opc sl) := by
  cases x with
  | done r u => cases h; exact .inl ⟨r, u, rfl, rfl⟩
  | raised k sl u => cases h; exact .inr ⟨k, sl, u, rfl, rfl⟩
  | stuck f => cases h

/-! ### A whole command -/

/-- A halted block answers Halted (60_exceptions.md R171). -/
theorem command_halted {i : Instr} {body : State → Run Reply} {s : State} (h : s.fault = true) :
    command i body s = .next s.answerHalted := by
  simp [command, h]

/-- A common check that fails decides the command (60_exceptions.md R173). -/
theorem command_checkFails {i : Instr} {body : State → Run Reply} {s : State} {k : FaultKind} {sl : SlotId}
    (h : s.running) (hc : commonFault i s = some (k, sl)) :
    command i body s = .next (s.enterFault k i.opcode sl) := by
  simp [command, h, hc]

/-- With every common check passed the command's own rule runs (60_exceptions.md R173, step 10). -/
theorem command_runs {i : Instr} {body : State → Run Reply} {s : State}
    (h : s.running) (hc : commonFault i s = none) : command i body s = (body s).close i.opcode := by
  simp [command, h, hc]

/-- Everything a command can do when it answers a next state. -/
theorem command_cases {i : Instr} {body : State → Run Reply} {s t : State}
    (h : command i body s = .next t) :
    (s.fault = true ∧ t = s.answerHalted) ∨
    (s.fault = false ∧ ∃ k sl, commonFault i s = some (k, sl) ∧ t = s.enterFault k i.opcode sl) ∨
    (s.fault = false ∧ commonFault i s = none ∧
      ((∃ r u, body s = .done r u ∧ t = u.respond r.word) ∨
       (∃ k sl u, body s = .raised k sl u ∧ t = u.enterFault k i.opcode sl))) := by
  cases hf : s.fault with
  | true =>
    rw [command_halted hf] at h
    cases h
    exact .inl ⟨rfl, rfl⟩
  | false =>
    cases hc : commonFault i s with
    | some p =>
      rw [command_checkFails hf hc] at h
      cases h
      exact .inr (.inl ⟨rfl, _, _, rfl, rfl⟩)
    | none =>
      rw [command_runs hf hc] at h
      exact .inr (.inr ⟨rfl, rfl, Run.close_eq_next h⟩)

/-! ### Byte order -/

@[simp] theorem length_le32 (v : Word) : (le32 v).length = 4 := rfl

/-- The number of a little-endian sequence stays below 256 to its length. -/
theorem leNat_lt (bs : List Byte) : leNat bs < 256 ^ bs.length := by
  induction bs with
  | nil => simp [leNat]
  | cons b bs ih =>
    have := b.isLt
    simp only [leNat, List.length_cons, pow_succ]
    omega

/-! ### The cursor primitives -/

/-- A read that is served: its bytes, whether it split, and the cursor it leaves (40_cursor_arithmetic.md R93, R94). -/
theorem acquireRead_served {b : Buffer} {n : Nat} (hrc : b.rc.toNat ≤ b.cap.toNat) (hn : n ≤ b.cap.toNat) :
    acquireRead b n = some ⟨lapBytes b b.rc.toNat n, decide (b.cap.toNat < b.rc.toNat + n),
      { b with rc := BitVec.ofNat 32 (nextRc b.cap.toNat b.rc.toNat n) }⟩ := by
  simp only [acquireRead, nextRc, lapBytes]
  by_cases h : b.rc.toNat + n ≤ b.cap.toNat
  · simp only [h, if_true, Option.some.injEq, ReadRegion.mk.injEq, and_true]
    refine ⟨?_, by simp [h]⟩
    rw [memRead_eq_map]
    refine List.map_congr_left fun k hk => ?_
    rw [Nat.mod_eq_of_lt (by have := List.mem_range.1 hk; omega)]
  · have h' : ¬ (b.cap.toNat < b.rc.toNat ∨ b.cap.toNat < n) := by omega
    simp only [h, h', if_false, Option.some.injEq, ReadRegion.mk.injEq, and_true]
    refine ⟨?_, by simp; omega⟩
    rw [memRead_eq_map, memRead_eq_map]
    have hsplit : n = (b.cap.toNat - b.rc.toNat) + (b.rc.toNat + n - b.cap.toNat) := by omega
    conv_rhs => rw [hsplit, List.range_add, List.map_append, List.map_map]
    congr 1
    · refine List.map_congr_left fun k hk => ?_
      rw [Nat.mod_eq_of_lt (by have := List.mem_range.1 hk; omega)]
    · refine List.map_congr_left fun k hk => ?_
      have hk := List.mem_range.1 hk
      simp only [Function.comp_apply, Nat.zero_add]
      have : b.rc.toNat + (b.cap.toNat - b.rc.toNat + k) = k + b.cap.toNat := by omega
      rw [this, Nat.add_mod_right, Nat.mod_eq_of_lt (by omega)]

/-- A read that cannot be served (40_cursor_arithmetic.md R95). -/
theorem acquireRead_rangeFault {b : Buffer} {n : Nat}
    (h : ¬ (b.rc.toNat ≤ b.cap.toNat ∧ n ≤ b.cap.toNat)) : acquireRead b n = none := by
  have h1 : ¬ b.rc.toNat + n ≤ b.cap.toNat := by omega
  have h2 : b.cap.toNat < b.rc.toNat ∨ b.cap.toNat < n := by omega
  simp [acquireRead, h1, h2]

/-- The cursor the write primitive leaves, whatever comes of the call. -/
theorem wc_of_acquireWrite (b : Buffer) (n : Nat) :
    (if (decide (b.wc.toNat + n = b.cap.toNat) && !b.lin) = true then BitVec.ofNat 32 Config.snapOffset
      else BitVec.ofNat 32 (b.wc.toNat + n)) = nextWc b n := by
  rw [BitVec.ofNat_add, BitVec.ofNat_toNat, BitVec.setWidth_eq]
  rfl

/-- A write that is accepted: its region starts at the old write cursor (40_cursor_arithmetic.md R97, R98, R100). -/
theorem acquireWrite_accepted {b : Buffer} {n : Nat} (h : b.wc.toNat + n ≤ b.cap.toNat)
    (h4 : landsInRing b n = true → 4 ≤ b.cap.toNat) :
    acquireWrite b n = .region b.wc.toNat (landsInRing b n) { b with wc := nextWc b n } := by
  have hw := wc_of_acquireWrite b n
  simp only [acquireWrite, hw]
  rw [if_neg]
  · rfl
  · simp only [landsInRing] at h4
    split
    · rename_i hl; have := h4 hl; simp only [Config.snapOffset]; omega
    · omega

/-- A write that overshoots (40_cursor_arithmetic.md R99, R104). -/
theorem acquireWrite_overshoots {b : Buffer} {n : Nat}
    (h : b.cap.toNat < b.wc.toNat + n ∨ (landsInRing b n = true ∧ b.cap.toNat < 4)) :
    acquireWrite b n = .overflow (overflowOf b) { b with wc := nextWc b n } := by
  have hw := wc_of_acquireWrite b n
  simp only [acquireWrite, hw]
  rw [if_pos]
  · rfl
  · simp only [landsInRing, Config.snapOffset] at h ⊢
    split
    · rename_i hl
      simp only [Bool.and_eq_true, decide_eq_true_eq] at hl
      omega
    · rename_i hl
      rcases h with h | h
      · exact h
      · exact absurd h.1 hl

/-- The write primitive reads neither the storage nor the read cursor (40_cursor_arithmetic.md R102). -/
theorem acquireWrite_store (b : Buffer) (n : Nat) (m : Memory) :
    acquireWrite { b with store := m } n =
      match acquireWrite b n with
      | .region off sn b' => .region off sn { b' with store := m }
      | .overflow k b' => .overflow k { b' with store := m } := by
  simp only [acquireWrite]
  by_cases h : b.cap.toNat <
      (if (decide (b.wc.toNat + n = b.cap.toNat) && !b.lin) = true then Config.snapOffset
        else b.wc.toNat + n)
  · simp only [if_pos h]
  · simp only [if_neg h]

/-! ### Runs through a cursor -/

theorem withBuf_of_buf {α : Type} {s : State} {sl : SlotId} {b : Buffer} (h : s.buf sl = some b)
    (f : Buffer → State → Run α) : withBuf sl f s = f b s := by
  simp [withBuf, h]

theorem readRun_served {s : State} {sl : SlotId} {b : Buffer} {n : Nat} (h : s.buf sl = some b)
    (hrc : b.rc.toNat ≤ b.cap.toNat) (hn : n ≤ b.cap.toNat) :
    readRun sl n s = .done (lapBytes b b.rc.toNat n, decide (b.cap.toNat < b.rc.toNat + n))
      (s.setBuf sl { b with rc := BitVec.ofNat 32 (nextRc b.cap.toNat b.rc.toNat n) }) := by
  simp [readRun, withBuf_of_buf h, acquireRead_served hrc hn]

theorem readRun_rangeFault {s : State} {sl : SlotId} {b : Buffer} {n : Nat} (h : s.buf sl = some b)
    (hn : ¬ (b.rc.toNat ≤ b.cap.toNat ∧ n ≤ b.cap.toNat)) :
    readRun sl n s = .raised .rangeFault sl s := by
  simp [readRun, withBuf_of_buf h, acquireRead_rangeFault hn]

theorem openRun_accepted {s : State} {sl : SlotId} {b : Buffer} {n : Nat} (h : s.buf sl = some b)
    (hn : b.wc.toNat + n ≤ b.cap.toNat) (h4 : landsInRing b n = true → 4 ≤ b.cap.toNat) :
    openRun sl n s = .done (b.wc.toNat, landsInRing b n) (s.setBuf sl { b with wc := nextWc b n }) := by
  simp [openRun, withBuf_of_buf h, acquireWrite_accepted hn h4]

theorem openRun_overshoots {s : State} {sl : SlotId} {b : Buffer} {n : Nat} (h : s.buf sl = some b)
    (hn : b.cap.toNat < b.wc.toNat + n ∨ (landsInRing b n = true ∧ b.cap.toNat < 4)) :
    openRun sl n s = .raised (overflowOf b) sl (s.setBuf sl { b with wc := nextWc b n }) := by
  simp [openRun, withBuf_of_buf h, acquireWrite_overshoots hn]

theorem fillRun_of_buf {s : State} {sl : SlotId} {b : Buffer} (h : s.buf sl = some b) (off : Nat)
    (bs : List Byte) : fillRun sl off bs s = s.setBuf sl { b with store := memWrite b.store off bs } := by
  simp [fillRun, h]

theorem writeRun_accepted {s : State} {sl : SlotId} {b : Buffer} {bs : List Byte} (h : s.buf sl = some b)
    (hn : b.wc.toNat + bs.length ≤ b.cap.toNat)
    (h4 : landsInRing b bs.length = true → 4 ≤ b.cap.toNat) :
    writeRun sl bs s = .done (landsInRing b bs.length)
      (s.setBuf sl
        { b with wc := nextWc b bs.length, store := memWrite b.store b.wc.toNat bs }) := by
  simp [writeRun, openRun_accepted h hn h4, fillRun_of_buf (State.buf_setBuf_of_buf h)]

theorem writeRun_overshoots {s : State} {sl : SlotId} {b : Buffer} {bs : List Byte} (h : s.buf sl = some b)
    (hn : b.cap.toNat < b.wc.toNat + bs.length ∨
      (landsInRing b bs.length = true ∧ b.cap.toNat < 4)) :
    writeRun sl bs s = .raised (overflowOf b) sl (s.setBuf sl { b with wc := nextWc b bs.length }) := by
  simp [writeRun, openRun_overshoots h hn]

/-! ### Payload -/

theorem dinTake_enough {n : Nat} {s : State} (h : n ≤ s.din.length) :
    dinTake n s = .done (s.din.take n) { s with din := s.din.drop n } := by
  simp [dinTake, Nat.not_lt.2 h]

theorem dinTake_starved {n : Nat} {s : State} (h : s.din.length < n) :
    dinTake n s = .stuck .payloadStarved := by
  simp [dinTake, h]

/-! ### The common checks of the commands that work on a valid slot -/

/-- The two checks of a command on one valid slot pass. -/
theorem validChecks_pass {s : State} {sl : SlotId} {b : Buffer} (h : s.buf sl = some b) :
    [Check.inRange sl, Check.isValid sl].findSome? (Check.failure s) = none := by
  simp [Check.failure, h, State.inRange_of_buf h]

/-- The checks of a command that constructs in a free slot pass. -/
theorem freeChecks_pass {s : State} {sl : SlotId} {len : Word} (hr : s.inRange sl = true)
    (h : s.buf sl = none) (hl : len.toNat ≤ s.capMax) :
    [Check.inRange sl, Check.isFree sl, Check.lenFits sl len].findSome? (Check.failure s) = none := by
  simp [Check.failure, h, hr, hl]

end Sys2Proof.Machine
end

