-- ==== Sys2Proof/Laws/PerInstr.lean ====
section
/-! SUPPORT. The per-instruction family OpcodeField: the encoding of every command carries its opcode in W0[7:0]
and zeros in RSV (30_encoding.md R61). -/

namespace Sys2Proof.Laws.OpcodeField

/-- W0[7:0] of the command's descriptor is its opcode, and W0[31:17] is 0. -/
def Statement (i : Instr) : Prop := (encode i).opc = i.opcode ∧ (encode i).extractLsb' 17 15 = 0

/-- The two fields of a packed descriptor. -/
theorem fields_packDesc (opc : Byte) (sa sb : SlotId) (f0 : Bool) (w1 w2 w3 : Word) :
    (packDesc opc sa sb f0 w1 w2 w3).opc = opc ∧
    (packDesc opc sa sb f0 w1 w2 w3).extractLsb' 17 15 = 0 :=
  ⟨opc_packDesc _ _ _ _ _ _ _, rsv_packDesc _ _ _ _ _ _ _⟩

theorem nop : Statement .nop := fields_packDesc _ _ _ _ _ _ _
theorem init (sa : SlotId) (lin : Bool) (len rc0 wc0 : Word) : Statement (.init sa lin len rc0 wc0) :=
  fields_packDesc _ _ _ _ _ _ _
theorem load (sa : SlotId) (absent : Bool) (len : Word) : Statement (.load sa absent len) :=
  fields_packDesc _ _ _ _ _ _ _
theorem drain (sa : SlotId) (trunc : Bool) : Statement (.drain sa trunc) := fields_packDesc _ _ _ _ _ _ _
theorem free (sa : SlotId) : Statement (.free sa) := fields_packDesc _ _ _ _ _ _ _
theorem qry (sa : SlotId) (sel : Word) : Statement (.qry sa sel) := fields_packDesc _ _ _ _ _ _ _
theorem rdu32 (sa : SlotId) : Statement (.rdu32 sa) := fields_packDesc _ _ _ _ _ _ _
theorem wru32 (sa : SlotId) (val : Word) : Statement (.wru32 sa val) := fields_packDesc _ _ _ _ _ _ _
theorem rdf32 (sa : SlotId) : Statement (.rdf32 sa) := fields_packDesc _ _ _ _ _ _ _
theorem wrf32 (sa : SlotId) (val : Word) : Statement (.wrf32 sa val) := fields_packDesc _ _ _ _ _ _ _
theorem rdb (sa : SlotId) (n : Word) : Statement (.rdb sa n) := fields_packDesc _ _ _ _ _ _ _
theorem wrb (sa : SlotId) (n : Word) : Statement (.wrb sa n) := fields_packDesc _ _ _ _ _ _ _
theorem wrbuf (outer inner : SlotId) : Statement (.wrbuf outer inner) := fields_packDesc _ _ _ _ _ _ _
theorem rdbuf (outer dest : SlotId) : Statement (.rdbuf outer dest) := fields_packDesc _ _ _ _ _ _ _

end Sys2Proof.Laws.OpcodeField
end

