-- ==== Sys2Proof/Tests/Slice0.lean ====
section
/-! SUPPORT. Tests with expected results from the spec's encodings and vectors (30_encoding.md R73, R77;
95_test_vectors.md), and a witness for the hypotheses of every obligation that has some. -/

namespace Sys2Proof.Tests

open Sys2Proof.Machine

/-! ### Small states -/

/-- A Buffer holding given bytes, LWF 0. -/
def mk (cap rc wc : Word) (lin : Bool) (bs : List Byte) : Buffer := ⟨cap, rc, wc, lin, 0, Memory.ofBytes bs⟩

/-- Four slots, the first two as given, after reset otherwise. -/
def two (a b : Option Buffer) : State := { State.reset with slots := [a, b, none, none] }

/-- One Buffer in slot 0. -/
def one (b : Buffer) : State := two (some b) none

/-- The start state of 95_test_vectors.md section 7. -/
def base : State := two (some (mk 8 0 0 false [])) (some (mk 8 0 0 true []))

/-- The same state, halted by an OverflowLinear. -/
def halted : State := { base with fault := true, fcode := 0x01#8, fopc := 0x11#8 }

/-- The host issues one descriptor with its payload. -/
def issue (d : Desc) (bs : List Byte) (s : State) : State := { s with host := [.issue ⟨d, bs, false, true⟩] }

/-- The next state of an outcome. -/
def nextOf : Host.Outcome State Machine.Fault Refusal → Option State
  | .next t => some t
  | .fault _ => none
  | .refused _ => none

/-- The responses after one step. -/
def rsp (s : State) : Option (List Resp) := (nextOf (step s)).map State.rsp

/-- The responses and the emitted bytes after one step. -/
def out (s : State) : Option (List Resp × List Byte) := (nextOf (step s)).map fun t => (t.rsp, t.dout)

/-- The responses and the Buffer of a slot after one step. -/
def slotAfter (sl : SlotId) (s : State) : Option (List Resp × Option Buffer) :=
  (nextOf (step s)).map fun t => (t.rsp, t.buf sl)

/-- The responses and FCODE, FOPC, FSLOT after one step. -/
def status (s : State) : Option (List Resp × Byte × Byte × SlotId) :=
  (nextOf (step s)).map fun t => (t.rsp, t.fcode, t.fopc, t.fslot)

/-! ### Well-formedness and decoding -/

/-- 30_encoding.md R66: a QRY selector is at most 4. -/
theorem test_wellFormed_qry : (Instr.qry 0 5).wellFormed = false ∧ (Instr.qry 15 4).wellFormed = true := by
  decide

/-- V-X6: the decoder refuses the ill-formed term's descriptor by name. -/
theorem test_decode_refuses_selector : decode 0x00000000000000000000000500000005#128 = .error .badSelector := by
  decide

/-- V-X1 to V-X5, V-X7, V-X8: descriptors no row selects. -/
theorem test_decode_refuses :
    decode 0x00000006#128 = .error .noMatch ∧ decode 0x00010010#128 = .error .noMatch ∧
    decode 0x00001010#128 = .error .noMatch ∧ decode 0x00020201#128 = .error .noMatch ∧
    decode 0x00000100#128 = .error .noMatch ∧ decode 0x00010004#128 = .error .noMatch ∧
    decode 0x00011020#128 = .error .noMatch := by decide

/-- The lifecycle family, from R73: V-X25, P3 step 2, V-L4, P1 step 14, V-L6, C1 step 4. -/
theorem test_decode_lifecycle :
    decode 0x9ABCDEF012345678DEADBEEF00000000#128 = .ok .nop ∧
    decode 0x00000006000000020000000800010101#128 = .ok (.init 1 true 8 2 6) ∧
    decode 0x0000000000000000FFFFFFFF00010202#128 = .ok (.load 2 true 0xFFFFFFFF#32) ∧
    decode 0x00010003#128 = .ok (.drain 0 true) ∧
    decode 0x00000204#128 = .ok (.free 2) ∧
    decode 0x00000000000000000000000400000005#128 = .ok (.qry 0 4) := by decide

/-- The typed codec family, from R73: P2 step 2, V-X23, V-C3, C1 step 3, P2 step 4, P6 step 2. -/
theorem test_decode_codec :
    decode 0x00000110#128 = .ok (.rdu32 1) ∧
    decode 0x55555555AAAAAAAA1122334400000011#128 = .ok (.wru32 0 0x11223344#32) ∧
    decode 0x00000012#128 = .ok (.rdf32 0) ∧
    decode 0x00000000000000003F80000000000013#128 = .ok (.wrf32 0 0x3F800000#32) ∧
    decode 0x00000000000000000000000E00000114#128 = .ok (.rdb 1 14) ∧
    decode 0x00000000000000000000000800000015#128 = .ok (.wrb 0 8) := by decide

/-- The nested-buffer family, from R73: V-X10, P3 step 5. -/
theorem test_decode_nested :
    decode 0x00007020#128 = .ok (.wrbuf 0 7) ∧ decode 0x00002021#128 = .ok (.rdbuf 0 2) := by decide

/-- R73's words, from the terms: every field of W0 in its place. -/
theorem test_encode :
    encode (.init 1 true 8 2 6) = 0x00000006000000020000000800010101#128 ∧
    encode (.wrbuf 10 5) = 0x00005A20#128 ∧ encode (.drain 15 true) = 0x00010F03#128 := by decide

/-! ### Lifecycle and bulk -/

/-- V-X25: NOP with junk in W1 to W3. -/
theorem test_nop : rsp (issue 0x9ABCDEF012345678DEADBEEF00000000#128 [] base) = some [0#64] := by decide

/-- P4 step 4: NOP in a halted block. -/
theorem test_nop_halted : rsp (issue 0#128 [] halted) = some [0x000000FF00000000#64] := by decide

/-- P3 step 2: INIT constructs its Buffer. -/
theorem test_init :
    slotAfter 1 (issue 0x00000006000000020000000800010101#128
      [0x11#8, 0x22#8, 0x33#8, 0x44#8, 0x55#8, 0x66#8, 0x77#8, 0x88#8] State.reset) =
    some ([0#64], some (mk 8 2 6 true [0x11#8, 0x22#8, 0x33#8, 0x44#8, 0x55#8, 0x66#8, 0x77#8, 0x88#8])) := by
  decide

/-- V-X17: LEN = CAP_MAX + 1. -/
theorem test_init_badLength :
    status (issue 0x00000000000000000020000100000201#128 [] base) =
    some ([0x0000000800000000#64], 0x08#8, 0x01#8, 2) := by decide

/-- V-L4: an absent load ignores W1 and `io_err`. -/
theorem test_load_absent :
    slotAfter 2 { base with host := [.issue ⟨0x0000000000000000FFFFFFFF00010202#128, [], true, true⟩] } =
    some ([0#64], some (mk 0 0 0 true [])) := by decide

/-- V-L2: `io_err` during a load. -/
theorem test_load_ioFailure :
    status { State.reset with
      host := [.issue ⟨0x00000000000000000000000400000002#128, [1#8, 2#8, 3#8, 4#8], true, true⟩] } =
    some ([0x0000000400000000#64], 0x04#8, 0x02#8, 0) := by decide

/-- V-L5: a full drain of a slot whose write cursor is above capacity. -/
theorem test_drain_full :
    out (issue 0x00000003#128 [] (one (mk 4 0 9 true [1#8, 2#8, 3#8, 4#8]))) =
    some ([0x0000000000000004#64], [1#8, 2#8, 3#8, 4#8]) := by decide

/-- V-L5: the truncated one faults, `io_err` or not. -/
theorem test_drain_range :
    out { one (mk 4 0 9 true [1#8, 2#8, 3#8, 4#8]) with
      host := [.issue ⟨0x00010003#128, [], true, true⟩] } = some ([0x0000000500000000#64], []) := by decide

/-- V-L6: FREE, and FREE of a free slot. -/
theorem test_free :
    slotAfter 1 (issue 0x00000104#128 [] base) = some ([0#64], none) ∧
    status (issue 0x00000204#128 [] base) = some ([0x0000000600000000#64], 0x06#8, 0x04#8, 2) := by decide

/-- V-X19, V-X24: FLAGS of a free slot and of a linear one. -/
theorem test_qry_flags :
    rsp (issue 0x00000000000000000000000300000205#128 [] base) = some [0#64] ∧
    rsp (issue 0x00000000000000000000000300000105#128 [] base) = some [0x0000000000000003#64] := by decide

/-- V-X21: a slot out of range. -/
theorem test_qry_badSlot :
    status (issue 0x00000000000000000000000300000405#128 [] base) =
    some ([0x0000000600000000#64], 0x06#8, 0x05#8, 4) := by decide

/-! ### Typed codec -/

/-- The storage `00 01 .. 0f` of the read vectors. -/
def bytes16 : List Byte := (List.range 16).map (BitVec.ofNat 8)

/-- P2 step 2: the document's split read. -/
theorem test_rdu32_split :
    slotAfter 0 (issue 0x00000010#128 [] (one (mk 16 14 0 false bytes16))) =
    some ([0x0000010001000F0E#64], some (mk 16 2 0 false bytes16)) := by decide

/-- V-C2, third read: from RC = CAP in linear mode. -/
theorem test_rdu32_linear_wraps :
    rsp (issue 0x00000010#128 [] (one (mk 8 8 0 true [0x78#8, 0x56#8, 0x34#8, 0x12#8]))) =
    some [0x0000010012345678#64] := by decide

/-- V-C3: a split float read. -/
theorem test_rdf32_split :
    slotAfter 0 (issue 0x00000012#128 [] (one (mk 8 6 0 false [1#8, 2#8, 3#8, 4#8, 5#8, 6#8, 7#8, 8#8]))) =
    some ([0x0000010002010807#64], some (mk 8 2 0 false [1#8, 2#8, 3#8, 4#8, 5#8, 6#8, 7#8, 8#8])) := by
  decide

/-- C1 step 2: little-endian store. -/
theorem test_wru32 :
    slotAfter 0 (issue 0x0000000000000000DEADBEEF00000011#128 [] (one (mk 16 0 0 true []))) =
    some ([0#64], some (mk 16 0 4 true [0xEF#8, 0xBE#8, 0xAD#8, 0xDE#8])) := by decide

/-- V-C6: an overflow leaves the advanced cursor and the storage. -/
theorem test_wru32_overflow :
    slotAfter 0 (issue 0x00000000000000001122334400000011#128 []
      (one (mk 8 0 6 true [0#8, 0#8, 0#8, 0xAA#8, 0xBB#8, 0xCC#8]))) =
    some ([0x0000000100000000#64], some (mk 8 0 10 true [0#8, 0#8, 0#8, 0xAA#8, 0xBB#8, 0xCC#8])) := by
  decide

/-- V-C5: the float write that lands, with LWF. -/
theorem test_wrf32_lands :
    slotAfter 0 (issue 0x000000000000000040490FDB00000013#128 [] (one (mk 4 0 0 false []))) =
    some ([0x0000020000000000#64],
      some { mk 4 0 4 false [0xDB#8, 0x0F#8, 0x49#8, 0x40#8] with lwf := 0x40490FDB#32 }) := by decide

/-- V-C5: the one that overshoots leaves LWF. -/
theorem test_wrf32_overflow :
    slotAfter 0 (issue 0x00000000000000003F80000000000013#128 []
      (one { mk 4 0 4 false [0xDB#8, 0x0F#8, 0x49#8, 0x40#8] with lwf := 0x40490FDB#32 })) =
    some ([0x0000000200000000#64],
      some { mk 4 0 8 false [0xDB#8, 0x0F#8, 0x49#8, 0x40#8] with lwf := 0x40490FDB#32 }) := by decide

/-- V-R4: from RC = CAP. -/
theorem test_rdb_from_capacity :
    out (issue 0x00000000000000000000000400000014#128 [] (one (mk 16 16 0 false bytes16))) =
    some ([0x0000010000000004#64], [0#8, 1#8, 2#8, 3#8]) := by decide

/-- V-R17: the sum RC + n is exact. -/
theorem test_rdb_exact_sum :
    out (issue 0x00000000000000000000000400000014#128 [] (one (mk 16 0xFFFFFFFF#32 0 false bytes16))) =
    some ([0x0000000500000000#64], []) := by decide

/-- V-W1: a landing write fills the old region and snaps. -/
theorem test_wrb_lands :
    slotAfter 0 (issue 0x00000000000000000000000400000015#128 [0xEE#8, 0xEE#8, 0xEE#8, 0xEE#8]
      (one (mk 32 0 28 false []))) =
    some ([0x0000020000000000#64],
      some ⟨32, 0, 4, false, 0, [(28, 0xEE#8), (29, 0xEE#8), (30, 0xEE#8), (31, 0xEE#8)]⟩) := by decide

/-- V-W12: capacity below 4: the snap, then the overshoot. -/
theorem test_wrb_tiny_ring :
    slotAfter 0 (issue 0x00000000000000000000000200000015#128 [0xEE#8, 0xEE#8] (one (mk 2 0 0 false []))) =
    some ([0x0000000200000000#64], some (mk 2 0 4 false [])) := by decide

/-! ### Nested buffers -/

/-- V-N11: a field lands on capacity and the byte run damages the form. -/
theorem test_wrbuf_damaged :
    slotAfter 0 (issue 0x00001020#128 []
      (two (some (mk 12 0 0 false [])) (some (mk 4 1 2 false [0xA1#8, 0xA2#8, 0xA3#8, 0xA4#8])))) =
    some ([0x0000020000000000#64], some (mk 12 0 8 false
      [4#8, 0#8, 0#8, 0#8, 0xA1#8, 0xA2#8, 0xA3#8, 0xA4#8, 2#8, 0#8, 0#8, 0#8])) := by decide

/-- V-N9: the byte run overshoots, the three fields stay. -/
theorem test_wrbuf_overflow :
    slotAfter 0 (issue 0x00001020#128 []
      (two (some (mk 16 0 0 true [])) (some (mk 8 0 0 false [1#8, 2#8, 3#8, 4#8, 5#8, 6#8, 7#8, 8#8])))) =
    some ([0x0000000100000000#64], some (mk 16 0 20 true [8#8])) := by decide

/-- V-N5: cursors above capacity are accepted. -/
theorem test_rdbuf :
    slotAfter 1 (issue 0x00001021#128 [] (one (mk 16 0 0 true
      [4#8, 0#8, 0#8, 0#8, 9#8, 0#8, 0#8, 0#8, 0#8, 0#8, 0x10#8, 0#8, 0xAA#8, 0xBB#8, 0xCC#8, 0xDD#8]))) =
    some ([0#64], some (mk 4 9 1048576 false [0xAA#8, 0xBB#8, 0xCC#8, 0xDD#8])) := by decide

/-- P5: the document's oversized capacity field. -/
theorem test_rdbuf_oversized :
    slotAfter 0 (issue 0x00001021#128 [] (one (mk 16 0 0 true [0x80#8, 0x84#8, 0x1E#8]))) =
    some ([0x0000000300000000#64], some (mk 16 4 0 true [0x80#8, 0x84#8, 0x1E#8])) := by decide

/-! ### The order of the checks -/

/-- V-X9, V-X11, V-X12: range, then validity of SA, then alias. -/
theorem test_check_order :
    status (issue 0x00005520#128 [] base) = some ([0x0000000600000000#64], 0x06#8, 0x20#8, 5) ∧
    status (issue 0x00002220#128 [] base) = some ([0x0000000600000000#64], 0x06#8, 0x20#8, 2) ∧
    status (issue 0x00000020#128 [] base) = some ([0x0000000900000000#64], 0x09#8, 0x20#8, 0) := by decide

/-- V-X14, V-X16: the destination in use; in use before length. -/
theorem test_check_inUse :
    status (issue 0x00001021#128 [] base) = some ([0x0000000A00000000#64], 0x0A#8, 0x21#8, 1) ∧
    status (issue 0x00000000000000000020000100000001#128 [] base) =
      some ([0x0000000A00000000#64], 0x0A#8, 0x01#8, 0) := by decide

/-- V-X1 and V-X4: FOPC and FSLOT of an illegal descriptor. -/
theorem test_illegal :
    status (issue 0x00000006#128 [] base) = some ([0x0000000700000000#64], 0x07#8, 0x06#8, 0) ∧
    status (issue 0x00020201#128 [] base) = some ([0x0000000700000000#64], 0x07#8, 0x01#8, 2) := by decide

/-! ### Witnesses: the hypotheses of each obligation, met at a concrete point -/

/-- A request the host issues with no payload. -/
def plain (d : Desc) : Request := ⟨d, [], false, true⟩

/-- A request whose output the host never takes. -/
def untaken : Request := ⟨0, [], false, false⟩

/-- A payload of 64 bytes on DIN. -/
def fed (s : State) : State := { s with din := List.replicate 64 0xEE#8 }

theorem test_witness_DecodeOfEncodeIsIdentity : (Instr.qry 15 4).wellFormed = true := by decide

theorem test_witness_EncodeAgreesWithTheDescriptor :
    (∃ i, decode 0x55555555AAAAAAAA1122334400000011#128 = .ok i) ∧
    Desc.usesW1 0x55555555AAAAAAAA1122334400000011#128 = true ∧
    (∃ i, decode 0xFFFFFFFFFFFFFFFFFFFFFFFF00010F01#128 = .ok i) ∧
    Desc.opc 0xFFFFFFFFFFFFFFFFFFFFFFFF00010F01#128 = 0x01#8 :=
  ⟨⟨_, rfl⟩, by decide, ⟨_, rfl⟩, by decide⟩

theorem test_witness_OneRowSelectsADescriptor :
    (opcodeRows[12]'(by decide)) ∈ opcodeRows ∧
    (opcodeRows[12]'(by decide)).selects 0x0000FF20#128 = true :=
  ⟨List.getElem_mem _, by decide⟩

/-- One descriptor for each line of the list: V-X1, V-X4, V-X3, V-X2, V-X5, V-X6, and the next operand below each
limit. -/
theorem test_witness_IllegalDescriptorsAreExactlyThese :
    Desc.Illegal 0x00000006#128 ∧ Desc.Illegal 0x00020201#128 ∧ Desc.Illegal 0x00001010#128 ∧
    Desc.Illegal 0x00010010#128 ∧ Desc.Illegal 0x00000100#128 ∧
    Desc.Illegal 0x00000000000000000000000500000005#128 ∧
    ¬ Desc.Illegal 0x00000000000000000000000400000005#128 ∧ ¬ Desc.Illegal 0x00010F03#128 ∧
    (issue 0x00000006#128 [] base).running ∧
    (issue 0x00000006#128 [] base).host = [.issue (plain 0x00000006#128)] ∧
    (plain 0x00000006#128).accepts = true :=
  ⟨by decide, by decide, by decide, by decide, by decide, by decide, by decide, by decide, by decide, by decide,
    by decide⟩

theorem test_witness_IgnoredWordsChangeNothing :
    Desc.w0 0x55555555AAAAAAAA1122334400000011#128 = Desc.w0 0x00000000000000001122334400000011#128 ∧
    (Desc.usesW1 0x55555555AAAAAAAA1122334400000011#128 = true →
      Desc.w1 0x55555555AAAAAAAA1122334400000011#128 = Desc.w1 0x00000000000000001122334400000011#128) ∧
    ¬ Desc.opc 0x55555555AAAAAAAA1122334400000011#128 = 0x01#8 := by decide

theorem test_witness_StepRunsTheDecodedCommand :
    (issue 0x00000010#128 [] base).host = [.issue (plain 0x00000010#128)] ∧
    (plain 0x00000010#128).accepts = true ∧ decode (plain 0x00000010#128).desc = .ok (.rdu32 0) ∧
    ∃ t, exec (.rdu32 0) ((issue 0x00000010#128 [] base).accept (plain 0x00000010#128) []) = .next t :=
  ⟨by decide, by decide, by decide, _, rfl⟩

theorem test_witness_IdleBlockHoldsItsState : State.reset.host = [] := by decide

theorem test_witness_RstClearsTheBlock : ({ halted with host := [.rst] } : State).host = .rst :: [] := by decide

theorem test_witness_HaltedBlockAnswersHalted :
    (issue 0x00000006#128 [] halted).fault = true ∧
    (issue 0x00000006#128 [] halted).host = [.issue (plain 0x00000006#128)] ∧
    (plain 0x00000006#128).accepts = true := by decide

theorem test_witness_OnlyRstLeavesTheHaltedState :
    (∃ t, halted.fault = true ∧ step (issue 0#128 [] halted) = .next t ∧ t.fault = true) ∧
    ∃ t, step { halted with host := [.rst] } = .next t ∧ t.fault = false :=
  ⟨⟨_, rfl, rfl, rfl⟩, _, rfl, rfl⟩

theorem test_witness_EveryDescriptorAdvancesThePc :
    (∃ t, step (issue 0x00000006#128 [] base) = .next t) ∧
    (∃ t, step { base with host := [.rst] } = .next t) ∧ ∃ t, step base = .next t :=
  ⟨⟨_, rfl⟩, ⟨_, rfl⟩, _, rfl⟩

/-- 20_memory.md R41: `busy` while a command runs and while it waits, and not after it. -/
theorem test_witness_BusyFromAcceptanceToResponse :
    (∃ t u, exec .nop (base.accept (plain 0) []) = .next t ∧ t.busy = true ∧
      step (issue 0 [] base) = .next u ∧ u.busy = false) ∧
    (untaken.accepts = false ∧ (base.accept untaken []).busy = true ∧
      ∃ u, step { base with host := [.issue untaken, .rst] } = .next u ∧ u.busy = false) ∧
    (base.host = [] ∧ ∃ u, step base = .next u ∧ u.busy = false) :=
  ⟨⟨_, _, rfl, rfl, rfl, rfl⟩, ⟨rfl, rfl, _, rfl, rfl⟩, rfl, _, rfl, rfl⟩

theorem test_witness_WaitingCommandEndsOnlyByRst :
    untaken.accepts = false ∧
    (∃ i, (plain 0x00000000000000000000000100000015#128).accepts = true ∧
      decode (plain 0x00000000000000000000000100000015#128).desc = .ok i ∧
      exec i (base.accept (plain 0x00000000000000000000000100000015#128) []) = .fault .payloadStarved) ∧
    ([] : List HostEvent).head? ≠ some .rst :=
  ⟨rfl, ⟨.wrb 0 1, rfl, rfl, rfl⟩, by decide⟩

/-- All three outcomes of the checks occur. -/
theorem test_witness_CommonChecksDecideInOrder :
    checkDesc 0x00000006#128 halted = .halted ∧
    checkDesc 0x00000006#128 base = .fault .illegalCommand 0 ∧
    checkDesc 0x00005520#128 base = .fault .badSlot 5 ∧
    checkDesc 0x00002220#128 base = .fault .badSlot 2 ∧
    checkDesc 0x00000020#128 base = .fault .slotAlias 0 ∧
    checkDesc 0x00002020#128 base = .fault .badSlot 2 ∧
    checkDesc 0x00001021#128 base = .fault .slotInUse 1 ∧
    checkDesc 0x00000000000000000020000100000201#128 base = .fault .badLength 2 ∧
    checkDesc 0x00000000000000000020000000000201#128 base = .pass (.init 2 false 2097152 0 0) := by decide

theorem test_witness_FaultEntryRecordsTheFault :
    base.running ∧ (∃ t, exec (.rdb 0 9) base = .next t ∧ t.fault = true) ∧
    ∃ t, exec (.rdb 0 8) base = .next t ∧ t.fault = false :=
  ⟨by decide, ⟨_, rfl, rfl⟩, _, rfl, rfl⟩

theorem test_witness_OneResponsePerCommand :
    (∃ t, exec (.rdb 0 9) base = .next t) ∧ ∃ t, exec .nop halted = .next t :=
  ⟨⟨_, rfl⟩, _, rfl⟩

theorem test_witness_AnsweredUnlessPayloadMissing :
    (Instr.wrb 0 8).payload ≤ (fed base).din.length ∧ exec (.wrb 0 1) base = .fault .payloadStarved :=
  ⟨by decide, rfl⟩

theorem test_witness_CommandsLeaveOtherSlots :
    ∃ t, exec (.rdbuf 0 2) (two (some (mk 12 0 0 true [])) none) = .next t ∧ t.fault = false :=
  ⟨_, rfl, rfl⟩

theorem test_witness_PayloadTakenIsExact :
    (fed base).running ∧ (∃ t, exec (.wrb 0 8) (fed base) = .next t ∧ t.fault = false) ∧
    (∃ t, exec (.wrb 0 9) (fed base) = .next t ∧ t.fault = true ∧ t.fcode ≠ 0x04#8) ∧
    ∃ t, exec (.load 2 false 8) { fed base with ioErr := true } = .next t ∧ t.fcode = 0x04#8 :=
  ⟨by decide, ⟨_, rfl, rfl⟩, ⟨_, rfl, rfl, by decide⟩, _, rfl, rfl⟩

theorem test_witness_ReadsLeaveAllButTheReadCursor :
    (∃ t, exec (.rdu32 0) base = .next t ∧ t.fault = false) ∧
    (∃ t, exec (.rdf32 2) base = .next t ∧ t.fault = true) ∧
    (∃ t, exec (.rdb 0 8) base = .next t ∧ t.fault = false) ∧
    ∃ t, exec (.rdb 0 9) base = .next t ∧ t.fault = true :=
  ⟨⟨_, rfl, rfl⟩, ⟨_, rfl, rfl⟩, ⟨_, rfl, rfl⟩, _, rfl, rfl⟩

theorem test_witness_WritesLeaveAllButTheirRegion :
    (∃ t, exec (.wru32 0 1) base = .next t ∧ t.fault = false) ∧
    (∃ t, exec (.wrf32 0 1) base = .next t ∧ t.fault = false) ∧
    (∃ t, exec (.wrb 1 8) (fed base) = .next t ∧ t.fault = false) ∧
    ∃ t, exec (.wrb 1 9) (fed base) = .next t ∧ t.fault = true :=
  ⟨⟨_, rfl, rfl⟩, ⟨_, rfl, rfl⟩, ⟨_, rfl, rfl⟩, _, rfl, rfl⟩

theorem test_witness_NopQryDrainLeaveEverySlot :
    (∃ t, exec .nop base = .next t) ∧ (∃ t, exec (.qry 0 4) base = .next t) ∧
    (∃ t, exec (.drain 0 true) base = .next t ∧ t.fault = false) ∧
    ∃ t, exec (.drain 2 true) base = .next t ∧ t.fault = true :=
  ⟨⟨_, rfl⟩, ⟨_, rfl⟩, ⟨_, rfl, rfl⟩, _, rfl, rfl⟩

theorem test_witness_ConstructionsLeaveOtherSlots :
    (∃ t, exec (.init 2 true 64 0 0) (fed base) = .next t ∧ t.fault = false) ∧
    (∃ t, exec (.load 2 false 64) (fed base) = .next t ∧ t.fault = false) ∧
    (∃ t, exec (.free 0) base = .next t ∧ t.fault = false) ∧
    ∃ t, exec (.init 0 true 64 0 0) (fed base) = .next t ∧ t.fault = true :=
  ⟨⟨_, rfl, rfl⟩, ⟨_, rfl, rfl⟩, ⟨_, rfl, rfl⟩, _, rfl, rfl⟩

/-- An outer slot that the form of the inner one fills exactly, and one a byte too small. -/
def pair (outerCap : Word) (lin : Bool) : State :=
  two (some (mk outerCap 0 0 lin [])) (some (mk 4 1 2 true [0xA1#8, 0xA2#8, 0xA3#8, 0xA4#8]))

theorem test_witness_WrbufLeavesAllButItsRegions :
    (∃ t, exec (.wrbuf 0 1) (pair 16 true) = .next t ∧ t.fault = false) ∧
    ∃ t, exec (.wrbuf 0 1) (pair 15 true) = .next t ∧ t.fault = true :=
  ⟨⟨_, rfl, rfl⟩, _, rfl, rfl⟩

/-- An outer slot that holds a serialized form with given low capacity bytes, and free slots beside it. -/
def serialized (c0 c1 c2 r2 w2 : Byte) : State :=
  one (mk 16 0 0 true
    [c0, c1, c2, 0#8, 1#8, 0#8, r2, 0#8, 2#8, 0#8, w2, 0#8, 0xA1#8, 0xA2#8, 0xA3#8, 0xA4#8])

theorem test_witness_RdbufLeavesAllButItsDestination :
    (∃ t, exec (.rdbuf 0 3) (serialized 4 0 0 0 0) = .next t ∧ t.fault = false) ∧
    ∃ t, exec (.rdbuf 0 3) (serialized 4 0 0x10 0 0) = .next t ∧ t.fault = true ∧ (0 : SlotId) ≠ 3 :=
  ⟨⟨_, rfl, rfl⟩, _, rfl, rfl, by decide⟩

/-- Each register is seen to change under a command that may change it. -/
theorem test_witness_OnlyTheNamedCommandsChangeARegister :
    (∃ t b b', exec (.rdu32 0) base = .next t ∧ base.buf 0 = some b ∧ t.buf 0 = some b' ∧ b'.rc ≠ b.rc) ∧
    ∃ t b b', exec (.wrf32 0 7) base = .next t ∧ base.buf 0 = some b ∧ t.buf 0 = some b' ∧
      b'.wc ≠ b.wc ∧ b'.lwf ≠ b.lwf :=
  ⟨⟨_, _, _, rfl, rfl, rfl, by decide⟩, _, _, _, rfl, rfl, rfl, by decide, by decide⟩

theorem test_witness_IoErrIsReadByLoadAndDrainOnly :
    (Instr.load 0 true 5).readsIoErr = false ∧ (Instr.wrb 0 5).readsIoErr = false := by decide

theorem test_witness_NopAnswersZero : base.running ∧ halted.fault = true := by decide

theorem test_witness_InitConstructsItsBuffer :
    (fed base).running ∧ (fed base).nslots ≤ (4 : SlotId).toNat ∧
    (∃ b, (fed base).buf 1 = some b) ∧ (3 : SlotId).toNat < (fed base).nslots ∧ (fed base).buf 3 = none ∧
    (fed base).capMax < (2097153#32).toNat ∧
    ((65#32).toNat ≤ (fed base).capMax ∧ (fed base).din.length < (65#32).toNat) ∧
    ((64#32).toNat ≤ (fed base).capMax ∧ (64#32).toNat ≤ (fed base).din.length) :=
  ⟨by decide, by decide, ⟨_, rfl⟩, by decide, by decide, by decide, by decide, by decide⟩

theorem test_witness_LoadConstructsALinearBuffer :
    (fed base).running ∧ (fed base).nslots ≤ (4 : SlotId).toNat ∧ (∃ b, (fed base).buf 1 = some b) ∧
    ((3 : SlotId).toNat < (fed base).nslots ∧ (fed base).buf 3 = none) ∧
    (fed base).capMax < (2097153#32).toNat ∧
    ((2097152#32).toNat ≤ ({ fed base with ioErr := true } : State).capMax ∧
      ({ fed base with ioErr := true } : State).ioErr = true) ∧
    ((65#32).toNat ≤ (fed base).capMax ∧ (fed base).ioErr = false ∧
      (fed base).din.length < (65#32).toNat) ∧
    ((64#32).toNat ≤ (fed base).capMax ∧ (64#32).toNat ≤ (fed base).din.length) :=
  ⟨by decide, by decide, ⟨_, rfl⟩, by decide, by decide, by decide, by decide, by decide⟩

/-- A free slot; WC one above CAP; WC at CAP, `io_err` at each level. -/
theorem test_witness_DrainEmitsStorage :
    base.running ∧ base.buf 2 = none ∧
    (∃ b, (one (mk 4 0 5 true [])).buf 0 = some b ∧ b.cap.toNat < b.wc.toNat) ∧
    (∃ b, (one (mk 4 0 4 true [])).buf 0 = some b ∧ b.wc.toNat ≤ b.cap.toNat) ∧
    base.ioErr = false ∧ ({ base with ioErr := true } : State).ioErr = true :=
  ⟨by decide, by decide, ⟨_, rfl, by decide⟩, ⟨_, rfl, by decide⟩, by decide, by decide⟩

theorem test_witness_FreeReleasesItsSlot : base.running ∧ base.buf 2 = none ∧ base.buf 4 = none ∧ ∃ b, base.buf 1 = some b :=
  ⟨by decide, by decide, by decide, _, rfl⟩

/-- Each clause, at the ends of its range. -/
theorem test_witness_QryAnswersTheRegister :
    base.running ∧ (∃ b, base.buf 1 = some b) ∧ ((3 : SlotId).toNat < base.nslots ∧ base.buf 3 = none) ∧
    4 < (5#32).toNat ∧
    ((4#32).toNat ≤ 4 ∧ (base.nslots ≤ (3 : SlotId).toNat ∨ (4#32 : Word) ≠ 3) ∧ base.buf 3 = none) ∧
    ((3#32).toNat ≤ 4 ∧ base.nslots ≤ (4 : SlotId).toNat ∧ base.buf 4 = none) :=
  ⟨by decide, ⟨_, rfl⟩, by decide, by decide, by decide, by decide⟩

/-- RC at CAP with CAP = 4; RC one above CAP; CAP = 3. -/
theorem test_witness_TypedReadsAnswerTheWordAtTheCursor :
    (∃ b, (one (mk 4 4 0 true [])).buf 0 = some b ∧ b.rc.toNat ≤ b.cap.toNat ∧ 4 ≤ b.cap.toNat) ∧
    (∃ b, (one (mk 4 5 0 true [])).buf 0 = some b ∧ b.cap.toNat < b.rc.toNat) ∧
    (∃ b, (one (mk 3 0 0 true [])).buf 0 = some b ∧ b.cap.toNat < 4) ∧ (one (mk 4 4 0 true [])).running :=
  ⟨⟨_, rfl, by decide, by decide⟩, ⟨_, rfl, by decide⟩, ⟨_, rfl, by decide⟩, by decide⟩

/-- N = CAP from RC = CAP; N one above CAP. -/
theorem test_witness_RdbEmitsTheBytesAtTheCursor :
    (∃ b, (one (mk 16 16 0 false [])).buf 0 = some b ∧ b.rc.toNat ≤ b.cap.toNat ∧
      (16#32).toNat ≤ b.cap.toNat ∧ b.cap.toNat < (17#32).toNat) ∧ (one (mk 16 16 0 false [])).running :=
  ⟨⟨_, rfl, by decide, by decide, by decide⟩, by decide⟩

/-- WC + 4 = CAP; WC + 4 one above CAP. -/
theorem test_witness_TypedWritesStoreTheWordAtTheCursor :
    (∃ b, (one (mk 32 0 28 false [])).buf 0 = some b ∧ b.wc.toNat + 4 ≤ b.cap.toNat) ∧
    (∃ b, (one (mk 32 0 29 false [])).buf 0 = some b ∧ b.cap.toNat < b.wc.toNat + 4) ∧
    (one (mk 32 0 28 false [])).running :=
  ⟨⟨_, rfl, by decide⟩, ⟨_, rfl, by decide⟩, by decide⟩

/-- An overshoot by one; a landing on a capacity below 4; a landing with the payload short and complete. -/
theorem test_witness_WrbStoresItsPayloadAtTheCursor :
    (∃ b, (one (mk 32 0 29 false [])).buf 0 = some b ∧ b.cap.toNat < b.wc.toNat + (4#32).toNat) ∧
    (∃ b, (one (mk 3 0 0 false [])).buf 0 = some b ∧ landsInRing b (3#32).toNat = true ∧ b.cap.toNat < 4) ∧
    (∃ b, (one (mk 4 0 0 false [])).buf 0 = some b ∧ b.wc.toNat + (4#32).toNat ≤ b.cap.toNat ∧
      (landsInRing b (4#32).toNat = true → 4 ≤ b.cap.toNat)) ∧
    (one (mk 4 0 0 false [])).din.length < (4#32).toNat ∧
    (4#32).toNat ≤ (fed (one (mk 4 0 0 false []))).din.length ∧ (one (mk 4 0 0 false [])).running :=
  ⟨⟨_, rfl, by decide⟩, ⟨_, rfl, by decide, by decide⟩, ⟨_, rfl, by decide, by decide⟩, by decide, by decide,
    by decide⟩

theorem test_witness_WrbufStoresTheSerializedForm :
    ∃ ob ib, (pair 16 false).running ∧ (0 : SlotId) ≠ 1 ∧ (pair 16 false).buf 0 = some ob ∧
      (pair 16 false).buf 1 = some ib ∧ ob.wc.toNat + 12 + ib.cap.toNat ≤ ob.cap.toNat :=
  ⟨_, _, by decide, by decide, rfl, rfl, by decide⟩

/-- The four writes are reached with and without a fault. -/
theorem test_witness_WrbufIsFourWritesInOrder :
    (pair 16 false).running ∧ (0 : SlotId) ≠ 1 ∧
    (∃ ob ib, (pair 16 false).buf 0 = some ob ∧ (pair 16 false).buf 1 = some ib ∧
      (writeAll ob [le32 ib.cap, le32 ib.rc, le32 ib.wc, firstBytes ib ib.cap.toNat]).2.2 = none) ∧
    ∃ ob ib, (pair 15 false).buf 0 = some ob ∧ (pair 15 false).buf 1 = some ib ∧
      (writeAll ob [le32 ib.cap, le32 ib.rc, le32 ib.wc, firstBytes ib ib.cap.toNat]).2.2 =
        some .overflowRing :=
  ⟨by decide, by decide, ⟨_, _, rfl, rfl, by decide⟩, _, _, rfl, rfl, by decide⟩

theorem test_witness_RdbufConstructsARingBuffer :
    ∃ b, (serialized 4 0 0 0x10 0x10).running ∧ (serialized 4 0 0 0x10 0x10).buf 0 = some b ∧
      (3 : SlotId).toNat < (serialized 4 0 0 0x10 0x10).nslots ∧
      (serialized 4 0 0 0x10 0x10).buf 3 = none ∧ b.rc.toNat ≤ b.cap.toNat ∧ 4 ≤ b.cap.toNat ∧
      (lapWord b b.rc.toNat).toNat = 4 ∧ (lapWord b b.rc.toNat).toNat ≤ b.cap.toNat :=
  ⟨_, by decide, rfl, by decide, by decide, by decide, by decide, by decide, by decide⟩

/-- The largest read-cursor field that passes. -/
theorem test_witness_RdbufConstructsARingBuffer_ceiling :
    ∃ b, (one (mk 12 0 0 true [0#8, 0#8, 0#8, 0#8, 0#8, 0#8, 0x10#8])).buf 0 = some b ∧
      (lapWord b (b.rc.toNat + 4)).toNat = 1048576 ∧ (lapWord b (b.rc.toNat + 8)).toNat ≤ 1048576 :=
  ⟨_, rfl, by decide, by decide⟩

/-- V-N8, V-N2, V-N3, V-N4, V-N1: one outer buffer for each clause. -/
theorem test_witness_RdbufFaultsAtTheFirstBadField :
    (∃ b, (one (mk 2 0 0 true [])).buf 0 = some b ∧ b.cap.toNat < 4) ∧
    (∃ b, (serialized 1 0 0x10 0 0).buf 0 = some b ∧ 1048576 < (lapWord b b.rc.toNat).toNat) ∧
    (∃ b, (serialized 4 0 0 0x10 0).buf 0 = some b ∧ (lapWord b b.rc.toNat).toNat ≤ 1048576 ∧
      1048576 < (lapWord b (b.rc.toNat + 4)).toNat) ∧
    (∃ b, (one (mk 16 0 0 true
        [4#8, 0#8, 0#8, 0#8, 0#8, 0#8, 0#8, 0#8, 0xFF#8, 0xFF#8, 0xFF#8, 0xFF#8])).buf 0 = some b ∧
      (lapWord b b.rc.toNat).toNat ≤ 1048576 ∧ (lapWord b (b.rc.toNat + 4)).toNat ≤ 1048576 ∧
      1048576 < (lapWord b (b.rc.toNat + 8)).toNat) ∧
    ∃ b, (one (mk 16 0 0 true [0#8, 0#8, 0x10#8])).buf 0 = some b ∧
      (lapWord b b.rc.toNat).toNat ≤ 1048576 ∧ (lapWord b (b.rc.toNat + 4)).toNat ≤ 1048576 ∧
      (lapWord b (b.rc.toNat + 8)).toNat ≤ 1048576 ∧ b.cap.toNat < (lapWord b b.rc.toNat).toNat :=
  ⟨⟨_, rfl, by decide⟩, ⟨_, rfl, by decide⟩, ⟨_, rfl, by decide, by decide⟩,
    ⟨_, rfl, by decide, by decide, by decide⟩, _, rfl, by decide, by decide, by decide, by decide⟩

theorem test_witness_ReadsIgnoreModeAndWriteCursor :
    (Instr.rdb 0 8 = .rdu32 0 ∨ Instr.rdb 0 8 = .rdf32 0 ∨ Instr.rdb 0 8 = .rdb 0 8 ∨
      Instr.rdb 0 8 = .rdbuf 0 3) ∧
    base.withMode 0 true 3 ≠ base ∧ ∃ t, exec (.rdb 0 8) base = .next t ∧ t.fault = false :=
  ⟨by decide, by decide, _, rfl, rfl⟩

theorem test_witness_WritesIgnoreTheReadCursor :
    (Instr.wru32 0 7 = .wru32 0 7 ∨ Instr.wru32 0 7 = .wrf32 0 7 ∨ Instr.wru32 0 7 = .wrb 0 7 ∨
      Instr.wru32 0 7 = .wrbuf 0 1) ∧
    base.withRc 0 3 ≠ base ∧ ∃ t, exec (.wru32 0 7) base = .next t ∧ t.fault = false :=
  ⟨by decide, by decide, _, rfl, rfl⟩

theorem test_witness_CompletedTransfersLeaveTheCursorInStorage :
    (∃ t b, exec (.rdbuf 0 3) (serialized 4 0 0 0 0) = .next t ∧ t.fault = false ∧ t.buf 0 = some b ∧
      (Instr.rdbuf 0 3).readsThrough 0 = true) ∧
    ∃ t b, exec (.wrbuf 0 1) (pair 16 false) = .next t ∧ t.fault = false ∧ t.buf 0 = some b ∧
      (Instr.wrbuf 0 1).writesThrough 0 = true ∧ b.lin = false ∧ 4 < b.cap.toNat :=
  ⟨⟨_, _, rfl, rfl, rfl, by decide⟩, _, _, rfl, rfl, rfl, by decide, by decide, by decide⟩

/-- A word and a run that end at capacity. -/
theorem test_witness_WriteThenReadGivesTheValueBack :
    ∃ b, (fed (one (mk 16 12 12 false []))).running ∧ (fed (one (mk 16 12 12 false []))).buf 0 = some b ∧
      b.rc = b.wc ∧ b.wc.toNat + 4 ≤ b.cap.toNat ∧ b.wc.toNat + (4#32).toNat ≤ b.cap.toNat ∧
      (landsInRing b (4#32).toNat = true → 4 ≤ b.cap.toNat) ∧
      (4#32).toNat ≤ (fed (one (mk 16 12 12 false []))).din.length :=
  ⟨_, by decide, rfl, by decide, by decide, by decide, by decide, by decide⟩

theorem test_witness_NestedBufferRoundTrip :
    ∃ ob ib, (pair 16 false).running ∧ (0 : SlotId) ≠ 1 ∧ (pair 16 false).buf 0 = some ob ∧
      (pair 16 false).buf 1 = some ib ∧ (3 : SlotId).toNat < (pair 16 false).nslots ∧
      (pair 16 false).buf 3 = none ∧ ob.rc = ob.wc ∧ ob.wc.toNat + 12 + ib.cap.toNat ≤ ob.cap.toNat ∧
      ib.cap.toNat ≤ 1048576 ∧ ib.rc.toNat ≤ 1048576 ∧ ib.wc.toNat ≤ 1048576 :=
  ⟨_, _, by decide, by decide, rfl, rfl, by decide, by decide, by decide, by decide, by decide, by decide,
    by decide⟩

theorem test_witness_AlignedRingWritesGoRoundForEver :
    ∃ b, (fed (one (mk 32 0 28 false []))).running ∧ (fed (one (mk 32 0 28 false []))).buf 0 = some b ∧
      b.lin = false ∧ 4 < b.cap.toNat ∧ (4#32).toNat ∈ [1, 2, 4] ∧ (4#32).toNat ∣ b.cap.toNat ∧
      b.wc.toNat < b.cap.toNat ∧ (4#32).toNat ∣ b.wc.toNat ∧
      (4#32).toNat ≤ (fed (one (mk 32 0 28 false []))).din.length :=
  ⟨_, by decide, rfl, by decide, by decide, by decide, by decide, by decide, by decide, by decide⟩

theorem test_witness_EveryStepKeepsTheInvariant :
    (issue 0x0000000000000000DEADBEEF00000011#128 [] base).Inv ∧
    ∃ t, step (issue 0x0000000000000000DEADBEEF00000011#128 [] base) = .next t :=
  ⟨⟨by decide, by decide, by decide, fun _ h => (List.not_mem_nil h).elim, rfl⟩, _, rfl⟩

end Sys2Proof.Tests
end

section
/-! SUPPORT. What a response word carries (30_encoding.md R75) and which ones the block issues. -/

namespace Sys2Proof.Machine

/-! ### The fields of a response word -/

@[simp] theorem respCode_responseWord (v : Word) (c : Byte) (wr ww : Bool) :
    respCode (responseWord v c wr ww) = c := by
  rw [respCode, responseWord, BitVec.extractLsb'_append_eq_of_le (by decide),
    BitVec.extractLsb'_append_eq_of_add_le (by decide)]
  exact BitVec.extractLsb'_eq_self

@[simp] theorem extractLsb'_reserved_responseWord (v : Word) (c : Byte) (wr ww : Bool) :
    (responseWord v c wr ww).extractLsb' 42 22 = 0 := by
  simp only [responseWord]
  rw [BitVec.extractLsb'_append_eq_of_le (by decide), BitVec.extractLsb'_append_eq_of_le (by decide),
    BitVec.extractLsb'_append_eq_of_le (by decide), BitVec.extractLsb'_append_eq_of_le (by decide)]
  exact BitVec.extractLsb'_eq_self

/-- The block's code-only word is the fault response of 30_encoding.md R75. -/
theorem codeWord_eq_faultResp (c : Byte) : codeWord c = faultResp c := by
  apply BitVec.eq_of_getLsbD_eq
  intro j hj
  simp [codeWord, responseWord, faultResp]

/-! ### Every word the block issues is in R75's format -/

theorem responseOk_word (r : Reply) : ResponseOk r.word :=
  ⟨extractLsb'_reserved_responseWord .., .inl (by simp [Reply.word]),
    fun h => absurd (respCode_responseWord ..) h⟩

theorem responseOk_codeWord {c : Byte} (h : c ≤ 0x0A#8 ∨ c = 0xFF#8) : ResponseOk (codeWord c) := by
  have hc : respCode (codeWord c) = c := respCode_responseWord ..
  refine ⟨extractLsb'_reserved_responseWord .., ?_, fun _ => ?_⟩
  · rwa [hc]
  · rw [hc, codeWord_eq_faultResp]

/-- The codes of the faults are 0x01 to 0x0A (60_exceptions.md R160). -/
theorem FaultKind.code_range (k : FaultKind) : 0x01#8 ≤ k.code ∧ k.code ≤ 0x0A#8 := by
  cases k <;> decide

end Sys2Proof.Machine
end

section
/-! SUPPORT. The part of the invariant that also holds within a command, and that every piece of a command keeps it. -/

namespace Sys2Proof.Machine

/-- The invariant of the block but for `busy`, which is on while a command is in progress (20_memory.md R41). -/
structure State.Sound (s : State) : Prop where
  params : s.ParamsOk
  buffers : s.BuffersOk
  status : s.StatusOk
  responses : ∀ r ∈ s.rsp, ResponseOk r

/-! ### Where it comes from and what it gives -/

theorem State.Inv.sound {s : State} (h : s.Inv) : s.Sound :=
  ⟨h.params, h.buffers, h.status, h.responses⟩

/-- Once the response is taken the whole invariant holds again. -/
theorem State.Sound.inv_takeResponse {s : State} (h : s.Sound) : s.takeResponse.Inv :=
  ⟨h.params, h.buffers, h.status, h.responses, rfl⟩

/-- Reset establishes the invariant from the ranges of the parameters alone (10_state.md R28). -/
theorem State.inv_applyReset {s : State} (h : s.ParamsOk) : s.applyReset.Inv where
  params := by simpa [State.ParamsOk] using h
  buffers := by
    intro o ho b hb
    simp only [State.applyReset_slots, List.mem_replicate] at ho
    simp [ho.2] at hb
  status := .inl ⟨rfl, rfl, rfl, rfl⟩
  responses := fun _ hr => (List.not_mem_nil hr).elim
  idle := rfl

theorem State.Sound.buf_ok {s : State} (h : s.Sound) {sl : SlotId} {b : Buffer} (hb : s.buf sl = some b) :
    b.Ok s.capMax :=
  h.buffers _ (State.mem_slots_of_buf hb) b (Option.mem_toList.2 rfl)

/-- The ceiling on a decoded field is a capacity that every CAP_MAX allows (00_scope.md R4, R5). -/
theorem State.Sound.lenCeiling_le_capMax {s : State} (h : s.Sound) : Config.lenCeiling ≤ s.capMax := by
  obtain ⟨-, -, hmax, -⟩ := h.params
  exact hmax

/-! ### The updates of the state that keep it -/

section Updates

variable {s : State} (h : s.Sound)
include h

theorem State.Sound.accept (r : Request) (rest : List HostEvent) : (s.accept r rest).Sound :=
  ⟨h.params, h.buffers, h.status, h.responses⟩

theorem State.Sound.emit (bs : List Byte) : (s.emit bs).Sound :=
  ⟨h.params, h.buffers, h.status, h.responses⟩

theorem State.Sound.dropDin (n : Nat) : (s.dropDin n).Sound :=
  ⟨h.params, h.buffers, h.status, h.responses⟩

theorem State.Sound.countFree : s.countFree.Sound :=
  ⟨h.params, h.buffers, h.status, h.responses⟩

/-- Giving a slot a new content keeps the slot file in order when the content is. -/
theorem State.Sound.set_slot (sl : SlotId) (o : Option Buffer) (ho : ∀ b ∈ o.toList, b.Ok s.capMax) :
    ({ s with slots := s.slots.set sl.toNat o } : State).Sound where
  params := by simpa [State.ParamsOk, State.nslots] using h.params
  buffers := by
    intro o' ho'
    rcases List.mem_or_eq_of_mem_set ho' with hmem | rfl
    · exact h.buffers o' hmem
    · exact ho
  status := h.status
  responses := h.responses

theorem State.Sound.setBuf (sl : SlotId) {b : Buffer} (hb : b.Ok s.capMax) : (s.setBuf sl b).Sound :=
  h.set_slot sl (some b) (by simpa using hb)

theorem State.Sound.release (sl : SlotId) : (s.release sl).Sound :=
  h.set_slot sl none (by simp)

/-- A Buffer that a slot held stays in order under any change of its cursors and LWF. -/
theorem State.Sound.setBuf_of_buf {sl : SlotId} {b b' : Buffer} (hb : s.buf sl = some b) (hcap : b'.cap = b.cap)
    (hstore : b'.store = b.store) : (s.setBuf sl b').Sound := by
  refine h.setBuf sl ?_
  simpa only [Buffer.Ok, hcap, hstore] using h.buf_ok hb

/-- A Buffer built from at most CAP bytes is in order when CAP is one a slot can have (10_state.md R13, R14). -/
theorem State.Sound.construct (sl : SlotId) {cap : Word} (rc wc : Word) (lin : Bool) {bs : List Byte}
    (hcap : cap.toNat ≤ s.capMax) (hbs : bs.length ≤ cap.toNat) :
    (s.construct sl cap rc wc lin bs).Sound :=
  h.setBuf sl ⟨Memory.wf_ofBytes bs,
    Memory.bound_memWrite (fun _ hc => (List.not_mem_nil hc).elim) ((Nat.zero_add _).trans_le hbs), hcap⟩

/-- Filling a region inside the capacity keeps the storage in order (20_memory.md R47). -/
theorem State.Sound.fillRun {sl : SlotId} {b : Buffer} {off : Nat} {bs : List Byte} (hb : s.buf sl = some b)
    (hfit : off + bs.length ≤ b.cap.toNat) : (fillRun sl off bs s).Sound := by
  obtain ⟨hwf, hbound, hcap⟩ := h.buf_ok hb
  rw [fillRun_of_buf hb]
  exact h.setBuf sl ⟨Memory.wf_memWrite hwf off bs, Memory.bound_memWrite hbound hfit, hcap⟩

theorem State.Sound.setLwf (sl : SlotId) (val : Word) : (setLwf sl val s).Sound := by
  unfold Machine.setLwf
  split
  next => exact h
  next b hb => exact h.setBuf_of_buf hb rfl rfl

theorem State.Sound.respond {w : Resp} (hw : ResponseOk w) : (s.respond w).Sound where
  params := h.params
  buffers := h.buffers
  status := h.status
  responses := by
    intro r hr
    rcases List.mem_append.1 hr with hr | hr
    · exact h.responses r hr
    · rwa [List.mem_singleton.1 hr]

theorem State.Sound.answerHalted : s.answerHalted.Sound :=
  h.respond (responseOk_codeWord (.inr rfl))

theorem State.Sound.enterFault (k : FaultKind) (opc : Byte) (sl : SlotId) : (s.enterFault k opc sl).Sound :=
  have hr := h.respond (responseOk_codeWord (.inl k.code_range.2))
  ⟨hr.params, hr.buffers, .inr ⟨rfl, k.code_range⟩, hr.responses⟩

end Updates

/-! ### The pieces of a command -/

/-- A piece of a command leaves a sound state wherever it leaves one, and `Q` holds of what it completes with. -/
def Run.Leaves {α : Type} (Q : α → State → Prop) : Run α → Prop
  | .done a t => t.Sound ∧ Q a t
  | .raised _ _ t => t.Sound
  | .stuck _ => True

/-- The rule of sequence. -/
theorem Run.Leaves.bind {α β : Type} {Q : α → State → Prop} {R : β → State → Prop} {x : Run α}
    {f : α → State → Run β} (hx : x.Leaves Q) (hf : ∀ a t, t.Sound → Q a t → (f a t).Leaves R) :
    (x.bind f).Leaves R := by
  cases x with
  | done a t => exact hf a t hx.1 hx.2
  | raised k sl t => exact hx
  | stuck r => exact hx

/-- The rule of the conditional. -/
theorem Run.Leaves.ite {α : Type} {Q : α → State → Prop} {c : Prop} [Decidable c] {x y : Run α}
    (hx : c → x.Leaves Q) (hy : ¬ c → y.Leaves Q) : (if c then x else y).Leaves Q := by
  split_ifs with hc
  · exact hx hc
  · exact hy hc

section Pieces

variable {s : State} (h : s.Sound)
include h

/-- A piece that needs the Buffer of a slot raises BadSlot on a free one, with nothing changed. -/
theorem withBuf_leaves {α : Type} {Q : α → State → Prop} {f : Buffer → State → Run α} (sl : SlotId)
    (hf : ∀ b, s.buf sl = some b → (f b s).Leaves Q) : (withBuf sl f s).Leaves Q := by
  unfold withBuf
  split
  next => exact h
  next b hb => exact hf b hb

/-- A read keeps storage and capacity and returns as many bytes as it was asked for (40_cursor_arithmetic.md R92). -/
theorem readRun_leaves (sl : SlotId) (n : Nat) : (readRun sl n s).Leaves fun r _ => r.1.length = n := by
  refine withBuf_leaves h sl fun b hb => ?_
  by_cases hfit : b.rc.toNat ≤ b.cap.toNat ∧ n ≤ b.cap.toNat
  · rw [acquireRead_served hfit.1 hfit.2]
    exact ⟨h.setBuf_of_buf hb rfl rfl, by simp [lapBytes]⟩
  · rw [acquireRead_rangeFault hfit]
    exact h

/-- A write region that was acquired lies inside the capacity (40_cursor_arithmetic.md R99, R100). -/
theorem openRun_leaves (sl : SlotId) (n : Nat) :
    (openRun sl n s).Leaves fun r t => ∃ b, t.buf sl = some b ∧ r.1 + n ≤ b.cap.toNat := by
  refine withBuf_leaves h sl fun b hb => ?_
  have hset : (s.setBuf sl { b with wc := nextWc b n }).Sound := h.setBuf_of_buf hb rfl rfl
  by_cases hfit : b.wc.toNat + n ≤ b.cap.toNat ∧ (landsInRing b n = true → 4 ≤ b.cap.toNat)
  · rw [acquireWrite_accepted hfit.1 hfit.2]
    exact ⟨hset, _, State.buf_setBuf_of_buf hb, hfit.1⟩
  · have hover : b.cap.toNat < b.wc.toNat + n ∨ (landsInRing b n = true ∧ b.cap.toNat < 4) := by
      by_contra hn
      push Not at hn
      exact hfit hn
    rw [acquireWrite_overshoots hover]
    exact hset

theorem writeRun_leaves (sl : SlotId) (bs : List Byte) : (writeRun sl bs s).Leaves fun _ _ => True :=
  (openRun_leaves h sl bs.length).bind fun _ _ ht ⟨_, hb, hfit⟩ => ⟨ht.fillRun hb hfit, trivial⟩

theorem writeRuns_leaves (sl : SlotId) (parts : List (List Byte)) (w : Bool) :
    (writeRuns sl parts w s).Leaves fun _ _ => True := by
  induction parts generalizing w s with
  | nil => exact ⟨h, trivial⟩
  | cons bs rest ih => exact (writeRun_leaves h sl bs).bind fun sn _ ht _ => ih ht (w || sn)

/-- The payload has the length the command takes, and nothing but DIN changes (20_memory.md R42). -/
theorem dinTake_leaves (n : Nat) :
    (dinTake n s).Leaves fun p t => p.length = n ∧ t = { s with din := s.din.drop n } := by
  by_cases hn : n ≤ s.din.length
  · rw [dinTake_enough hn]
    exact ⟨h.dropDin n, by simpa using hn, rfl⟩
  · rw [dinTake_starved (by omega)]
    trivial

theorem readWord_leaves (sl : SlotId) : (readWord sl s).Leaves fun _ _ => True :=
  (readRun_leaves h sl _).bind fun _ _ ht _ => ⟨ht, trivial⟩

theorem writeWord_leaves (sl : SlotId) (val : Word) : (writeWord sl val s).Leaves fun _ _ => True :=
  (writeRun_leaves h sl _).bind fun _ _ ht _ => ⟨ht, trivial⟩

/-- A field that was read is at most the ceiling (42_nested_buffer.md R134, R135). -/
theorem readField_leaves (sl : SlotId) (split : Bool) :
    (readField sl split s).Leaves fun r _ => r.1.toNat ≤ Config.lenCeiling :=
  (readRun_leaves h sl _).bind fun _ _ ht _ => .ite (fun _ => ht) fun hbig => ⟨ht, not_lt.1 hbig⟩

end Pieces

end Sys2Proof.Machine
end

section
/-! CERTIFICATE. Every command and every step keeps the invariant, and reset establishes it. -/

namespace Sys2Proof.Machine

/-! ### Commands -/

/-- A check of a command that passed its common checks did not fail (60_exceptions.md R173). -/
theorem check_passes_of_commonFault_none {i : Instr} {s : State} (h : commonFault i s = none) {c : Check}
    (hc : c ∈ commonChecks i) : c.failure s = none :=
  List.findSome?_eq_none_iff.1 h c hc

/-- A command that checked its length takes one of at most CAP_MAX (60_exceptions.md R173, step 9). -/
theorem len_le_capMax_of_commonFault_none {i : Instr} {s : State} (h : commonFault i s = none)
    {sl : SlotId} {len : Word} (hc : Check.lenFits sl len ∈ commonChecks i) : len.toNat ≤ s.capMax := by
  simpa [Check.failure] using check_passes_of_commonFault_none h hc

/-- A command whose own rule leaves a sound state answers one: halted, a failed check, or the rule's end. -/
theorem command_sound {i : Instr} {body : State → Run Reply} {s t : State} (h : s.Sound)
    (ht : command i body s = .next t) (hbody : commonFault i s = none → (body s).Leaves fun _ _ => True) :
    t.Sound := by
  rcases command_cases ht with ⟨-, rfl⟩ | ⟨-, k, sl, -, rfl⟩ | ⟨-, hc, hrun⟩
  · exact h.answerHalted
  · exact h.enterFault k i.opcode sl
  · have hu := hbody hc
    rcases hrun with ⟨r, u, hr, rfl⟩ | ⟨k, sl, u, hr, rfl⟩
    · rw [hr] at hu
      exact hu.1.respond (responseOk_word r)
    · rw [hr] at hu
      exact State.Sound.enterFault hu k i.opcode sl

section Commands

variable {s t : State} (h : s.Sound)
include h

theorem execNop_sound (ht : execNop s = .next t) : t.Sound :=
  command_sound h ht fun _ => ⟨h, trivial⟩

/-- Taking a payload of LEN bytes and constructing a Buffer of capacity LEN from it, for INIT and LOAD. -/
theorem constructFromDin_leaves (sl : SlotId) {len : Word} (rc wc : Word) (lin : Bool)
    (hlen : len.toNat ≤ s.capMax) :
    ((dinTake len.toNat s).bind fun p s =>
      .done (Reply.plain 0) (s.construct sl len rc wc lin p)).Leaves fun _ _ => True := by
  refine (dinTake_leaves h len.toNat).bind fun p u hu hp => ?_
  obtain ⟨hp, rfl⟩ := hp
  exact ⟨hu.construct sl rc wc lin hlen hp.le, trivial⟩

theorem execInit_sound {sa : SlotId} {lin : Bool} {len rc0 wc0 : Word}
    (ht : execInit sa lin len rc0 wc0 s = .next t) : t.Sound := by
  refine command_sound h ht fun hc => ?_
  exact constructFromDin_leaves h sa rc0 wc0 lin
    (len_le_capMax_of_commonFault_none hc (sl := sa) (by simp [commonChecks]))

theorem execLoad_sound {sa : SlotId} {absent : Bool} {len : Word} (ht : execLoad sa absent len s = .next t) :
    t.Sound := by
  refine command_sound h ht fun hc => ?_
  refine .ite (fun _ => ?_) fun ha => .ite (fun _ => ?_) fun _ => ?_
  · exact ⟨h.construct sa 0 0 true (Nat.zero_le _) (Nat.zero_le _), trivial⟩
  · exact (h.dropDin _).countFree
  · exact constructFromDin_leaves h sa 0 0 true
      (len_le_capMax_of_commonFault_none hc (sl := sa) (by simp [commonChecks, ha]))

theorem execDrain_sound {sa : SlotId} {trunc : Bool} (ht : execDrain sa trunc s = .next t) : t.Sound := by
  refine command_sound h ht fun _ => withBuf_leaves h sa fun b _ => ?_
  refine .ite (fun _ => ?_) fun _ => .ite (fun _ => ?_) fun _ => ?_
  · exact h
  · exact (h.emit _).countFree
  · exact ⟨h.emit _, trivial⟩

theorem execFree_sound {sa : SlotId} (ht : execFree sa s = .next t) : t.Sound :=
  command_sound h ht fun _ => ⟨h.release sa, trivial⟩

theorem execQry_sound {sa : SlotId} {sel : Word} (ht : execQry sa sel s = .next t) : t.Sound :=
  command_sound h ht fun _ =>
    .ite (fun _ => ⟨h, trivial⟩) fun _ => withBuf_leaves h sa fun _ _ => ⟨h, trivial⟩

theorem execRdu32_sound {sa : SlotId} (ht : execRdu32 sa s = .next t) : t.Sound :=
  command_sound h ht fun _ => readWord_leaves h sa

theorem execWru32_sound {sa : SlotId} {val : Word} (ht : execWru32 sa val s = .next t) : t.Sound :=
  command_sound h ht fun _ => writeWord_leaves h sa val

theorem execRdf32_sound {sa : SlotId} (ht : execRdf32 sa s = .next t) : t.Sound :=
  command_sound h ht fun _ => readWord_leaves h sa

theorem execWrf32_sound {sa : SlotId} {val : Word} (ht : execWrf32 sa val s = .next t) : t.Sound :=
  command_sound h ht fun _ => (writeWord_leaves h sa val).bind fun _ _ hu _ => ⟨hu.setLwf sa val, trivial⟩

theorem execRdb_sound {sa : SlotId} {n : Word} (ht : execRdb sa n s = .next t) : t.Sound :=
  command_sound h ht fun _ => (readRun_leaves h sa _).bind fun _ _ hu _ => ⟨hu.emit _, trivial⟩

theorem execWrb_sound {sa : SlotId} {n : Word} (ht : execWrb sa n s = .next t) : t.Sound := by
  refine command_sound h ht fun _ => (openRun_leaves h sa _).bind fun r u hu hr => ?_
  obtain ⟨b, hb, hfit⟩ := hr
  refine (dinTake_leaves hu _).bind fun p v hv hp => ?_
  obtain ⟨hp, rfl⟩ := hp
  exact ⟨hv.fillRun (b := b) hb (by omega), trivial⟩

theorem execWrbuf_sound {outer inner : SlotId} (ht : execWrbuf outer inner s = .next t) : t.Sound := by
  refine command_sound h ht fun _ => withBuf_leaves h inner fun b _ => ?_
  exact (writeRuns_leaves h outer (nestedParts b) false).bind fun _ _ hu _ => ⟨hu, trivial⟩

/-- RDBUF needs no check against CAP_MAX, because the ceiling on its capacity field is below every CAP_MAX. -/
theorem execRdbuf_sound {outer dest : SlotId} (ht : execRdbuf outer dest s = .next t) : t.Sound := by
  refine command_sound h ht fun _ => ?_
  refine (readField_leaves h outer _).bind fun cap s₁ h₁ hcap => ?_
  refine (readField_leaves h₁ outer _).bind fun rc s₂ h₂ _ => ?_
  refine (readField_leaves h₂ outer _).bind fun wc s₃ h₃ _ => ?_
  refine (readRun_leaves h₃ outer _).bind fun r s₄ h₄ hr => ?_
  exact ⟨h₄.construct dest rc.1 wc.1 false (hcap.trans h₄.lenCeiling_le_capMax) hr.le, trivial⟩

theorem exec_sound {i : Instr} (ht : exec i s = .next t) : t.Sound := by
  cases i with
  | nop => exact execNop_sound h ht
  | init => exact execInit_sound h ht
  | load => exact execLoad_sound h ht
  | drain => exact execDrain_sound h ht
  | free => exact execFree_sound h ht
  | qry => exact execQry_sound h ht
  | rdu32 => exact execRdu32_sound h ht
  | wru32 => exact execWru32_sound h ht
  | rdf32 => exact execRdf32_sound h ht
  | wrf32 => exact execWrf32_sound h ht
  | rdb => exact execRdb_sound h ht
  | wrb => exact execWrb_sound h ht
  | wrbuf => exact execWrbuf_sound h ht
  | rdbuf => exact execRdbuf_sound h ht

theorem illegalCommand_sound (d : Desc) : (illegalCommand d s).Sound := by
  unfold illegalCommand
  split_ifs with hf
  · exact h.answerHalted
  · exact h.enterFault .illegalCommand d.opc d.sa

end Commands

/-! ### Steps -/

theorem step_inv {s t : State} (h : s.Inv) (ht : step s = .next t) : t.Inv := by
  rcases step_cases ht with ⟨-, rfl⟩ | ⟨rest, -, rfl⟩ | ⟨r, rest, -, hissue⟩
  · exact h
  · exact State.inv_applyReset h.params
  · have hacc := h.sound.accept r rest
    rcases hissue with ⟨rest', -, rfl⟩ | ⟨i, u, -, hu, rfl⟩ | ⟨e, -, rfl⟩
    · exact State.inv_applyReset h.params
    · exact (exec_sound hacc hu).inv_takeResponse
    · exact (illegalCommand_sound hacc r.desc).inv_takeResponse

/-- Settles O50: each piece of a command keeps the part of the invariant that holds within it, and taking the
response or reset brings the whole back. -/
theorem everyStepKeepsTheInvariant : Obligations.EveryStepKeepsTheInvariant :=
  fun _ _ h ht => step_inv h ht

/-- Settles O51: the state after reset is a reset of itself, and its parameters are in range. -/
theorem resetMeetsTheInvariant : Obligations.ResetMeetsTheInvariant :=
  State.inv_applyReset (s := State.reset) (by decide)

end Sys2Proof.Machine
end

section
/-! SUPPORT. What a command may change of the slots it writes, and where a completed transfer leaves its cursor: the
predicates, and the updates of the state that keep them. -/

namespace Sys2Proof.Machine

/-! ### What a command names -/

section Names

variable {i : Instr} {sl sl' : SlotId}

theorem mem_writes_of_readsThrough (h : i.readsThrough sl = true) : sl ∈ i.writes := by
  cases i <;> simp_all [Instr.readsThrough, Instr.writes]

theorem mem_writes_of_writesThrough (h : i.writesThrough sl = true) : sl ∈ i.writes := by
  cases i <;> simp_all [Instr.writesThrough, Instr.writes]

/-- A command reads through the cursor of one slot. -/
theorem readsThrough_unique (h : i.readsThrough sl = true) (h' : i.readsThrough sl' = true) : sl' = sl := by
  cases i <;> simp_all [Instr.readsThrough]

/-- A command writes through the cursor of one slot. -/
theorem writesThrough_unique (h : i.writesThrough sl = true) (h' : i.writesThrough sl' = true) : sl' = sl := by
  cases i <;> simp_all [Instr.writesThrough]

/-- No command goes through both kinds of cursor (40_cursor_arithmetic.md R90). -/
theorem writesThrough_eq_false_of_readsThrough (h : i.readsThrough sl = true) : i.writesThrough sl' = false := by
  cases i <;> simp_all [Instr.readsThrough, Instr.writesThrough]

end Names

/-! ### The registers of a slot that keeps its Buffer -/

/-- What command `i` may do to the registers of the Buffer in slot `sl` (10_state.md R14 to R18). -/
structure RegistersKept (i : Instr) (sl : SlotId) (b b' : Buffer) : Prop where
  cap : b'.cap = b.cap
  lin : b'.lin = b.lin
  rc : b'.rc ≠ b.rc → i.readsThrough sl = true
  wc : b'.wc ≠ b.wc → i.writesThrough sl = true
  lwf : b'.lwf ≠ b.lwf → ∃ v, i = .wrf32 sl v ∧ b'.lwf = v

namespace RegistersKept

variable {i : Instr} {sl : SlotId} {b b' b'' : Buffer}

theorem of_store (m : Memory) : RegistersKept i sl b { b with store := m } :=
  ⟨rfl, rfl, absurd rfl, absurd rfl, absurd rfl⟩

theorem refl : RegistersKept i sl b b := of_store b.store

theorem of_rc (h : i.readsThrough sl = true) (rc : Word) : RegistersKept i sl b { b with rc := rc } :=
  ⟨rfl, rfl, fun _ => h, absurd rfl, absurd rfl⟩

theorem of_wc (h : i.writesThrough sl = true) (wc : Word) : RegistersKept i sl b { b with wc := wc } :=
  ⟨rfl, rfl, absurd rfl, fun _ => h, absurd rfl⟩

theorem of_lwf (v : Word) : RegistersKept (.wrf32 sl v) sl b { b with lwf := v } :=
  ⟨rfl, rfl, absurd rfl, absurd rfl, fun _ => ⟨v, rfl, rfl⟩⟩

/-- A register that differs at the end changed in one of the two pieces. -/
theorem trans (h : RegistersKept i sl b b') (h' : RegistersKept i sl b' b'') : RegistersKept i sl b b'' where
  cap := h'.cap.trans h.cap
  lin := h'.lin.trans h.lin
  rc hne := (hne.ne_or_ne b'.rc).elim h'.rc fun hr => h.rc hr.symm
  wc hne := (hne.ne_or_ne b'.wc).elim h'.wc fun hr => h.wc hr.symm
  lwf hne := by
    by_cases heq : b''.lwf = b'.lwf
    · rw [heq] at hne ⊢
      exact h.lwf hne
    · exact h'.lwf heq

end RegistersKept

/-! ### Reading the slot file after one slot was given a content -/

theorem State.buf_set_slot_ne {s : State} {sl sl' : SlotId} {o : Option Buffer} (h : sl' ≠ sl) :
    ({ s with slots := s.slots.set sl.toNat o } : State).buf sl' = s.buf sl' := by
  have h' : sl.toNat ≠ sl'.toNat := fun e => h (BitVec.eq_of_toNat_eq e.symm)
  simp [State.buf, List.getElem?_set_ne h']

theorem State.eq_some_of_buf_set_slot {s : State} {sl : SlotId} {o : Option Buffer} {b : Buffer}
    (h : ({ s with slots := s.slots.set sl.toNat o } : State).buf sl = some b) : o = some b := by
  rw [State.buf, List.getElem?_set_self'] at h
  cases hs : s.slots[sl.toNat]? with
  | none => simp [hs] at h
  | some _ => simpa [hs] using h

/-! ### The frame of a command, from the state it began in -/

/-- `u` is reached from `s` within command `i`: the host's side stays, and so does every slot that `i` does not
write; one it writes keeps its registers as `RegistersKept` says, where it holds a Buffer in both states
(10_state.md R29). -/
structure Within (i : Instr) (s u : State) : Prop where
  outside : SameOutside s u
  others : SameSlotsBut i.writes s u
  registers : ∀ sl b b', s.buf sl = some b → u.buf sl = some b' → RegistersKept i sl b b'

namespace Within

theorem refl (i : Instr) (s : State) : Within i s s where
  outside := ⟨rfl, rfl, rfl, rfl, rfl, rfl⟩
  others := fun _ _ => rfl
  registers := fun sl b b' hb hb' => by
    obtain rfl : b = b' := Option.some.inj (hb.symm.trans hb')
    exact .refl

variable {i : Instr} {s u : State} (h : Within i s u)
include h

theorem emit (bs : List Byte) : Within i s (u.emit bs) := ⟨h.outside, h.others, h.registers⟩

theorem dropDin (n : Nat) : Within i s (u.dropDin n) := ⟨h.outside, h.others, h.registers⟩

theorem countFree : Within i s u.countFree := ⟨h.outside, h.others, h.registers⟩

theorem respond (w : Resp) : Within i s (u.respond w) := ⟨h.outside, h.others, h.registers⟩

theorem enterFault (k : FaultKind) (opc : Byte) (sl : SlotId) : Within i s (u.enterFault k opc sl) :=
  ⟨h.outside, h.others, h.registers⟩

/-- A change of one slot stays in the frame when the command writes the slot and the registers allow it. -/
theorem set_slot {sl : SlotId} (hw : sl ∈ i.writes) (o : Option Buffer)
    (hk : ∀ b b', s.buf sl = some b → o = some b' → RegistersKept i sl b b') :
    Within i s { u with slots := u.slots.set sl.toNat o } where
  outside := by simpa [SameOutside, State.nslots] using h.outside
  others sl' hn := by
    have hne : sl' ≠ sl := fun e => hn (e ▸ hw)
    rw [State.buf_set_slot_ne hne, h.others sl' hn]
  registers sl' b b' hb hb' := by
    by_cases heq : sl' = sl
    · subst heq
      exact hk b b' hb (State.eq_some_of_buf_set_slot hb')
    · rw [State.buf_set_slot_ne heq] at hb'
      exact h.registers sl' b b' hb hb'

theorem setBuf {sl : SlotId} {b b' : Buffer} (hw : sl ∈ i.writes) (hb : u.buf sl = some b)
    (hk : RegistersKept i sl b b') : Within i s (u.setBuf sl b') :=
  h.set_slot hw (some b') fun b₀ b₁ hb₀ hb₁ => by
    obtain rfl := Option.some.inj hb₁
    exact (h.registers sl b₀ b hb₀ hb).trans hk

/-- A slot that was free when the command began has no registers to keep. -/
theorem construct {sl : SlotId} (hw : sl ∈ i.writes) (hfree : s.buf sl = none) (cap rc wc : Word) (lin : Bool)
    (bs : List Byte) : Within i s (u.construct sl cap rc wc lin bs) :=
  h.set_slot hw _ fun _ _ hb _ => by simp [hfree] at hb

theorem release {sl : SlotId} (hw : sl ∈ i.writes) : Within i s (u.release sl) :=
  h.set_slot hw none fun _ _ _ ho => nomatch ho

theorem fillRun {sl : SlotId} (hw : sl ∈ i.writes) (off : Nat) (bs : List Byte) :
    Within i s (fillRun sl off bs u) := by
  unfold Machine.fillRun
  split
  next => exact h
  next b hb => exact h.setBuf hw hb (.of_store _)

end Within

theorem Within.setLwf {sl : SlotId} {v : Word} {s u : State} (h : Within (.wrf32 sl v) s u) :
    Within (.wrf32 sl v) s (setLwf sl v u) := by
  unfold Machine.setLwf
  split
  next => exact h
  next b hb => exact h.setBuf (by simp [Instr.writes]) hb (.of_lwf v)

/-! ### Where a completed transfer leaves its cursor -/

/-- The read cursor of the slot is at most its capacity (10_state.md R15). -/
def RcInStorage (sl : SlotId) (t : State) : Prop :=
  ∀ b, t.buf sl = some b → b.rc.toNat ≤ b.cap.toNat

/-- The write cursor of a Buffer is at most its capacity, and below it in a ring of capacity above 4 (10_state.md
R16). -/
def Buffer.WcInStorage (b : Buffer) : Prop :=
  b.wc.toNat ≤ b.cap.toNat ∧ (b.lin = false → 4 < b.cap.toNat → b.wc.toNat < b.cap.toNat)

/-- The write cursor of the slot is in storage. -/
def WcInStorage (sl : SlotId) (t : State) : Prop := ∀ b, t.buf sl = some b → b.WcInStorage

/-- The cursors that the command goes through are in storage. -/
def CursorsInStorage (i : Instr) (t : State) : Prop :=
  ∀ sl, (i.readsThrough sl = true → RcInStorage sl t) ∧ (i.writesThrough sl = true → WcInStorage sl t)

theorem RcInStorage.cursors {i : Instr} {sl : SlotId} {t : State} (hi : i.readsThrough sl = true)
    (h : RcInStorage sl t) : CursorsInStorage i t := fun sl' =>
  ⟨fun hr => readsThrough_unique hi hr ▸ h,
    fun hw => by simp [writesThrough_eq_false_of_readsThrough hi] at hw⟩

theorem WcInStorage.cursors {i : Instr} {sl : SlotId} {t : State} (hi : i.writesThrough sl = true)
    (h : WcInStorage sl t) : CursorsInStorage i t := fun sl' =>
  ⟨fun hr => by simp [writesThrough_eq_false_of_readsThrough hr] at hi,
    fun hw => writesThrough_unique hi hw ▸ h⟩

theorem RcInStorage.construct {sl dest : SlotId} {t : State} (h : RcInStorage sl t) (hne : sl ≠ dest)
    (cap rc wc : Word) (lin : Bool) (bs : List Byte) : RcInStorage sl (t.construct dest cap rc wc lin bs) := by
  intro b hb
  rw [State.construct, State.buf_setBuf_ne hne] at hb
  exact h b hb

/-- A Buffer with the same capacity, mode and write cursor is as good as the one it replaces. -/
theorem WcInStorage.setBuf {sl : SlotId} {t : State} {b b' : Buffer} (h : WcInStorage sl t)
    (hb : t.buf sl = some b) (hcap : b'.cap = b.cap) (hlin : b'.lin = b.lin) (hwc : b'.wc = b.wc) :
    WcInStorage sl (t.setBuf sl b') := by
  intro c hc
  obtain rfl : b' = c := Option.some.inj ((State.buf_setBuf_of_buf hb).symm.trans hc)
  simpa only [Buffer.WcInStorage, hcap, hlin, hwc] using h b hb

theorem WcInStorage.fillRun {sl : SlotId} {t : State} (h : WcInStorage sl t) (off : Nat) (bs : List Byte) :
    WcInStorage sl (fillRun sl off bs t) := by
  unfold Machine.fillRun
  split
  next => exact h
  next b hb => exact h.setBuf hb rfl rfl rfl

theorem WcInStorage.setLwf {sl : SlotId} {t : State} (h : WcInStorage sl t) (v : Word) :
    WcInStorage sl (setLwf sl v t) := by
  unfold Machine.setLwf
  split
  next => exact h
  next b hb => exact h.setBuf hb rfl rfl rfl

/-- A read that is served ends at or before capacity (40_cursor_arithmetic.md R93, R94). -/
theorem nextRc_le {cap rc n : Nat} (hrc : rc ≤ cap) (hn : n ≤ cap) : nextRc cap rc n ≤ cap := by
  unfold nextRc
  split_ifs <;> omega

/-- A write that is accepted ends in storage: the snap takes a ring's cursor off capacity (40_cursor_arithmetic.md
R97, R98). -/
theorem wcInStorage_nextWc {b : Buffer} {n : Nat} (hn : b.wc.toNat + n ≤ b.cap.toNat)
    (h4 : landsInRing b n = true → 4 ≤ b.cap.toNat) : Buffer.WcInStorage { b with wc := nextWc b n } := by
  by_cases hl : landsInRing b n = true
  · have hwc : nextWc b n = 4 := by simp [nextWc, hl]
    simpa [Buffer.WcInStorage, hwc] using h4 hl
  · have hwc : (nextWc b n).toNat = b.wc.toNat + n := by
      have := b.cap.isLt
      rw [nextWc, if_neg hl, BitVec.toNat_add, BitVec.toNat_ofNat, Nat.add_mod_mod,
        Nat.mod_eq_of_lt (by omega)]
    refine ⟨hwc ▸ hn, fun hring _ => ?_⟩
    have hne : b.wc.toNat + n ≠ b.cap.toNat := fun he => hl (by simpa [landsInRing, he] using hring)
    simp only [hwc]
    omega

end Sys2Proof.Machine
end

section
/-! SUPPORT. Every piece of a command keeps to the frame of the command, and a transfer that completes leaves its
cursor in storage. -/

namespace Sys2Proof.Machine

/-! ### The rules of the sequence of pieces -/

/-- A piece of a command leaves a state in `F` wherever it leaves one, and one in `Q` when it completes: what
`Run.Leaves` says of the invariant, for the frame of a command. -/
def Run.Meets {α : Type} (F Q : State → Prop) : Run α → Prop
  | .done _ t => F t ∧ Q t
  | .raised _ _ t => F t
  | .stuck _ => True

namespace Run.Meets

/-- The rule of sequence. -/
theorem bind {α β : Type} {F Q R : State → Prop} {x : Run α} {f : α → State → Run β} (hx : x.Meets F Q)
    (hf : ∀ a t, F t → Q t → (f a t).Meets F R) : (x.bind f).Meets F R := by
  cases x with
  | done a t => exact hf a t hx.1 hx.2
  | raised k sl t => exact hx
  | stuck r => exact hx

/-- The rule of consequence. -/
theorem mono {α : Type} {F Q R : State → Prop} {x : Run α} (hx : x.Meets F Q) (h : ∀ t, Q t → R t) :
    x.Meets F R := by
  cases x with
  | done a t => exact ⟨hx.1, h t hx.2⟩
  | raised k sl t => exact hx
  | stuck r => exact hx

/-- The rule of the conditional. -/
theorem ite {α : Type} {F Q : State → Prop} {c : Prop} [Decidable c] {x y : Run α}
    (hx : c → x.Meets F Q) (hy : ¬ c → y.Meets F Q) : (if c then x else y).Meets F Q := by
  split_ifs with hc
  · exact hx hc
  · exact hy hc

end Run.Meets

/-! ### The pieces of a command -/

section Pieces

variable {i : Instr} {s u : State} (h : Within i s u)
include h

theorem withBuf_meets {α : Type} {Q : State → Prop} {f : Buffer → State → Run α} (sl : SlotId)
    (hf : ∀ b, u.buf sl = some b → (f b u).Meets (Within i s) Q) : (withBuf sl f u).Meets (Within i s) Q := by
  unfold withBuf
  split
  next => exact h
  next b hb => exact hf b hb

/-- Nothing but DIN changes, so what is known of the slots stays known (20_memory.md R42). -/
theorem dinTake_meets {Q : State → Prop} (n : Nat) (hQ : Q (u.dropDin n)) :
    (dinTake n u).Meets (Within i s) Q :=
  .ite (fun _ => trivial) fun _ => ⟨h.dropDin n, hQ⟩

theorem readRun_meets {sl : SlotId} (hi : i.readsThrough sl = true) (n : Nat) :
    (readRun sl n u).Meets (Within i s) (RcInStorage sl) := by
  refine withBuf_meets h sl fun b hb => ?_
  by_cases hfit : b.rc.toNat ≤ b.cap.toNat ∧ n ≤ b.cap.toNat
  · obtain ⟨hrc, hn⟩ := hfit
    rw [acquireRead_served hrc hn]
    refine ⟨h.setBuf (mem_writes_of_readsThrough hi) hb (.of_rc hi _), fun c hc => ?_⟩
    rw [State.buf_setBuf_of_buf hb] at hc
    cases hc
    exact (Nat.mod_le _ _).trans (nextRc_le hrc hn)
  · rw [acquireRead_rangeFault hfit]
    exact h

theorem openRun_meets {sl : SlotId} (hi : i.writesThrough sl = true) (n : Nat) :
    (openRun sl n u).Meets (Within i s) (WcInStorage sl) := by
  refine withBuf_meets h sl fun b hb => ?_
  have hset : Within i s (u.setBuf sl { b with wc := nextWc b n }) :=
    h.setBuf (mem_writes_of_writesThrough hi) hb (.of_wc hi _)
  by_cases hover : b.cap.toNat < b.wc.toNat + n ∨ (landsInRing b n = true ∧ b.cap.toNat < 4)
  · rw [acquireWrite_overshoots hover]
    exact hset
  · simp only [not_or, not_and, not_lt] at hover
    obtain ⟨hn, h4⟩ := hover
    rw [acquireWrite_accepted hn h4]
    refine ⟨hset, fun c hc => ?_⟩
    rw [State.buf_setBuf_of_buf hb] at hc
    cases hc
    exact wcInStorage_nextWc hn h4

theorem writeRun_meets {sl : SlotId} (hi : i.writesThrough sl = true) (bs : List Byte) :
    (writeRun sl bs u).Meets (Within i s) (WcInStorage sl) :=
  (openRun_meets h hi bs.length).bind fun r _ ht hwc =>
    ⟨ht.fillRun (mem_writes_of_writesThrough hi) r.1 bs, hwc.fillRun r.1 bs⟩

/-- The last write run that completes leaves the cursor in storage. -/
theorem writeRuns_meets {sl : SlotId} (hi : i.writesThrough sl = true) (parts : List (List Byte)) (w : Bool)
    (hp : parts = [] → WcInStorage sl u) : (writeRuns sl parts w u).Meets (Within i s) (WcInStorage sl) := by
  induction parts generalizing w u with
  | nil => exact ⟨h, hp rfl⟩
  | cons bs rest ih => exact (writeRun_meets h hi bs).bind fun sn t ht hwc => ih ht (w || sn) fun _ => hwc

theorem readWord_meets {sl : SlotId} (hi : i.readsThrough sl = true) :
    (readWord sl u).Meets (Within i s) (RcInStorage sl) :=
  (readRun_meets h hi _).bind fun _ _ ht hrc => ⟨ht, hrc⟩

theorem writeWord_meets {sl : SlotId} (hi : i.writesThrough sl = true) (v : Word) :
    (writeWord sl v u).Meets (Within i s) (WcInStorage sl) :=
  (writeRun_meets h hi _).bind fun _ _ ht hwc => ⟨ht, hwc⟩

theorem readField_meets {sl : SlotId} (hi : i.readsThrough sl = true) (split : Bool) :
    (readField sl split u).Meets (Within i s) (RcInStorage sl) :=
  (readRun_meets h hi _).bind fun _ _ ht hrc => .ite (fun _ => ht) fun _ => ⟨ht, hrc⟩

/-- Taking a payload and constructing a Buffer from it in a slot that was free, for INIT and LOAD. -/
theorem constructFromDin_meets {sl : SlotId} (hw : sl ∈ i.writes) (hfree : s.buf sl = none) (len rc wc : Word)
    (lin : Bool) : ((dinTake len.toNat u).bind fun p t =>
      .done (Reply.plain 0) (t.construct sl len rc wc lin p)).Meets (Within i s) fun _ => True :=
  (dinTake_meets (Q := fun _ => True) h _ trivial).bind fun p _ ht _ =>
    ⟨ht.construct hw hfree len rc wc lin p, trivial⟩

end Pieces

end Sys2Proof.Machine
end

section
/-! CERTIFICATE. What every command changes and what it leaves, and where a transfer that completes leaves its
cursor. -/

namespace Sys2Proof.Machine

/-! ### Whole commands -/

/-- A command that began in `s` answered `t`: it kept to its frame, and unless it took a fault the cursors it went
through are in storage. -/
structure Answers (i : Instr) (s t : State) : Prop where
  within : Within i s t
  cursors : t.fault = false → CursorsInStorage i t

/-- A command keeps to its frame when its own rule does: the halted answer and a failed check change no slot. -/
theorem command_answers {i : Instr} {body : State → Run Reply} {s t : State} (ht : command i body s = .next t)
    (hbody : commonFault i s = none → (body s).Meets (Within i s) (CursorsInStorage i)) : Answers i s t := by
  have hs : Within i s s := .refl i s
  rcases command_cases ht with ⟨hf, rfl⟩ | ⟨-, k, sl, -, rfl⟩ | ⟨-, hc, hrun⟩
  · exact ⟨hs.respond _, fun hrunning => by simp [State.answerHalted, hf] at hrunning⟩
  · exact ⟨hs.enterFault .., nofun⟩
  · have hmeets := hbody hc
    rcases hrun with ⟨r, u, hr, rfl⟩ | ⟨k, sl, u, hr, rfl⟩
    · rw [hr] at hmeets
      exact ⟨hmeets.1.respond _, fun _ => hmeets.2⟩
    · rw [hr] at hmeets
      exact ⟨Within.enterFault hmeets .., nofun⟩

/-- A command that goes through no cursor has none to leave in storage. -/
theorem command_answers_of_no_cursor {i : Instr} {body : State → Run Reply} {s t : State}
    (ht : command i body s = .next t) (hr : ∀ sl, i.readsThrough sl = false)
    (hw : ∀ sl, i.writesThrough sl = false)
    (hbody : commonFault i s = none → (body s).Meets (Within i s) fun _ => True) : Answers i s t :=
  command_answers ht fun hc => (hbody hc).mono fun _ _ sl =>
    ⟨fun h => by simp [hr] at h, fun h => by simp [hw] at h⟩

/-- The destination of a command that passed its checks is free (60_exceptions.md R173, step 8). -/
theorem buf_eq_none_of_commonFault_none {i : Instr} {s : State} {sl : SlotId} (h : commonFault i s = none)
    (hc : Check.isFree sl ∈ commonChecks i) : s.buf sl = none := by
  simpa [Check.failure] using check_passes_of_commonFault_none h hc

/-- A command on two slots that passed its checks names two different ones (60_exceptions.md R173, step 6). -/
theorem ne_of_commonFault_none {i : Instr} {s : State} {sa sb : SlotId} (h : commonFault i s = none)
    (hc : Check.distinct sa sb ∈ commonChecks i) : sa ≠ sb := by
  simpa [Check.failure] using check_passes_of_commonFault_none h hc

section Commands

variable {s t : State}

theorem execNop_answers (ht : execNop s = .next t) : Answers .nop s t :=
  command_answers_of_no_cursor ht (fun _ => rfl) (fun _ => rfl) fun _ => ⟨.refl _ s, trivial⟩

theorem execInit_answers {sa : SlotId} {lin : Bool} {len rc0 wc0 : Word}
    (ht : execInit sa lin len rc0 wc0 s = .next t) : Answers (.init sa lin len rc0 wc0) s t :=
  command_answers_of_no_cursor ht (fun _ => rfl) (fun _ => rfl) fun hc =>
    constructFromDin_meets (.refl _ s) (by simp [Instr.writes])
      (buf_eq_none_of_commonFault_none hc (by simp [commonChecks])) len rc0 wc0 lin

theorem execLoad_answers {sa : SlotId} {absent : Bool} {len : Word} (ht : execLoad sa absent len s = .next t) :
    Answers (.load sa absent len) s t := by
  have hs : Within (.load sa absent len) s s := .refl _ s
  have hw : sa ∈ (Instr.load sa absent len).writes := by simp [Instr.writes]
  refine command_answers_of_no_cursor ht (fun _ => rfl) (fun _ => rfl) fun hc => ?_
  have hfree : s.buf sa = none :=
    buf_eq_none_of_commonFault_none hc (by cases absent <;> simp [commonChecks])
  refine .ite (fun _ => ?_) fun _ => .ite (fun _ => ?_) fun _ => ?_
  · exact ⟨hs.construct hw hfree .., trivial⟩
  · exact (hs.dropDin _).countFree
  · exact constructFromDin_meets hs hw hfree ..

theorem execDrain_answers {sa : SlotId} {trunc : Bool} (ht : execDrain sa trunc s = .next t) :
    Answers (.drain sa trunc) s t := by
  have hs : Within (.drain sa trunc) s s := .refl _ s
  refine command_answers_of_no_cursor ht (fun _ => rfl) (fun _ => rfl) fun _ => withBuf_meets hs sa fun b _ => ?_
  refine .ite (fun _ => ?_) fun _ => .ite (fun _ => ?_) fun _ => ?_
  · exact hs
  · exact (hs.emit _).countFree
  · exact ⟨hs.emit _, trivial⟩

theorem execFree_answers {sa : SlotId} (ht : execFree sa s = .next t) : Answers (.free sa) s t :=
  command_answers_of_no_cursor ht (fun _ => rfl) (fun _ => rfl) fun _ =>
    ⟨(Within.refl _ s).release (by simp [Instr.writes]), trivial⟩

theorem execQry_answers {sa : SlotId} {sel : Word} (ht : execQry sa sel s = .next t) :
    Answers (.qry sa sel) s t :=
  have hs : Within (.qry sa sel) s s := .refl _ s
  command_answers_of_no_cursor ht (fun _ => rfl) (fun _ => rfl) fun _ =>
    .ite (fun _ => ⟨hs, trivial⟩) fun _ => withBuf_meets hs sa fun _ _ => ⟨hs, trivial⟩

theorem execRdu32_answers {sa : SlotId} (ht : execRdu32 sa s = .next t) : Answers (.rdu32 sa) s t :=
  have hi : (Instr.rdu32 sa).readsThrough sa = true := decide_eq_true rfl
  command_answers ht fun _ => (readWord_meets (.refl _ s) hi).mono fun _ => RcInStorage.cursors hi

theorem execRdf32_answers {sa : SlotId} (ht : execRdf32 sa s = .next t) : Answers (.rdf32 sa) s t :=
  have hi : (Instr.rdf32 sa).readsThrough sa = true := decide_eq_true rfl
  command_answers ht fun _ => (readWord_meets (.refl _ s) hi).mono fun _ => RcInStorage.cursors hi

theorem execRdb_answers {sa : SlotId} {n : Word} (ht : execRdb sa n s = .next t) : Answers (.rdb sa n) s t :=
  have hi : (Instr.rdb sa n).readsThrough sa = true := decide_eq_true rfl
  command_answers ht fun _ => (readRun_meets (.refl _ s) hi _).bind fun r _ hu hrc =>
    ⟨hu.emit r.1, RcInStorage.cursors hi hrc⟩

theorem execWru32_answers {sa : SlotId} {v : Word} (ht : execWru32 sa v s = .next t) :
    Answers (.wru32 sa v) s t :=
  have hi : (Instr.wru32 sa v).writesThrough sa = true := decide_eq_true rfl
  command_answers ht fun _ => (writeWord_meets (.refl _ s) hi v).mono fun _ => WcInStorage.cursors hi

theorem execWrf32_answers {sa : SlotId} {v : Word} (ht : execWrf32 sa v s = .next t) :
    Answers (.wrf32 sa v) s t :=
  have hi : (Instr.wrf32 sa v).writesThrough sa = true := decide_eq_true rfl
  command_answers ht fun _ => (writeWord_meets (.refl _ s) hi v).bind fun _ _ hu hwc =>
    ⟨hu.setLwf, (hwc.setLwf v).cursors hi⟩

theorem execWrb_answers {sa : SlotId} {n : Word} (ht : execWrb sa n s = .next t) : Answers (.wrb sa n) s t := by
  have hi : (Instr.wrb sa n).writesThrough sa = true := decide_eq_true rfl
  refine command_answers ht fun _ => (openRun_meets (.refl _ s) hi _).bind fun r u hu hwc => ?_
  refine (dinTake_meets (Q := WcInStorage sa) hu _ hwc).bind fun p v hv hwc => ?_
  exact ⟨hv.fillRun (mem_writes_of_writesThrough hi) r.1 p, (hwc.fillRun r.1 p).cursors hi⟩

theorem execWrbuf_answers {outer inner : SlotId} (ht : execWrbuf outer inner s = .next t) :
    Answers (.wrbuf outer inner) s t := by
  have hs : Within (.wrbuf outer inner) s s := .refl _ s
  have hi : (Instr.wrbuf outer inner).writesThrough outer = true := decide_eq_true rfl
  refine command_answers ht fun _ => withBuf_meets hs inner fun b _ => ?_
  exact (writeRuns_meets hs hi (nestedParts b) false nofun).bind fun _ _ hu hwc => ⟨hu, hwc.cursors hi⟩

/-- The destination is another slot than the one read through, so its construction does not move that cursor. -/
theorem execRdbuf_answers {outer dest : SlotId} (ht : execRdbuf outer dest s = .next t) :
    Answers (.rdbuf outer dest) s t := by
  have hi : (Instr.rdbuf outer dest).readsThrough outer = true := decide_eq_true rfl
  refine command_answers ht fun hc => ?_
  have hfree : s.buf dest = none := buf_eq_none_of_commonFault_none hc (by simp [commonChecks])
  have hne : outer ≠ dest := ne_of_commonFault_none hc (by simp [commonChecks])
  refine (readField_meets (.refl _ s) hi _).bind fun cap s₁ h₁ _ => ?_
  refine (readField_meets h₁ hi _).bind fun rc s₂ h₂ _ => ?_
  refine (readField_meets h₂ hi _).bind fun wc s₃ h₃ _ => ?_
  refine (readRun_meets h₃ hi _).bind fun r s₄ h₄ hrc => ?_
  exact ⟨h₄.construct (by simp [Instr.writes]) hfree ..,
    (hrc.construct hne cap.1 rc.1 wc.1 false r.1).cursors hi⟩

theorem exec_answers {i : Instr} (ht : exec i s = .next t) : Answers i s t := by
  cases i with
  | nop => exact execNop_answers ht
  | init => exact execInit_answers ht
  | load => exact execLoad_answers ht
  | drain => exact execDrain_answers ht
  | free => exact execFree_answers ht
  | qry => exact execQry_answers ht
  | rdu32 => exact execRdu32_answers ht
  | wru32 => exact execWru32_answers ht
  | rdf32 => exact execRdf32_answers ht
  | wrf32 => exact execWrf32_answers ht
  | rdb => exact execRdb_answers ht
  | wrb => exact execWrb_answers ht
  | wrbuf => exact execWrbuf_answers ht
  | rdbuf => exact execRdbuf_answers ht

end Commands

/-! ### The obligations on commands -/

/-- Settles O19: read off the frame of the command. -/
theorem commandsLeaveOtherSlots : Obligations.CommandsLeaveOtherSlots := by
  intro i s t ht
  have hw := (exec_answers ht).within
  exact ⟨hw.others, hw.outside, fun sl hsl off => State.peek_congr (hw.others sl hsl) off⟩

/-- Settles O27: read off the frame of the command. -/
theorem onlyTheNamedCommandsChangeARegister : Obligations.OnlyTheNamedCommandsChangeARegister := by
  intro i s t sl b b' ht hb hb'
  obtain ⟨hcap, hlin, hrc, hwc, hlwf⟩ := (exec_answers ht).within.registers sl b b' hb hb'
  exact ⟨hcap, hlin, hrc, hwc, hlwf⟩

/-- Settles O46: the last piece of a transfer that completes leaves the cursor it went through in storage. -/
theorem completedTransfersLeaveTheCursorInStorage : Obligations.CompletedTransfersLeaveTheCursorInStorage := by
  intro i s t sl b ht hf hb
  obtain ⟨hread, hwrite⟩ := (exec_answers ht).cursors hf sl
  exact ⟨fun hr => hread hr b hb, fun hw => hwrite hw b hb⟩

end Sys2Proof.Machine
end

section
/-! CERTIFICATE. The state after reset, how a step takes an accepted descriptor, the halted block, and the pc. -/

namespace Sys2Proof.Machine

/-- Settles O9: the state after reset is a reset of itself. -/
theorem resetValues : Obligations.ResetValues :=
  ⟨State.buf_applyReset State.reset, rfl, rfl, rfl, rfl, rfl, rfl, rfl, rfl⟩

/-! ### A step that accepts a descriptor -/

theorem wellFormed_of_decode {d : Desc} {i : Instr} (h : decode d = .ok i) : i.wellFormed = true := by
  unfold decode at h
  split at h
  · cases h
  · split at h
    · cases h; assumption
    · cases h

section Accepted

variable {s : State} {r : Request} {rest : List HostEvent} (hh : s.host = .issue r :: rest)
  (ha : r.accepts = true)
include hh ha

theorem fetch_accepted : fetch s = .command r.desc (s.accept r rest) := by
  simp [fetch, hh, ha]

theorem step_of_decode_ok {i : Instr} (hd : decode r.desc = .ok i) :
    step s = endCommand (s.accept r rest) (exec i (s.accept r rest)) := by
  simp [step, fetch_accepted hh ha, hd]

theorem step_of_decode_error {e : Reject} (hd : decode r.desc = .error e) :
    step s = .next (illegalCommand r.desc (s.accept r rest)).takeResponse := by
  simp [step, fetch_accepted hh ha, hd]

end Accepted

/-- Settles O7: a step fetches the descriptor, decodes it and ends the command on the host's side. -/
theorem stepRunsTheDecodedCommand : Obligations.StepRunsTheDecodedCommand := by
  intro s r rest i hh ha hd
  have hstep := step_of_decode_ok hh ha hd
  refine ⟨wellFormed_of_decode hd, rfl, hstep, fun t ht => ?_⟩
  rw [hstep, ht, endCommand_next]
  rfl

/-! ### The halted block -/

/-- The meaning of every command is `command` at its own rule, which begins with the test of FAULT
(60_exceptions.md R171, R173). -/
theorem exec_halted {s : State} (h : s.fault = true) (i : Instr) : exec i s = .next s.answerHalted := by
  cases i <;> unfold exec <;> exact command_halted h

theorem illegalCommand_halted {s : State} (h : s.fault = true) (d : Desc) :
    illegalCommand d s = s.answerHalted := by
  simp [illegalCommand, h]

/-- Legal or not, a descriptor accepted by a halted block is answered Halted (60_exceptions.md R171). -/
theorem step_halted {s : State} {r : Request} {rest : List HostEvent} (h : s.fault = true)
    (hh : s.host = .issue r :: rest) (ha : r.accepts = true) :
    step s = .next (s.accept r rest).answerHalted.takeResponse := by
  have hacc : (s.accept r rest).fault = true := h
  cases hd : decode r.desc with
  | ok i => rw [step_of_decode_ok hh ha hd, exec_halted hacc, endCommand_next]
  | error e => rw [step_of_decode_error hh ha hd, illegalCommand_halted hacc]

/-- Without `rst` among the host's actions a step keeps FAULT = 1 (10_state.md R22). -/
theorem fault_of_step_of_no_rst {s t : State} (h : s.fault = true) (ht : step s = .next t) (hn : .rst ∉ s.host) :
    t.fault = true := by
  rcases step_cases ht with ⟨-, rfl⟩ | ⟨rest, hh, -⟩ | ⟨r, rest, hh, hissue⟩
  · exact h
  · simp [hh] at hn
  · have hacc : (s.accept r rest).fault = true := h
    rcases hissue with ⟨rest', rfl, -⟩ | ⟨i, u, -, hu, rfl⟩ | ⟨e, -, rfl⟩
    · simp [hh] at hn
    · rw [exec_halted hacc] at hu
      cases hu
      exact h
    · rw [illegalCommand_halted hacc]
      exact h

/-- Settles O11: the step of a halted block on a descriptor is known in full, and none but `rst` clears FAULT. -/
theorem haltedBlockAnswersHalted : Obligations.HaltedBlockAnswersHalted :=
  ⟨fun _ _ _ h hh ha => step_halted h hh ha, fun _ _ => fault_of_step_of_no_rst⟩

/-! ### The pc -/

theorem pc_illegalCommand (d : Desc) (s : State) : (illegalCommand d s).pc = s.pc := by
  unfold illegalCommand
  split_ifs <;> rfl

/-- Settles O13: accepting a descriptor counts it, and neither the command nor `rst` writes the pc. -/
theorem everyDescriptorAdvancesThePc : Obligations.EveryDescriptorAdvancesThePc := by
  intro s t ht
  rcases step_cases ht with ⟨hh, rfl⟩ | ⟨rest, hh, rfl⟩ | ⟨r, rest, hh, hissue⟩
  · simp [hh]
  · simp [hh]
  · have hpc : t.pc = s.pc + 1 := by
      rcases hissue with ⟨rest', -, rfl⟩ | ⟨i, u, -, hu, rfl⟩ | ⟨e, -, rfl⟩
      · rfl
      · obtain ⟨-, hpc, -⟩ := (exec_answers hu).within.outside
        exact hpc
      · exact pc_illegalCommand r.desc (s.accept r rest)
    simp [hh, hpc]

end Sys2Proof.Machine
end

section
/-! CERTIFICATE. The byte order of 20_memory.md R44. -/

namespace Sys2Proof.Machine

/-- LE32 as divisions of the value by powers of 256, low byte first. -/
theorem le32_eq_ofNat (v : Word) : le32 v = [BitVec.ofNat 8 v.toNat, BitVec.ofNat 8 (v.toNat / 256),
    BitVec.ofNat 8 (v.toNat / 65536), BitVec.ofNat 8 (v.toNat / 16777216)] := by
  simp [le32, BitVec.extractLsb', Nat.shiftRight_eq_div_pow]

/-- Up to 4 bytes fit a word, so UnLE32 loses nothing of their number. -/
theorem toNat_unLE32 {bs : List Byte} (h : bs.length ≤ 4) : (unLE32 bs).toNat = leNat bs := by
  have hfit : 256 ^ bs.length ≤ 2 ^ 32 := Nat.pow_le_pow_right (n := 256) (by decide) h
  exact Nat.mod_eq_of_lt ((leNat_lt bs).trans_le hfit)

theorem toNat_unLE32_four (b0 b1 b2 b3 : Byte) : (unLE32 [b0, b1, b2, b3]).toNat =
    b0.toNat + 256 * b1.toNat + 65536 * b2.toNat + 16777216 * b3.toNat := by
  rw [toNat_unLE32 (by simp)]
  simp only [leNat]
  omega

@[simp] theorem unLE32_le32 (v : Word) : unLE32 (le32 v) = v := by
  apply BitVec.eq_of_toNat_eq
  rw [le32_eq_ofNat, toNat_unLE32_four]
  simp only [BitVec.toNat_ofNat]
  omega

theorem le32_unLE32 (b0 b1 b2 b3 : Byte) : le32 (unLE32 [b0, b1, b2, b3]) = [b0, b1, b2, b3] := by
  rw [le32_eq_ofNat, toNat_unLE32_four]
  simp only [List.cons.injEq, and_true]
  refine ⟨?_, ?_, ?_, ?_⟩ <;> bv_omega

/-- Settles O43: both inverses are arithmetic on the four digits of the value in base 256. -/
theorem littleEndianCodec : Obligations.LittleEndianCodec :=
  ⟨le32_eq_ofNat, toNat_unLE32_four, unLE32_le32, le32_unLE32, by decide⟩

end Sys2Proof.Machine
end

section
/-! CERTIFICATE. The span of the status output `busy` (20_memory.md R41). -/

namespace Sys2Proof.Machine

theorem fetch_not_accepted {s : State} {r : Request} {rest : List HostEvent} (hh : s.host = .issue r :: rest)
    (ha : r.accepts = false) : fetch s = .stuck .outputNotAccepted (s.accept r rest) := by
  simp [fetch, hh, ha]

theorem busy_exec {i : Instr} {s t : State} (h : exec i s = .next t) : t.busy = s.busy := by
  obtain ⟨-, -, -, -, -, hbusy⟩ := (exec_answers h).within.outside
  exact hbusy

/-- A step on an action of the host ends in a taken response or in a reset. -/
theorem busy_step {s t : State} (h : step s = .next t) (hh : s.host ≠ []) : t.busy = false := by
  rcases step_cases h with ⟨hnil, -⟩ | ⟨_, -, rfl⟩ | ⟨r, rest, -, hissue⟩
  · exact absurd hnil hh
  · rfl
  · rcases hissue with ⟨_, -, rfl⟩ | ⟨_, _, -, -, rfl⟩ | ⟨_, -, rfl⟩ <;> rfl

theorem step_idle {s : State} (hh : s.host = []) : step s = .next s := by
  simp [step, fetch, hh]

/-- Settles O52: acceptance sets `busy`, no command writes it, and every step that takes an action of the host clears
it. -/
theorem busyFromAcceptanceToResponse : Obligations.BusyFromAcceptanceToResponse := by
  refine ⟨rfl, fun s r rest hh => ?_, fun s t ht => ⟨busy_step ht, fun hh => ?_⟩⟩
  · exact ⟨fetch_accepted hh, fetch_not_accepted hh, rfl, fun _ _ => busy_exec⟩
  · rw [step_idle hh] at ht
    cases ht
    rfl

end Sys2Proof.Machine
end

section
/-! SUPPORT. The opcode table read field by field: which descriptors a row selects, and what each of them decodes to
(30_encoding.md R61 to R66, R72). -/

namespace Sys2Proof

/-! ### The control word and its fields -/

/-- Equal fields have equal bits. -/
theorem getLsbD_eq_of_extractLsb'_eq {w start len j : Nat} {x y : BitVec w}
    (h : x.extractLsb' start len = y.extractLsb' start len) (hlo : start ≤ j) (hhi : j < start + len) :
    x.getLsbD j = y.getLsbD j := by
  have hbit := congrArg (BitVec.getLsbD · (j - start)) h
  have hlt : j - start < len := by omega
  simpa [BitVec.getLsbD_extractLsb', hlt, Nat.add_sub_cancel' hlo] using hbit

/-- The fields of R61 cover a control word. -/
theorem Word.eq_iff_fields {x y : Word} : x = y ↔
    x.extractLsb' 0 8 = y.extractLsb' 0 8 ∧ x.extractLsb' 8 4 = y.extractLsb' 8 4 ∧
    x.extractLsb' 12 4 = y.extractLsb' 12 4 ∧ x.getLsbD 16 = y.getLsbD 16 ∧
    x.extractLsb' 17 15 = y.extractLsb' 17 15 := by
  refine ⟨fun h => h ▸ ⟨rfl, rfl, rfl, rfl, rfl⟩, fun ⟨hopc, hsa, hsb, hf0, hrsv⟩ => ?_⟩
  apply BitVec.eq_of_getLsbD_eq
  intro j hj
  obtain h | h | h | rfl | h : j < 8 ∨ (8 ≤ j ∧ j < 12) ∨ (12 ≤ j ∧ j < 16) ∨ j = 16 ∨ 17 ≤ j := by omega
  · exact getLsbD_eq_of_extractLsb'_eq hopc (Nat.zero_le j) (by omega)
  · exact getLsbD_eq_of_extractLsb'_eq hsa h.1 h.2
  · exact getLsbD_eq_of_extractLsb'_eq hsb h.1 h.2
  · exact hf0
  · exact getLsbD_eq_of_extractLsb'_eq hrsv h hj

/-- RSV = W0[31:17] (30_encoding.md R61). -/
def Desc.rsv (d : Desc) : BitVec 15 := d.extractLsb' 17 15

theorem Desc.extractLsb'_w0 (d : Desc) {start len : Nat} (h : start + len ≤ 32) :
    d.w0.extractLsb' start len = d.extractLsb' start len :=
  BitVec.extractLsb'_extractLsb'_of_le h

@[simp] theorem Desc.getLsbD_w0_16 (d : Desc) : d.w0.getLsbD 16 = d.f0 := by
  simp [Desc.w0, Desc.f0]

/-- Two control words are equal when their five fields are. -/
theorem Desc.w0_eq_iff {d d' : Desc} : d.w0 = d'.w0 ↔
    d.opc = d'.opc ∧ d.sa = d'.sa ∧ d.sb = d'.sb ∧ d.f0 = d'.f0 ∧ d.rsv = d'.rsv := by
  rw [Word.eq_iff_fields]
  simp only [Desc.extractLsb'_w0 _ (show 0 + 8 ≤ 32 by decide), Desc.extractLsb'_w0 _ (show 8 + 4 ≤ 32 by decide),
    Desc.extractLsb'_w0 _ (show 12 + 4 ≤ 32 by decide), Desc.extractLsb'_w0 _ (show 17 + 15 ≤ 32 by decide),
    Desc.getLsbD_w0_16]
  rfl

/-! ### The rows of the table -/

/-- The opcode a row matches (30_encoding.md R64). -/
def Row.opc (r : Row) : Byte := r.pattern.extractLsb' 0 8

theorem map_opc_opcodeRows : opcodeRows.map Row.opc = legalOpcodes := by decide

/-- A row is found by its opcode (30_encoding.md R63). -/
theorem eq_of_opc_eq {r r' : Row} (hr : r ∈ opcodeRows) (hr' : r' ∈ opcodeRows) (h : r.opc = r'.opc) : r = r' :=
  List.inj_on_of_nodup_map (f := Row.opc) (by rw [map_opc_opcodeRows]; decide) hr hr' h

/-- The fields of W0 that the command of this opcode does not use are 0 (30_encoding.md R61, R63). -/
def Desc.UnusedZero (d : Desc) : Prop :=
  (d.opc = 0x00#8 → d.sa = 0) ∧
  (d.opc ≠ 0x20#8 → d.opc ≠ 0x21#8 → d.sb = 0) ∧
  (d.opc ≠ 0x01#8 → d.opc ≠ 0x02#8 → d.opc ≠ 0x03#8 → d.f0 = false) ∧
  d.rsv = 0

/-- A row compares each field of W0 apart. -/
theorem Row.selects_iff_fields {r : Row} {d : Desc} : r.selects d = true ↔
    d.opc &&& r.mask.extractLsb' 0 8 = r.opc ∧
    d.sa &&& r.mask.extractLsb' 8 4 = r.pattern.extractLsb' 8 4 ∧
    d.sb &&& r.mask.extractLsb' 12 4 = r.pattern.extractLsb' 12 4 ∧
    (d.f0 && r.mask.getLsbD 16) = r.pattern.getLsbD 16 ∧
    d.rsv &&& r.mask.extractLsb' 17 15 = r.pattern.extractLsb' 17 15 := by
  rw [Row.selects, beq_iff_eq, Word.eq_iff_fields]
  simp only [BitVec.extractLsb'_and, BitVec.getLsbD_and, Desc.extractLsb'_w0 _ (show 0 + 8 ≤ 32 by decide),
    Desc.extractLsb'_w0 _ (show 8 + 4 ≤ 32 by decide), Desc.extractLsb'_w0 _ (show 12 + 4 ≤ 32 by decide),
    Desc.extractLsb'_w0 _ (show 17 + 15 ≤ 32 by decide), Desc.getLsbD_w0_16]
  rfl

/-- The row of an opcode selects the descriptors of that opcode whose unused fields of W0 are 0. -/
theorem selects_iff {r : Row} (hr : r ∈ opcodeRows) {d : Desc} :
    r.selects d = true ↔ d.opc = r.opc ∧ d.UnusedZero := by
  have h8 (x : Byte) : x &&& 255#8 = x := BitVec.and_allOnes
  have h4 (x : SlotId) : x &&& 15#4 = x := BitVec.and_allOnes
  have h15 (x : BitVec 15) : x &&& 32767#15 = x := BitVec.and_allOnes
  rw [Row.selects_iff_fields, Desc.UnusedZero]
  fin_cases hr
  all_goals
    simp only [Row.opc, BitVec.reduceExtractLsb', BitVec.reduceGetLsb, h8, h4, h15]
    refine and_congr_right fun hopc => ?_
    simp [hopc]

/-- No two rows select the same descriptor (30_encoding.md R64). -/
theorem eq_of_selects {r r' : Row} {d : Desc} (hr : r ∈ opcodeRows) (hr' : r' ∈ opcodeRows)
    (hs : r.selects d = true) (hs' : r'.selects d = true) : r = r' :=
  eq_of_opc_eq hr hr' (((selects_iff hr).1 hs).1.symm.trans ((selects_iff hr').1 hs').1)

/-! ### The decoder -/

/-- The row of its opcode decides the decoding of a descriptor (30_encoding.md R72). -/
theorem decode_of_selects {r : Row} {d : Desc} (hr : r ∈ opcodeRows) (hs : r.selects d = true) :
    decode d = if (r.build d).wellFormed then .ok (r.build d) else .error .badSelector := by
  unfold decode
  cases hfind : opcodeRows.find? (fun r => r.selects d) with
  | none => exact absurd hs (List.find?_eq_none.1 hfind r hr)
  | some r' =>
    have hr' := List.mem_of_find?_eq_some hfind
    have hs' : r'.selects d = true := List.find?_some (p := fun r : Row => r.selects d) hfind
    obtain rfl : r' = r := eq_of_selects hr' hr hs' hs
    rfl

/-- A descriptor that no row selects is illegal (30_encoding.md R66). -/
theorem decode_of_not_selected {d : Desc} (h : ∀ r ∈ opcodeRows, ¬ r.selects d = true) :
    decode d = .error .noMatch := by
  simp [decode, List.find?_eq_none.2 h]

/-- What decodes was selected by a row that makes its command. -/
theorem exists_row_of_decode {d : Desc} {i : Instr} (h : decode d = .ok i) :
    ∃ r ∈ opcodeRows, r.selects d = true ∧ r.build d = i := by
  by_cases hsel : ∃ r ∈ opcodeRows, r.selects d = true
  · obtain ⟨r, hr, hs⟩ := hsel
    rw [decode_of_selects hr hs] at h
    split_ifs at h
    cases h
    exact ⟨r, hr, hs, rfl⟩
  · push Not at hsel
    rw [decode_of_not_selected hsel] at h
    cases h

/-- The one command that a row can make and that is not legal is QRY with a selector above 4 (30_encoding.md R66). -/
theorem wellFormed_build_iff {r : Row} (hr : r ∈ opcodeRows) {d : Desc} :
    (r.build d).wellFormed = true ↔ ¬ (r.opc = 0x05#8 ∧ 4 < d.w1.toNat) := by
  fin_cases hr
  all_goals simp [Row.opc, Instr.wellFormed]

end Sys2Proof
end

section
/-! CERTIFICATE. Decoding and encoding (30_encoding.md R60 to R73). -/

namespace Sys2Proof

/-! ### Encoding, then decoding -/

@[simp] theorem opc_encode (i : Instr) : (encode i).opc = i.opcode := by
  cases i <;> exact opc_packDesc ..

/-- The descriptor of a command is 0 in every field of W0 that the command does not use. -/
theorem unusedZero_encode (i : Instr) : (encode i).UnusedZero := by
  cases i <;> simp [Desc.UnusedZero, Desc.rsv, encode, Instr.opcode]

/-- Every command is made by the row of its opcode from the fields and words of its descriptor (30_encoding.md R62,
R63, R73). -/
theorem exists_row_build_encode (i : Instr) : ∃ r ∈ opcodeRows, r.opc = i.opcode ∧ r.build (encode i) = i := by
  cases i with
  | nop => exact ⟨opcodeRows[0], List.getElem_mem _, rfl, rfl⟩
  | init => exact ⟨opcodeRows[1], List.getElem_mem _, rfl, by simp [opcodeRows, encode]⟩
  | load => exact ⟨opcodeRows[2], List.getElem_mem _, rfl, by simp [opcodeRows, encode]⟩
  | drain => exact ⟨opcodeRows[3], List.getElem_mem _, rfl, by simp [opcodeRows, encode]⟩
  | free => exact ⟨opcodeRows[4], List.getElem_mem _, rfl, by simp [opcodeRows, encode]⟩
  | qry => exact ⟨opcodeRows[5], List.getElem_mem _, rfl, by simp [opcodeRows, encode]⟩
  | rdu32 => exact ⟨opcodeRows[6], List.getElem_mem _, rfl, by simp [opcodeRows, encode]⟩
  | wru32 => exact ⟨opcodeRows[7], List.getElem_mem _, rfl, by simp [opcodeRows, encode]⟩
  | rdf32 => exact ⟨opcodeRows[8], List.getElem_mem _, rfl, by simp [opcodeRows, encode]⟩
  | wrf32 => exact ⟨opcodeRows[9], List.getElem_mem _, rfl, by simp [opcodeRows, encode]⟩
  | rdb => exact ⟨opcodeRows[10], List.getElem_mem _, rfl, by simp [opcodeRows, encode]⟩
  | wrb => exact ⟨opcodeRows[11], List.getElem_mem _, rfl, by simp [opcodeRows, encode]⟩
  | wrbuf => exact ⟨opcodeRows[12], List.getElem_mem _, rfl, by simp [opcodeRows, encode]⟩
  | rdbuf => exact ⟨opcodeRows[13], List.getElem_mem _, rfl, by simp [opcodeRows, encode]⟩

/-- Settles O2: the row of the command's opcode selects its descriptor and makes the command again. -/
theorem decodeOfEncodeIsIdentity : Obligations.DecodeOfEncodeIsIdentity := by
  intro i hwf
  obtain ⟨r, hr, hopc, hbuild⟩ := exists_row_build_encode i
  have hs : r.selects (encode i) = true := (selects_iff hr).2 ⟨(opc_encode i).trans hopc.symm, unusedZero_encode i⟩
  rw [decode_of_selects hr hs, hbuild, if_pos hwf]

/-! ### Decoding, then encoding -/

/-- What a row makes of a descriptor it selects has that descriptor's fields and used words (30_encoding.md R62,
R69). -/
theorem encode_build {r : Row} (hr : r ∈ opcodeRows) {d : Desc} (hs : r.selects d = true) :
    (encode (r.build d)).w0 = d.w0 ∧ (d.usesW1 = true → (encode (r.build d)).w1 = d.w1) ∧
    (d.opc = 0x01#8 → (encode (r.build d)).w2 = d.w2 ∧ (encode (r.build d)).w3 = d.w3) := by
  obtain ⟨hopc, hz⟩ := (selects_iff hr).1 hs
  rw [Desc.w0_eq_iff]
  rw [Desc.UnusedZero, hopc] at hz
  rw [Desc.usesW1, hopc]
  fin_cases hr
  all_goals
    simp_all [Row.opc, Desc.rsv, encode, Instr.opcode]

/-- Settles O3: the command was made by a row that selects the descriptor. -/
theorem encodeAgreesWithTheDescriptor : Obligations.EncodeAgreesWithTheDescriptor := by
  intro d i hd
  obtain ⟨r, hr, hs, rfl⟩ := exists_row_of_decode hd
  exact ⟨Machine.wellFormed_of_decode hd, encode_build hr hs⟩

/-- Settles O4: a row is found by its opcode, and every row that selects a descriptor matches its opcode. -/
theorem oneRowSelectsADescriptor : Obligations.OneRowSelectsADescriptor := by
  intro d r hr hs
  refine ⟨fun r' hr' hs' => ?_, decode_of_selects hr hs⟩
  obtain rfl : r' = r := eq_of_selects hr' hr hs' hs
  exact ⟨rfl, rfl⟩

/-- Settles O1: the decoder computes. -/
theorem knownWordsDecode : Obligations.KnownWordsDecode := by
  refine ⟨?_, ?_, ?_, ?_, ?_, ?_⟩ <;> decide

end Sys2Proof
end

section
/-! CERTIFICATE. The illegal descriptors, and the operand words that are not examined (30_encoding.md R65, R66). -/

namespace Sys2Proof.Machine

/-! ### Illegal descriptors -/

/-- Every legal opcode has its row (30_encoding.md R63). -/
theorem exists_row_of_mem_legalOpcodes {c : Byte} (h : c ∈ legalOpcodes) : ∃ r ∈ opcodeRows, r.opc = c := by
  rw [← map_opc_opcodeRows] at h
  exact List.mem_map.1 h

theorem opc_mem_legalOpcodes {r : Row} (hr : r ∈ opcodeRows) : r.opc ∈ legalOpcodes :=
  map_opc_opcodeRows ▸ List.mem_map_of_mem hr

/-- R66's list denies, field by field, what a legal descriptor needs. -/
theorem not_illegal_iff {d : Desc} :
    ¬ d.Illegal ↔ d.opc ∈ legalOpcodes ∧ d.UnusedZero ∧ ¬ (d.opc = 0x05#8 ∧ 4 < d.w1.toNat) := by
  simp only [Desc.Illegal, Desc.UnusedZero, Desc.rsv, not_or, not_and, not_not,
    ← Bool.not_eq_true]
  tauto

/-- The decoder accepts exactly the descriptors that R66 does not list (30_encoding.md R66, R72). -/
theorem exists_decode_ok_iff {d : Desc} : (∃ i, decode d = .ok i) ↔ ¬ d.Illegal := by
  rw [not_illegal_iff]
  constructor
  · rintro ⟨i, hd⟩
    obtain ⟨r, hr, hs, rfl⟩ := exists_row_of_decode hd
    obtain ⟨hopc, hz⟩ := (selects_iff hr).1 hs
    have hwf := (wellFormed_build_iff hr).1 (wellFormed_of_decode hd)
    exact ⟨hopc ▸ opc_mem_legalOpcodes hr, hz, hopc ▸ hwf⟩
  · rintro ⟨hlegal, hz, hsel⟩
    obtain ⟨r, hr, hopc⟩ := exists_row_of_mem_legalOpcodes hlegal
    refine ⟨r.build d, ?_⟩
    rw [decode_of_selects hr ((selects_iff hr).2 ⟨hopc.symm, hz⟩),
      if_pos ((wellFormed_build_iff hr).2 (hopc ▸ hsel))]

theorem exists_decode_error_iff {d : Desc} : (∃ e, decode d = .error e) ↔ d.Illegal := by
  rw [← not_iff_not, ← exists_decode_ok_iff]
  cases decode d <;> simp

/-- Settles O5: R66 lists what the decoder refuses, and a running block answers what it refuses with
IllegalCommand. -/
theorem illegalDescriptorsAreExactlyThese : Obligations.IllegalDescriptorsAreExactlyThese := by
  refine ⟨fun d => exists_decode_error_iff, fun s r rest hrun hh ha hill => ?_⟩
  obtain ⟨e, hd⟩ := exists_decode_error_iff.2 hill
  have hacc : (s.accept r rest).fault = false := hrun
  rw [step_of_decode_error hh ha hd, illegalCommand, hacc, ← codeWord_eq_faultResp]
  rfl

/-! ### Ignored words -/

/-- The descriptors agree in W0 and in every operand word that the command uses (30_encoding.md R62). -/
structure AgreeWhereUsed (d d' : Desc) : Prop where
  w0 : d.w0 = d'.w0
  w1 : d.usesW1 = true → d.w1 = d'.w1
  w23 : d.opc = 0x01#8 → d.w2 = d'.w2 ∧ d.w3 = d'.w3

/-- The commands are the same but for the length of an absent LOAD, which is ignored (30_encoding.md R62). -/
def SameCommand (i i' : Instr) : Prop :=
  i = i' ∨ ∃ sa len len', i = .load sa true len ∧ i' = .load sa true len'

theorem SameCommand.exec_eq {i i' : Instr} (h : SameCommand i i') (s : State) : exec i s = exec i' s := by
  obtain rfl | ⟨sa, len, len', rfl, rfl⟩ := h
  · rfl
  · rfl

theorem AgreeWhereUsed.selects_eq {d d' : Desc} (h : AgreeWhereUsed d d') (r : Row) : r.selects d = r.selects d' := by
  simp only [Row.selects, h.w0]

theorem AgreeWhereUsed.build_sameCommand {d d' : Desc} (h : AgreeWhereUsed d d') {r : Row} (hr : r ∈ opcodeRows)
    (hs : r.selects d = true) : SameCommand (r.build d) (r.build d') := by
  obtain ⟨hopc, -⟩ := (selects_iff hr).1 hs
  obtain ⟨hw0, hw1, hw23⟩ := h
  obtain ⟨-, hsa, hsb, hf0, -⟩ := Desc.w0_eq_iff.1 hw0
  rw [Desc.usesW1, hopc] at hw1
  rw [hopc] at hw23
  by_cases habsent : r.opc = 0x02#8 ∧ d.f0 = true
  · obtain ⟨hload, hf⟩ := habsent
    obtain rfl : r = opcodeRows[2] := eq_of_opc_eq hr (List.getElem_mem _) hload
    exact .inr ⟨d.sa, d.w1, d'.w1, by simp [opcodeRows, hf], by simp [opcodeRows, ← hsa, ← hf0, hf]⟩
  · refine .inl ?_
    fin_cases hr
    all_goals simp_all [Row.opc]

/-- What differs only in words that are not examined decodes alike or to commands that act alike. -/
theorem AgreeWhereUsed.decode_cases {d d' : Desc} (h : AgreeWhereUsed d d') : decode d = decode d' ∨
    ∃ i i', decode d = .ok i ∧ decode d' = .ok i' ∧ SameCommand i i' := by
  by_cases hsel : ∃ r ∈ opcodeRows, r.selects d = true
  · obtain ⟨r, hr, hs⟩ := hsel
    rw [decode_of_selects hr hs, decode_of_selects hr (h.selects_eq r ▸ hs)]
    obtain heq | ⟨sa, len, len', hi, hi'⟩ := h.build_sameCommand hr hs
    · rw [heq]
      exact .inl rfl
    · rw [hi, hi']
      exact .inr ⟨_, _, rfl, rfl, .inr ⟨sa, len, len', rfl, rfl⟩⟩
  · push Not at hsel
    rw [decode_of_not_selected hsel, decode_of_not_selected fun r hr => h.selects_eq r ▸ hsel r hr]
    exact .inl rfl

/-- An illegal descriptor is answered from the fields of W0 alone (60_exceptions.md R167). -/
theorem AgreeWhereUsed.illegalCommand_eq {d d' : Desc} (h : AgreeWhereUsed d d') (s : State) :
    illegalCommand d s = illegalCommand d' s := by
  obtain ⟨hopc, hsa, -⟩ := Desc.w0_eq_iff.1 h.w0
  rw [illegalCommand, illegalCommand, hopc, hsa]

/-- A step accepts the same state from descriptors that come with the same request otherwise. -/
theorem AgreeWhereUsed.step_eq {d d' : Desc} (h : AgreeWhereUsed d d') (s : State) (rest : List HostEvent)
    (p : List Byte) (e : Bool) :
    step { s with host := .issue ⟨d, p, e, true⟩ :: rest } =
      step { s with host := .issue ⟨d', p, e, true⟩ :: rest } := by
  have hacc : ({ s with host := .issue ⟨d, p, e, true⟩ :: rest } : State).accept ⟨d, p, e, true⟩ rest =
      ({ s with host := .issue ⟨d', p, e, true⟩ :: rest } : State).accept ⟨d', p, e, true⟩ rest := rfl
  obtain heq | ⟨i, i', hd, hd', hsame⟩ := h.decode_cases
  · cases hd : decode d with
    | ok i =>
      rw [step_of_decode_ok (r := ⟨d, p, e, true⟩) rfl rfl hd,
        step_of_decode_ok (r := ⟨d', p, e, true⟩) rfl rfl (heq ▸ hd), hacc]
    | error err =>
      rw [step_of_decode_error (r := ⟨d, p, e, true⟩) rfl rfl hd,
        step_of_decode_error (r := ⟨d', p, e, true⟩) rfl rfl (heq ▸ hd), hacc, h.illegalCommand_eq]
  · rw [step_of_decode_ok (r := ⟨d, p, e, true⟩) rfl rfl hd,
      step_of_decode_ok (r := ⟨d', p, e, true⟩) rfl rfl hd', hacc, hsame.exec_eq]

/-- Settles O6: the decoded commands are the same but for the length of an absent LOAD, which no command reads. -/
theorem ignoredWordsChangeNothing : Obligations.IgnoredWordsChangeNothing := by
  intro s rest d d' p e a hw0 hw1 hw23
  cases a with
  | false => rfl
  | true => exact AgreeWhereUsed.step_eq ⟨hw0, hw1, hw23⟩ s rest p e

end Sys2Proof.Machine
end

section
/-! SUPPORT. How the own rule of a command ends: the payload it has taken, and that it has not answered yet
(30_encoding.md R70, R75; 60_exceptions.md R183). -/

namespace Sys2Proof.Machine

/-! ### Between the start of a command and its answer -/

/-- `u` is reached from `s` within a command that has taken `n` bytes of DIN and has not answered yet. -/
structure Took (n : Nat) (s u : State) : Prop where
  status : SameStatus s u
  rsp : u.rsp = s.rsp
  din : u.din = s.din.drop n

/-- Changes of the slots, of DOUT and of the free values drawn take no payload and answer nothing. -/
theorem took_zero_update (s : State) (slots : List (Option Buffer)) (dout : List Byte) (c : Nat) :
    Took 0 s { s with slots := slots, dout := dout, freeCount := c } :=
  ⟨⟨rfl, rfl, rfl, rfl⟩, rfl, rfl⟩

theorem took_zero_refl (s : State) : Took 0 s s := took_zero_update s ..

theorem took_dropDin (s : State) (n : Nat) : Took n s (s.dropDin n) := ⟨⟨rfl, rfl, rfl, rfl⟩, rfl, rfl⟩

theorem Took.trans {m n : Nat} {s u v : State} (h : Took m s u) (h' : Took n u v) : Took (m + n) s v where
  status := by
    obtain ⟨hf, hc, ho, hs⟩ := h.status
    obtain ⟨hf', hc', ho', hs'⟩ := h'.status
    exact ⟨hf'.trans hf, hc'.trans hc, ho'.trans ho, hs'.trans hs⟩
  rsp := h'.rsp.trans h.rsp
  din := by rw [h'.din, h.din, List.drop_drop]

theorem Took.after_none {n : Nat} {s u v : State} (h : Took 0 s u) (h' : Took n u v) : Took n s v :=
  Nat.zero_add n ▸ h.trans h'

theorem took_zero_fillRun (sl : SlotId) (off : Nat) (bs : List Byte) (s : State) :
    Took 0 s (fillRun sl off bs s) := by
  unfold fillRun
  split
  next => exact took_zero_refl s
  next => exact took_zero_update s ..

theorem took_zero_setLwf (sl : SlotId) (v : Word) (s : State) : Took 0 s (setLwf sl v s) := by
  unfold setLwf
  split
  next => exact took_zero_refl s
  next => exact took_zero_update s ..

/-! ### The end of a piece of a command -/

/-- A piece of a command that began in `s` takes `n` bytes of DIN: all of them when it completes, none when it raises
a fault other than IOFailure, and it waits only when DIN does not hold them (30_encoding.md R70, 60_exceptions.md
R183). -/
def Run.Takes {α : Type} (n : Nat) (s : State) : Run α → Prop
  | .done _ u => n ≤ s.din.length ∧ Took n s u
  | .raised k _ u => (∃ m ≤ n, Took m s u) ∧ (k ≠ .ioFailure → Took 0 s u)
  | .stuck f => f = .payloadStarved ∧ s.din.length < n

namespace Run.Takes

variable {α β : Type} {n : Nat} {s u : State}

theorem done (h : Took 0 s u) (a : α) : (Run.done a u).Takes 0 s := ⟨Nat.zero_le _, h⟩

theorem raised (h : Took 0 s u) (k : FaultKind) (sl : SlotId) : (Run.raised k sl u : Run α).Takes n s :=
  ⟨⟨0, Nat.zero_le n, h⟩, fun _ => h⟩

/-- A piece that begins after one that took nothing. -/
theorem after_none {x : Run α} (h : Took 0 s u) (hx : x.Takes n u) : x.Takes n s := by
  have hlen : u.din.length = s.din.length := congrArg List.length h.din
  cases x with
  | done a v => exact ⟨hlen ▸ hx.1, h.after_none hx.2⟩
  | raised k sl v =>
    obtain ⟨⟨m, hm, ht⟩, hk⟩ := hx
    exact ⟨⟨m, hm, h.after_none ht⟩, fun hne => h.after_none (hk hne)⟩
  | stuck f => exact ⟨hx.1, hlen ▸ hx.2⟩

/-- The rule of sequence, when the payload is taken by the second piece. -/
theorem bind {x : Run α} {f : α → State → Run β} (hx : x.Takes 0 s) (hf : ∀ a u, (f a u).Takes n u) :
    (x.bind f).Takes n s := by
  cases x with
  | done a u => exact after_none hx.2 (hf a u)
  | raised k sl u =>
    obtain ⟨⟨m, hm, ht⟩, -⟩ := hx
    exact raised (Nat.le_zero.1 hm ▸ ht) k sl
  | stuck f => exact absurd hx.2 (Nat.not_lt_zero _)

/-- The rule of sequence, when the payload is taken by the first piece and the second completes. -/
theorem bind_done {x : Run α} {g : α → State → β} {f : α → State → State} (hx : x.Takes n s)
    (hf : ∀ a u, Took 0 u (f a u)) : (x.bind fun a u => .done (g a u) (f a u)).Takes n s := by
  cases x with
  | done a u => exact ⟨hx.1, hx.2.trans (hf a u)⟩
  | raised k sl u => exact hx
  | stuck f => exact hx

theorem ite {c : Prop} [Decidable c] {x y : Run α} (hx : x.Takes n s) (hy : y.Takes n s) :
    (if c then x else y).Takes n s := by
  split_ifs <;> assumption

end Run.Takes

/-! ### The pieces of a command -/

section Pieces

variable {α : Type} (s : State)

theorem withBuf_takes {n : Nat} {f : Buffer → State → Run α} (sl : SlotId) (hf : ∀ b, (f b s).Takes n s) :
    (withBuf sl f s).Takes n s := by
  unfold withBuf
  split
  next => exact .raised (took_zero_refl s) ..
  next b _ => exact hf b

theorem dinTake_takes (n : Nat) : (dinTake n s).Takes n s := by
  by_cases h : n ≤ s.din.length
  · rw [dinTake_enough h]
    exact ⟨h, took_dropDin s n⟩
  · rw [dinTake_starved (not_le.1 h)]
    exact ⟨rfl, not_le.1 h⟩

theorem readRun_takes (sl : SlotId) (n : Nat) : (readRun sl n s).Takes 0 s := by
  refine withBuf_takes s sl fun b => ?_
  split
  next => exact .raised (took_zero_refl s) ..
  next => exact .done (took_zero_update s ..) _

theorem openRun_takes (sl : SlotId) (n : Nat) : (openRun sl n s).Takes 0 s := by
  refine withBuf_takes s sl fun b => ?_
  split
  next => exact .raised (took_zero_update s ..) ..
  next => exact .done (took_zero_update s ..) _

theorem writeRun_takes (sl : SlotId) (bs : List Byte) : (writeRun sl bs s).Takes 0 s :=
  (openRun_takes s sl _).bind_done fun _ u => took_zero_fillRun sl _ bs u

theorem writeRuns_takes (sl : SlotId) (parts : List (List Byte)) (w : Bool) :
    (writeRuns sl parts w s).Takes 0 s := by
  induction parts generalizing w s with
  | nil => exact .done (took_zero_refl s) w
  | cons bs rest ih => exact (writeRun_takes s sl bs).bind fun sn u => ih u (w || sn)

theorem readWord_takes (sl : SlotId) : (readWord sl s).Takes 0 s :=
  (readRun_takes s sl _).bind_done fun _ u => took_zero_refl u

theorem writeWord_takes (sl : SlotId) (v : Word) : (writeWord sl v s).Takes 0 s :=
  (writeRun_takes s sl _).bind_done fun _ u => took_zero_refl u

theorem readField_takes (sl : SlotId) (split : Bool) : (readField sl split s).Takes 0 s :=
  (readRun_takes s sl _).bind fun _ u => .ite (.raised (took_zero_refl u) ..) (.done (took_zero_refl u) _)

/-- Taking a payload and constructing a Buffer from it, for INIT and LOAD. -/
theorem constructFromDin_takes (sl : SlotId) (len rc wc : Word) (lin : Bool) :
    ((dinTake len.toNat s).bind fun p t =>
      .done (Reply.plain 0) (t.construct sl len rc wc lin p)).Takes len.toNat s :=
  (dinTake_takes s _).bind_done fun _ u => took_zero_update u ..

end Pieces

/-! ### Whole commands -/

/-- A command of a running block ends as its own rule does; a failed check is a fault that took nothing. -/
theorem command_of_running {i : Instr} {body : State → Run Reply} {n : Nat} {s : State} (h : s.running)
    (hbody : (body s).Takes n s) : ∃ x : Run Reply, x.Takes n s ∧ command i body s = x.close i.opcode := by
  cases hc : commonFault i s with
  | none => exact ⟨body s, hbody, command_runs h hc⟩
  | some p => exact ⟨.raised p.1 p.2 s, .raised (took_zero_refl s) .., command_checkFails h hc⟩

/-- Every command of a running block takes its payload and is answered at its end, or waits (30_encoding.md R70).
A LOAD that `io_err` ends may have taken part of its payload (93_implementation_defined.md V4). -/
theorem exec_of_running {s : State} (h : s.running) (i : Instr) :
    ∃ x : Run Reply, x.Takes i.payload s ∧ exec i s = x.close i.opcode := by
  cases i
  all_goals
    unfold exec
    refine command_of_running h ?_
  case nop => exact .done (took_zero_refl s) _
  case init => exact constructFromDin_takes s ..
  case load sa absent len =>
    cases absent with
    | true => exact .done (took_zero_update s ..) _
    | false =>
      refine .ite (c := s.ioErr = true) ?_ (constructFromDin_takes s ..)
      refine ⟨⟨min (Config.loadTaken s.freeCount) len.toNat, Nat.min_le_right .., ?_⟩, absurd rfl⟩
      exact (took_dropDin s _).trans (took_zero_update _ ..)
  case drain sa trunc =>
    refine withBuf_takes s sa fun b => ?_
    exact .ite (.raised (took_zero_refl s) ..)
      (.ite (.raised (took_zero_update s ..) ..) (.done (took_zero_update s ..) _))
  case free => exact .done (took_zero_update s ..) _
  case qry sa _ =>
    exact .ite (.done (took_zero_refl s) _) (withBuf_takes s sa fun _ => .done (took_zero_refl s) _)
  case rdu32 sa => exact readWord_takes s sa
  case wru32 sa val => exact writeWord_takes s sa val
  case rdf32 sa => exact readWord_takes s sa
  case wrf32 sa val => exact (writeWord_takes s sa val).bind_done fun _ u => took_zero_setLwf sa val u
  case rdb sa n => exact (readRun_takes s sa _).bind_done fun _ u => took_zero_update u ..
  case wrb sa n =>
    refine (openRun_takes s sa _).bind fun r u => ?_
    exact (dinTake_takes u _).bind_done fun p v => took_zero_fillRun sa r.1 p v
  case wrbuf outer inner =>
    refine withBuf_takes s inner fun b => ?_
    exact (writeRuns_takes s outer (nestedParts b) false).bind_done fun _ u => took_zero_refl u
  case rdbuf outer dest =>
    refine (readField_takes s outer _).bind fun cap s₁ => ?_
    refine (readField_takes s₁ outer _).bind fun rc s₂ => ?_
    refine (readField_takes s₂ outer _).bind fun wc s₃ => ?_
    exact (readRun_takes s₃ outer _).bind_done fun r s₄ => took_zero_update s₄ ..

end Sys2Proof.Machine
end

section
/-! CERTIFICATE. The response and the payload of every command (30_encoding.md R70, R75; 93_implementation_defined.md
section 3). -/

namespace Sys2Proof.Machine

/-- A command of a running block that is answered completed with its whole payload, or took a fault. -/
theorem exec_running_cases {i : Instr} {s t : State} (h : s.running) (ht : exec i s = .next t) :
    (∃ (r : Reply) (u : State), i.payload ≤ s.din.length ∧ Took i.payload s u ∧ t = u.respond r.word) ∨
    ∃ k sl u, (∃ m ≤ i.payload, Took m s u) ∧ (k ≠ .ioFailure → Took 0 s u) ∧
      t = u.enterFault k i.opcode sl := by
  obtain ⟨x, hx, hclose⟩ := exec_of_running h i
  obtain ⟨r, u, rfl, rfl⟩ | ⟨k, sl, u, rfl, rfl⟩ := Run.close_eq_next (hclose.symm.trans ht)
  · exact .inl ⟨r, u, hx.1, hx.2, rfl⟩
  · exact .inr ⟨k, sl, u, hx.1, hx.2, rfl⟩

/-- Settles O17: a command is answered once, at its end, with CODE 0 or with the code of its fault. -/
theorem oneResponsePerCommand : Obligations.OneResponsePerCommand := by
  intro i s t ht
  cases hf : s.fault with
  | true =>
    rw [exec_halted hf] at ht
    cases ht
    refine ⟨codeWord haltedCode, rfl, responseOk_codeWord (.inr rfl), ?_⟩
    simp [codeWord, haltedCode, State.answerHalted, hf]
  | false =>
    obtain ⟨r, u, -, hu, rfl⟩ | ⟨k, sl, u, ⟨m, -, hu⟩, -, rfl⟩ := exec_running_cases hf ht
    · refine ⟨r.word, by simp [hu.rsp], responseOk_word r, ?_⟩
      obtain ⟨hfault, -⟩ := hu.status
      simp [Reply.word, hfault, hf]
    · have hcode : k.code ≠ 0 := by cases k <;> decide
      refine ⟨codeWord k.code, by simp [State.enterFault, hu.rsp], responseOk_codeWord (.inl k.code_range.2), ?_⟩
      simpa [codeWord] using hcode

/-- Settles O18: only a rule that waits for its payload leaves a command without a successor. -/
theorem answeredUnlessPayloadMissing : Obligations.AnsweredUnlessPayloadMissing := by
  intro i s
  cases hf : s.fault with
  | true => simp [exec_halted hf]
  | false =>
    obtain ⟨x, hx, hclose⟩ := exec_of_running hf i
    rw [hclose]
    cases x with
    | done r u => simp
    | raised k sl u => simp
    | stuck f =>
      obtain ⟨rfl, hlen⟩ := hx
      simpa [hlen] using hf

/-- Settles O20: what the command's own rule took from DIN is all that is missing there. -/
theorem payloadTakenIsExact : Obligations.PayloadTakenIsExact := by
  intro i s t hrun ht
  obtain ⟨r, u, hlen, hu, rfl⟩ | ⟨k, sl, u, ⟨m, hm, hu⟩, hnone, rfl⟩ := exec_running_cases hrun ht
  · obtain ⟨hfault, -⟩ := hu.status
    refine ⟨fun _ => ⟨hlen, hu.din⟩, fun hf => ?_, i.payload, le_rfl, hu.din⟩
    simp [hfault, hrun] at hf
  · refine ⟨nofun, fun _ hcode => ?_, m, hm, hu.din⟩
    exact (hnone fun hk => hcode (hk ▸ rfl)).din

end Sys2Proof.Machine
end

section
/-! CERTIFICATE. The commands that do not look at `io_err` (30_encoding.md R71). -/

namespace Sys2Proof.Machine

/-! ### Pieces of a command from states that differ in `io_err` -/

/-- The same end of a piece with a change made to the state it leaves. -/
def Run.mapState {α : Type} (f : State → State) : Run α → Run α
  | .done a s => .done a (f s)
  | .raised k sl s => .raised k sl (f s)
  | .stuck r => .stuck r

/-- A piece of a command that does the same at either level of `io_err`, and leaves the level as it is. -/
def IgnoresIoErr {α : Type} (p : State → Run α) : Prop :=
  ∀ (e : Bool) (s : State), p (s.withIoErr e) = (p s).mapState (State.withIoErr e)

theorem IgnoresIoErr.bind {α β : Type} {p : State → Run α} {f : α → State → Run β} (hp : IgnoresIoErr p)
    (hf : ∀ a, IgnoresIoErr (f a)) : IgnoresIoErr fun s => (p s).bind f := by
  intro e s
  change (p (s.withIoErr e)).bind f = ((p s).bind f).mapState _
  rw [hp e s]
  cases p s with
  | done a u => exact hf a e u
  | raised k sl u => rfl
  | stuck r => rfl

theorem IgnoresIoErr.ite {α : Type} {c : Prop} [Decidable c] {p q : State → Run α} (hp : IgnoresIoErr p)
    (hq : IgnoresIoErr q) : IgnoresIoErr fun s => if c then p s else q s := by
  split_ifs
  · exact hp
  · exact hq

/-- The slot file does not depend on `io_err`. -/
theorem withBuf_ignoresIoErr {α : Type} {f : Buffer → State → Run α} (sl : SlotId)
    (hf : ∀ b, IgnoresIoErr (f b)) : IgnoresIoErr (withBuf sl f) := by
  intro e s
  have hbuf : (s.withIoErr e).buf sl = s.buf sl := rfl
  unfold withBuf
  rw [hbuf]
  cases s.buf sl with
  | none => rfl
  | some b => exact hf b e s

theorem dinTake_ignoresIoErr (n : Nat) : IgnoresIoErr (dinTake n) := by
  intro e s
  have hdin : (s.withIoErr e).din = s.din := rfl
  unfold dinTake
  rw [hdin]
  split_ifs <;> rfl

theorem readRun_ignoresIoErr (sl : SlotId) (n : Nat) : IgnoresIoErr (readRun sl n) :=
  withBuf_ignoresIoErr sl fun b _ _ => by cases acquireRead b n <;> rfl

theorem openRun_ignoresIoErr (sl : SlotId) (n : Nat) : IgnoresIoErr (openRun sl n) :=
  withBuf_ignoresIoErr sl fun b _ _ => by cases acquireWrite b n <;> rfl

theorem fillRun_withIoErr (sl : SlotId) (off : Nat) (bs : List Byte) (e : Bool) (s : State) :
    fillRun sl off bs (s.withIoErr e) = (fillRun sl off bs s).withIoErr e := by
  have hbuf : (s.withIoErr e).buf sl = s.buf sl := rfl
  unfold fillRun
  rw [hbuf]
  cases s.buf sl <;> rfl

theorem setLwf_withIoErr (sl : SlotId) (v : Word) (e : Bool) (s : State) :
    setLwf sl v (s.withIoErr e) = (setLwf sl v s).withIoErr e := by
  have hbuf : (s.withIoErr e).buf sl = s.buf sl := rfl
  unfold setLwf
  rw [hbuf]
  cases s.buf sl <;> rfl

theorem writeRun_ignoresIoErr (sl : SlotId) (bs : List Byte) : IgnoresIoErr (writeRun sl bs) :=
  (openRun_ignoresIoErr sl bs.length).bind fun r e s => congrArg (Run.done r.2) (fillRun_withIoErr sl r.1 bs e s)

theorem writeRuns_ignoresIoErr (sl : SlotId) (parts : List (List Byte)) (w : Bool) :
    IgnoresIoErr (writeRuns sl parts w) := by
  induction parts generalizing w with
  | nil => exact fun _ _ => rfl
  | cons bs rest ih => exact (writeRun_ignoresIoErr sl bs).bind fun sn => ih (w || sn)

theorem readWord_ignoresIoErr (sl : SlotId) : IgnoresIoErr (readWord sl) :=
  (readRun_ignoresIoErr sl _).bind fun _ _ _ => rfl

theorem writeWord_ignoresIoErr (sl : SlotId) (v : Word) : IgnoresIoErr (writeWord sl v) :=
  (writeRun_ignoresIoErr sl _).bind fun _ _ _ => rfl

theorem readField_ignoresIoErr (sl : SlotId) (split : Bool) : IgnoresIoErr (readField sl split) :=
  (readRun_ignoresIoErr sl _).bind fun _ => .ite (fun _ _ => rfl) fun _ _ => rfl

/-! ### Whole commands -/

/-- None of the common checks looks at `io_err` (60_exceptions.md R173). -/
theorem commonFault_withIoErr (i : Instr) (e : Bool) (s : State) :
    commonFault i (s.withIoErr e) = commonFault i s := by
  have hcheck : Check.failure (s.withIoErr e) = Check.failure s := by
    funext c
    cases c <;> rfl
  rw [commonFault, hcheck, commonFault]

/-- A command does not look at `io_err` when its own rule does not. -/
theorem command_withIoErr {i : Instr} {body : State → Run Reply} (hbody : IgnoresIoErr body) (e : Bool)
    (s : State) : command i body (s.withIoErr e) = mapNext (State.withIoErr e) (command i body s) := by
  cases hf : s.fault with
  | true =>
    rw [command_halted hf, command_halted (s := s.withIoErr e) hf]
    rfl
  | false =>
    have hfault := commonFault_withIoErr i e s
    cases hc : commonFault i s with
    | some p =>
      rw [command_checkFails hf hc, command_checkFails (s := s.withIoErr e) hf (hfault.trans hc)]
      rfl
    | none =>
      rw [command_runs hf hc, command_runs (s := s.withIoErr e) hf (hfault.trans hc), hbody e s]
      cases body s <;> rfl

/-- Settles O28: the rules of all other commands are made of pieces that do not look at `io_err`. -/
theorem ioErrIsReadByLoadAndDrainOnly : Obligations.IoErrIsReadByLoadAndDrainOnly := by
  intro i s e hi
  cases i
  all_goals
    unfold exec
    refine command_withIoErr ?_ e s
  case nop => exact fun _ _ => rfl
  case init => exact (dinTake_ignoresIoErr _).bind fun _ _ _ => rfl
  case load sa absent len =>
    obtain rfl : absent = true := by simpa [Instr.readsIoErr] using hi
    exact fun _ _ => rfl
  case drain => cases hi
  case free => exact fun _ _ => rfl
  case qry sa sel => exact .ite (fun _ _ => rfl) (withBuf_ignoresIoErr sa fun _ _ _ => rfl)
  case rdu32 sa => exact readWord_ignoresIoErr sa
  case wru32 sa val => exact writeWord_ignoresIoErr sa val
  case rdf32 sa => exact readWord_ignoresIoErr sa
  case wrf32 sa val =>
    exact (writeWord_ignoresIoErr sa val).bind fun r e s => congrArg (Run.done r) (setLwf_withIoErr sa val e s)
  case rdb sa n => exact (readRun_ignoresIoErr sa _).bind fun _ _ _ => rfl
  case wrb sa n =>
    refine (openRun_ignoresIoErr sa _).bind fun r => (dinTake_ignoresIoErr _).bind fun p e s => ?_
    exact congrArg (Run.done _) (fillRun_withIoErr sa r.1 p e s)
  case wrbuf outer inner =>
    refine withBuf_ignoresIoErr inner fun b => ?_
    exact (writeRuns_ignoresIoErr outer (nestedParts b) false).bind fun _ _ _ => rfl
  case rdbuf outer dest =>
    refine (readField_ignoresIoErr outer _).bind fun cap => ?_
    refine (readField_ignoresIoErr outer _).bind fun rc => ?_
    refine (readField_ignoresIoErr outer _).bind fun wc => ?_
    exact (readRun_ignoresIoErr outer _).bind fun _ _ _ => rfl

end Sys2Proof.Machine
end

section
/-! SUPPORT. A change made to the Buffer of one slot, and the pieces of a command that do not look at what it changes:
they do the same before it and after it. -/

namespace Sys2Proof.Machine

/-! ### Changing the Buffer of one slot -/

/-- The same state with a change made to the Buffer of a slot; a free slot stays free. -/
def State.onBuf (sl : SlotId) (g : Buffer → Buffer) (s : State) : State :=
  { s with slots := s.slots.modify sl.toNat (Option.map g) }

/-- Another mode and write cursor. -/
def Buffer.setMode (lin : Bool) (wc : Word) (b : Buffer) : Buffer := { b with lin := lin, wc := wc }

/-- Another read cursor. -/
def Buffer.setRc (rc : Word) (b : Buffer) : Buffer := { b with rc := rc }

section OnBuf

variable {sl sl' : SlotId} {g : Buffer → Buffer} (s : State)

theorem State.onBuf_eq_elim : s.onBuf sl g = (s.buf sl).elim s fun b => s.setBuf sl (g b) := by
  simp only [State.onBuf, State.buf, State.setBuf, List.modify_eq_set_getElem?]
  cases h : s.slots[sl.toNat]? with
  | none => rfl
  | some o =>
    cases o with
    | none =>
      obtain ⟨hlt, hget⟩ := List.getElem?_eq_some_iff.1 h
      have hset : s.slots.set sl.toNat none = s.slots := by rw [← hget, List.set_getElem_self]
      simp [hset]
    | some b => rfl

theorem State.withMode_eq_onBuf (lin : Bool) (wc : Word) :
    s.withMode sl lin wc = s.onBuf sl (Buffer.setMode lin wc) := by
  rw [State.onBuf_eq_elim, State.withMode]
  cases s.buf sl <;> rfl

theorem State.withRc_eq_onBuf (rc : Word) : s.withRc sl rc = s.onBuf sl (Buffer.setRc rc) := by
  rw [State.onBuf_eq_elim, State.withRc]
  cases s.buf sl <;> rfl

theorem fillRun_eq_onBuf (off : Nat) (bs : List Byte) :
    fillRun sl off bs s = s.onBuf sl fun b => { b with store := memWrite b.store off bs } := by
  rw [State.onBuf_eq_elim, fillRun]
  cases s.buf sl <;> rfl

theorem setLwf_eq_onBuf (v : Word) : setLwf sl v s = s.onBuf sl fun b => { b with lwf := v } := by
  rw [State.onBuf_eq_elim, setLwf]
  cases s.buf sl <;> rfl

@[simp] theorem State.nslots_onBuf : (s.onBuf sl g).nslots = s.nslots := List.length_modify ..

@[simp] theorem State.inRange_onBuf : (s.onBuf sl g).inRange sl' = s.inRange sl' := by
  simp [State.inRange]

@[simp] theorem State.buf_onBuf_same : (s.onBuf sl g).buf sl = (s.buf sl).map g := by
  simp only [State.buf, State.onBuf, List.getElem?_modify_eq]
  cases s.slots[sl.toNat]? <;> rfl

theorem State.buf_onBuf_ne (h : sl' ≠ sl) : (s.onBuf sl g).buf sl' = s.buf sl' := by
  have hne : sl.toNat ≠ sl'.toNat := fun e => h (BitVec.eq_of_toNat_eq e.symm)
  simp only [State.buf, State.onBuf, List.getElem?_modify_ne _ _ hne]

/-- The same slots hold a Buffer. -/
@[simp] theorem State.isSome_buf_onBuf : ((s.onBuf sl g).buf sl').isSome = (s.buf sl').isSome := by
  by_cases h : sl' = sl
  · subst h
    simp
  · rw [State.buf_onBuf_ne s h]

theorem State.setBuf_onBuf_same (b : Buffer) :
    (s.onBuf sl g).setBuf sl (g b) = (s.setBuf sl b).onBuf sl g := by
  simp only [State.setBuf, State.onBuf, List.set_eq_modify, List.modify_modify_eq]
  rfl

theorem State.setBuf_onBuf_ne (h : sl' ≠ sl) (b : Buffer) :
    (s.onBuf sl g).setBuf sl' b = (s.setBuf sl' b).onBuf sl g := by
  have hne : sl.toNat ≠ sl'.toNat := fun e => h (BitVec.eq_of_toNat_eq e.symm)
  simp only [State.setBuf, State.onBuf, List.set_eq_modify, List.modify_modify_ne _ _ _ hne]

/-- Two changes to one Buffer that do not depend on each other. -/
theorem State.onBuf_comm {k : Buffer → Buffer} (h : ∀ b, k (g b) = g (k b)) :
    (s.onBuf sl g).onBuf sl k = (s.onBuf sl k).onBuf sl g := by
  have hcomp : Option.map k ∘ Option.map g = Option.map g ∘ Option.map k := by
    rw [Option.map_comp_map, Option.map_comp_map]
    exact congrArg Option.map (funext h)
  simp only [State.onBuf, List.modify_modify_eq, hcomp]

end OnBuf

/-! ### The rules of the sequence of pieces -/

/-- A piece of a command that ends the same way after a change to the state as before it, and keeps the change: what
`IgnoresIoErr` says of the changes to `io_err`, for any change. -/
def CommutesWith {α : Type} (f : State → State) (p : State → Run α) : Prop :=
  ∀ s, p (f s) = (p s).mapState f

namespace CommutesWith

variable {α β : Type} {f : State → State}

theorem done (a : α) : CommutesWith f fun s => .done a s := fun _ => rfl

theorem bind {p : State → Run α} {q : α → State → Run β} (hp : CommutesWith f p)
    (hq : ∀ a, CommutesWith f (q a)) : CommutesWith f fun s => (p s).bind q := by
  intro s
  change (p (f s)).bind q = ((p s).bind q).mapState f
  rw [hp s]
  cases p s with
  | done a u => exact hq a u
  | raised k sl u => rfl
  | stuck r => rfl

theorem ite {c : Prop} [Decidable c] {p q : State → Run α} (hp : CommutesWith f p) (hq : CommutesWith f q) :
    CommutesWith f fun s => if c then p s else q s := by
  split_ifs
  · exact hp
  · exact hq

end CommutesWith

section Pieces

variable {α : Type} {sl sl' : SlotId} {g : Buffer → Buffer}

/-- A piece that works on the changed slot. -/
theorem withBuf_commutes_same {p : Buffer → State → Run α}
    (hp : ∀ b s, p (g b) (s.onBuf sl g) = (p b s).mapState (State.onBuf sl g)) :
    CommutesWith (State.onBuf sl g) (withBuf sl p) := by
  intro s
  unfold withBuf
  rw [State.buf_onBuf_same]
  cases s.buf sl with
  | none => rfl
  | some b => exact hp b s

/-- A piece that works on the Buffer of another slot. -/
theorem withBuf_commutes_ne {p : Buffer → State → Run α} (h : sl' ≠ sl)
    (hp : ∀ b, CommutesWith (State.onBuf sl g) (p b)) : CommutesWith (State.onBuf sl g) (withBuf sl' p) := by
  intro s
  unfold withBuf
  rw [State.buf_onBuf_ne s h]
  cases s.buf sl' with
  | none => rfl
  | some b => exact hp b s

theorem dinTake_commutes (n : Nat) : CommutesWith (State.onBuf sl g) (dinTake n) := by
  intro s
  have hdin : (s.onBuf sl g).din = s.din := rfl
  unfold dinTake
  rw [hdin]
  split_ifs <;> rfl

/-- None of the common checks looks inside a Buffer (60_exceptions.md R173). -/
theorem commonFault_onBuf (i : Instr) (s : State) : commonFault i (s.onBuf sl g) = commonFault i s := by
  have hcheck : Check.failure (s.onBuf sl g) = Check.failure s := by
    funext c
    have hcap : (s.onBuf sl g).capMax = s.capMax := rfl
    cases c <;> simp only [Check.failure, State.inRange_onBuf, State.isSome_buf_onBuf, hcap]
  rw [commonFault, hcheck, commonFault]

/-- A command does the same after a change to a Buffer when its own rule does, where the rule runs. -/
theorem command_onBuf {i : Instr} {body : State → Run Reply} {s : State}
    (hbody : commonFault i s = none → CommutesWith (State.onBuf sl g) body) :
    command i body (s.onBuf sl g) = mapNext (State.onBuf sl g) (command i body s) := by
  cases hf : s.fault with
  | true =>
    rw [command_halted hf, command_halted (s := s.onBuf sl g) hf]
    rfl
  | false =>
    have hfault := commonFault_onBuf (sl := sl) (g := g) i s
    cases hc : commonFault i s with
    | some p =>
      rw [command_checkFails hf hc, command_checkFails (s := s.onBuf sl g) hf (hfault.trans hc)]
      rfl
    | none =>
      rw [command_runs hf hc, command_runs (s := s.onBuf sl g) hf (hfault.trans hc), hbody hc s]
      cases body s <;> rfl

end Pieces

end Sys2Proof.Machine
end

section
/-! CERTIFICATE. A read looks at neither the mode nor the write cursor of its slot, a write not at the read cursor
(40_cursor_arithmetic.md R96, R102). -/

namespace Sys2Proof.Machine

/-! ### Reads -/

section Reads

variable (sl : SlotId) (lin : Bool) (wc : Word)

/-- AcquireRead does not read LIN and does not read WC (40_cursor_arithmetic.md R96). -/
theorem acquireRead_setMode (b : Buffer) (n : Nat) : acquireRead (b.setMode lin wc) n =
    (acquireRead b n).map fun r => { r with buf := r.buf.setMode lin wc } := by
  by_cases hfit : b.rc.toNat ≤ b.cap.toNat ∧ n ≤ b.cap.toNat
  · obtain ⟨hrc, hn⟩ := hfit
    rw [acquireRead_served hrc hn, acquireRead_served (b := b.setMode lin wc) hrc hn]
    rfl
  · rw [acquireRead_rangeFault hfit, acquireRead_rangeFault (b := b.setMode lin wc) hfit]
    rfl

theorem readRun_commutes (n : Nat) : CommutesWith (State.onBuf sl (Buffer.setMode lin wc)) (readRun sl n) := by
  refine withBuf_commutes_same fun b s => ?_
  simp only [acquireRead_setMode]
  cases acquireRead b n with
  | none => rfl
  | some r => exact congrArg (Run.done _) (s.setBuf_onBuf_same r.buf)

theorem readWord_commutes : CommutesWith (State.onBuf sl (Buffer.setMode lin wc)) (readWord sl) :=
  (readRun_commutes sl lin wc _).bind fun _ => .done _

theorem readField_commutes (split : Bool) :
    CommutesWith (State.onBuf sl (Buffer.setMode lin wc)) (readField sl split) :=
  (readRun_commutes sl lin wc _).bind fun _ => .ite (fun _ => rfl) (.done _)

end Reads

/-- Settles O44: RDBUF's destination is another slot than the one read, by its checks. -/
theorem readsIgnoreModeAndWriteCursor : Obligations.ReadsIgnoreModeAndWriteCursor := by
  intro i sa d n s lin wc hi
  simp only [funext fun s => State.withMode_eq_onBuf (sl := sa) s lin wc]
  obtain rfl | rfl | rfl | rfl := hi
  all_goals
    unfold exec
    refine command_onBuf fun hc => ?_
  · exact readWord_commutes sa lin wc
  · exact readWord_commutes sa lin wc
  · exact (readRun_commutes sa lin wc _).bind fun _ _ => rfl
  · have hne : d ≠ sa := (ne_of_commonFault_none hc (by simp [commonChecks])).symm
    refine (readField_commutes sa lin wc _).bind fun cap => ?_
    refine (readField_commutes sa lin wc _).bind fun rc => ?_
    refine (readField_commutes sa lin wc _).bind fun wc' => ?_
    exact (readRun_commutes sa lin wc _).bind fun r u => congrArg (Run.done _) (u.setBuf_onBuf_ne hne _)

/-! ### Writes -/

section Writes

variable (sl : SlotId) (rc : Word)

/-- AcquireWrite does not read RC (40_cursor_arithmetic.md R102). -/
theorem openRun_commutes (n : Nat) : CommutesWith (State.onBuf sl (Buffer.setRc rc)) (openRun sl n) := by
  refine withBuf_commutes_same fun b s => ?_
  by_cases hover : b.cap.toNat < b.wc.toNat + n ∨ (landsInRing b n = true ∧ b.cap.toNat < 4)
  · rw [acquireWrite_overshoots hover, acquireWrite_overshoots (b := b.setRc rc) hover]
    exact congrArg (Run.raised _ _) (s.setBuf_onBuf_same { b with wc := nextWc b n })
  · simp only [not_or, not_and, not_lt] at hover
    obtain ⟨hn, h4⟩ := hover
    rw [acquireWrite_accepted hn h4, acquireWrite_accepted (b := b.setRc rc) hn h4]
    exact congrArg (Run.done _) (s.setBuf_onBuf_same { b with wc := nextWc b n })

theorem fillRun_onBuf_setRc (off : Nat) (bs : List Byte) (s : State) :
    fillRun sl off bs (s.onBuf sl (Buffer.setRc rc)) = (fillRun sl off bs s).onBuf sl (Buffer.setRc rc) := by
  rw [fillRun_eq_onBuf, fillRun_eq_onBuf]
  exact s.onBuf_comm fun _ => rfl

theorem setLwf_onBuf_setRc (v : Word) (s : State) :
    setLwf sl v (s.onBuf sl (Buffer.setRc rc)) = (setLwf sl v s).onBuf sl (Buffer.setRc rc) := by
  rw [setLwf_eq_onBuf, setLwf_eq_onBuf]
  exact s.onBuf_comm fun _ => rfl

theorem writeRun_commutes (bs : List Byte) :
    CommutesWith (State.onBuf sl (Buffer.setRc rc)) (writeRun sl bs) :=
  (openRun_commutes sl rc _).bind fun r s => congrArg (Run.done r.2) (fillRun_onBuf_setRc sl rc r.1 bs s)

theorem writeRuns_commutes (parts : List (List Byte)) (w : Bool) :
    CommutesWith (State.onBuf sl (Buffer.setRc rc)) (writeRuns sl parts w) := by
  induction parts generalizing w with
  | nil => exact .done w
  | cons bs rest ih => exact (writeRun_commutes sl rc bs).bind fun sn => ih (w || sn)

theorem writeWord_commutes (v : Word) : CommutesWith (State.onBuf sl (Buffer.setRc rc)) (writeWord sl v) :=
  (writeRun_commutes sl rc _).bind fun _ => .done _

end Writes

/-- Settles O45: WRBUF's inner Buffer, whose read cursor it does read, is in another slot, by its checks. -/
theorem writesIgnoreTheReadCursor : Obligations.WritesIgnoreTheReadCursor := by
  intro i sa j v n s rc hi
  simp only [funext fun s => State.withRc_eq_onBuf (sl := sa) s rc]
  obtain rfl | rfl | rfl | rfl := hi
  all_goals
    unfold exec
    refine command_onBuf fun hc => ?_
  · exact writeWord_commutes sa rc v
  · exact (writeWord_commutes sa rc v).bind fun r u => congrArg (Run.done r) (setLwf_onBuf_setRc sa rc v u)
  · refine (openRun_commutes sa rc _).bind fun r => (dinTake_commutes _).bind fun p u => ?_
    exact congrArg (Run.done _) (fillRun_onBuf_setRc sa rc r.1 p u)
  · have hne : j ≠ sa := (ne_of_commonFault_none hc (by simp [commonChecks])).symm
    exact withBuf_commutes_ne hne fun b => (writeRuns_commutes sa rc (nestedParts b) false).bind fun _ => .done _

end Sys2Proof.Machine
end

section
/-! CERTIFICATE. Writes of a size that divides the capacity go round a ring buffer without a fault
(40_cursor_arithmetic.md R105). -/

namespace Sys2Proof.Machine

/-- WRB where its write is accepted and its payload is there (41_typed_codec.md R116). -/
theorem execWrb_accepted {s : State} {sa : SlotId} {b : Buffer} {n : Word} (hrun : s.running)
    (hb : s.buf sa = some b) (hn : b.wc.toNat + n.toNat ≤ b.cap.toNat)
    (h4 : landsInRing b n.toNat = true → 4 ≤ b.cap.toNat) (hd : n.toNat ≤ s.din.length) :
    execWrb sa n s = .next (((s.dropDin n.toNat).setBuf sa { b with
      wc := nextWc b n.toNat
      store := memWrite b.store b.wc.toNat (s.din.take n.toNat) }).respond
        (Reply.word ⟨0, false, landsInRing b n.toNat⟩)) := by
  have hc : commonFault (.wrb sa n) s = none := validChecks_pass hb
  have htake : dinTake n.toNat (s.setBuf sa { b with wc := nextWc b n.toNat }) =
      .done (s.din.take n.toNat) ((s.dropDin n.toNat).setBuf sa { b with wc := nextWc b n.toNat }) :=
    dinTake_enough hd
  have hbuf : ((s.dropDin n.toNat).setBuf sa { b with wc := nextWc b n.toNat }).buf sa = _ :=
    State.buf_setBuf_of_buf hb
  rw [execWrb, command_runs hrun hc, openRun_accepted hb hn h4, Run.bind_done, htake, Run.bind_done,
    fillRun_of_buf hbuf, State.setBuf_setBuf, Run.close_done]

/-- The write cursor after a write that is accepted, as a number (40_cursor_arithmetic.md R97, R98). -/
theorem toNat_nextWc {b : Buffer} {n : Nat} (hn : b.wc.toNat + n ≤ b.cap.toNat) :
    (nextWc b n).toNat = if landsInRing b n then 4 else b.wc.toNat + n := by
  have := b.cap.isLt
  unfold nextWc
  split_ifs
  · rfl
  · rw [BitVec.toNat_add, BitVec.toNat_ofNat, Nat.add_mod_mod, Nat.mod_eq_of_lt (by omega)]

/-- A cursor below capacity has room for one more unit, when the unit divides both. -/
theorem add_le_of_dvd_of_lt {w wc cap : Nat} (hcap : w ∣ cap) (hwc : w ∣ wc) (h : wc < cap) : wc + w ≤ cap := by
  have := Nat.le_of_dvd (Nat.sub_pos_of_lt h) (Nat.dvd_sub hcap hwc)
  omega

/-- Settles O49: the write always fits, and the unit divides the cursor it leaves: 4 after the snap, else one unit
further. -/
theorem alignedRingWritesGoRoundForEver : Obligations.AlignedRingWritesGoRoundForEver := by
  intro s sa b w hrun hb hring hcap hw hwcap hlt hwwc hdin
  have hfit := add_le_of_dvd_of_lt hwcap hwwc hlt
  have hw4 : w.toNat ∣ 4 := by
    simp only [List.mem_cons, List.not_mem_nil, or_false] at hw
    obtain hw | hw | hw := hw <;> rw [hw] <;> decide
  have hinside := (wcInStorage_nextWc hfit fun _ => hcap.le).2 hring hcap
  refine ⟨_, _, execWrb_accepted hrun hb hfit (fun _ => hcap.le) hdin, hrun,
    State.buf_setBuf_of_buf (s := s.dropDin w.toNat) hb, hring, rfl, hinside, ?_⟩
  change w.toNat ∣ (nextWc b w.toNat).toNat
  rw [toNat_nextWc hfit]
  split_ifs
  · exact hw4
  · exact hwwc.add dvd_rfl

end Sys2Proof.Machine
end

section
/-! SUPPORT. The commands that go through a cursor of one valid slot: their descriptors, their checks, and how they end
when they change no storage (41_typed_codec.md R110). -/

namespace Sys2Proof.Machine

/-! ### Descriptors -/

/-- A descriptor with SB and F0 zero decodes to the command of its opcode, unless that is NOP, which has no slot, or
QRY, which may be refused (30_encoding.md R61, R64, R72). -/
theorem decode_packDesc {r : Row} (hr : r ∈ opcodeRows) (hnop : r.opc ≠ 0x00#8) (hqry : r.opc ≠ 0x05#8)
    (sa : SlotId) (w1 w2 w3 : Word) : decode (packDesc r.opc sa 0 false w1 w2 w3) =
      .ok (r.build (packDesc r.opc sa 0 false w1 w2 w3)) := by
  have hs : r.selects (packDesc r.opc sa 0 false w1 w2 w3) = true :=
    (selects_iff hr).2 ⟨by simp, by simp [Desc.UnusedZero, Desc.rsv, hnop]⟩
  rw [decode_of_selects hr hs, if_pos ((wellFormed_build_iff hr).2 fun h => hqry h.1)]

/-! ### The checks of a command on one valid slot -/

theorem exists_exec_eq_command (i : Instr) (s : State) : ∃ body, exec i s = command i body s := by
  cases i <;> unfold exec <;> exact ⟨_, rfl⟩

section OneSlot

variable {i : Instr} {sa : SlotId} {body : State → Run Reply} {s : State}
  (hi : commonChecks i = [.inRange sa, .isValid sa]) (hrun : s.running)
include hi hrun

/-- A free slot, or a number at or above NSLOTS, is BadSlot (60_exceptions.md R173, steps 3 and 5). -/
theorem command_on_free (hfree : s.buf sa = none) :
    command i body s = .next (s.enterFault .badSlot i.opcode sa) := by
  refine command_checkFails hrun ?_
  rw [commonFault, hi]
  cases hr : s.inRange sa <;> simp [Check.failure, hr, hfree]

theorem exec_on_free (hfree : s.buf sa = none) : exec i s = .next (s.enterFault .badSlot i.opcode sa) := by
  obtain ⟨body, hexec⟩ := exists_exec_eq_command i s
  rw [hexec, command_on_free hi hrun hfree]

theorem command_on_valid {b : Buffer} (hb : s.buf sa = some b) :
    command i body s = (body s).close i.opcode :=
  command_runs hrun (by rw [commonFault, hi]; exact validChecks_pass hb)

end OneSlot

/-! ### A command that ends in a halted block -/

/-- `t` is `u` halted: they differ in the status registers and the responses at most. -/
def HaltedFrom (u t : State) : Prop :=
  ∃ c o sl r, t = { u with fault := true, fcode := c, fopc := o, fslot := sl, rsp := r }

theorem haltedFrom_enterFault (s : State) (k : FaultKind) (opc : Byte) (sl : SlotId) :
    HaltedFrom s (s.enterFault k opc sl) := ⟨_, _, _, _, rfl⟩

theorem haltedFrom_answerHalted {s : State} (h : s.fault = true) : HaltedFrom s s.answerHalted :=
  ⟨s.fcode, s.fopc, s.fslot, s.answerHalted.rsp, by rw [← h]; rfl⟩

/-- A command on one valid slot that ends otherwise than in a halted block with no slot changed began in a running
block and on a Buffer. -/
theorem haltedFrom_or_exists_buf {i : Instr} {sa : SlotId} {s t : State}
    (hi : commonChecks i = [.inRange sa, .isValid sa]) (ht : exec i s = .next t) :
    HaltedFrom s t ∨ s.running ∧ ∃ b, s.buf sa = some b := by
  cases hf : s.fault with
  | true =>
    rw [exec_halted hf] at ht
    cases ht
    exact .inl (haltedFrom_answerHalted hf)
  | false =>
    cases hb : s.buf sa with
    | none =>
      rw [exec_on_free hi hf hb] at ht
      cases ht
      exact .inl (haltedFrom_enterFault ..)
    | some b => exact .inr ⟨hf, b, rfl⟩

/-! ### Storage after a slot was written -/

/-- A byte that the new Buffer of a slot holds as the old one did. -/
theorem State.peek_setBuf_of_read_eq {s : State} {sl : SlotId} {b b' : Buffer} {off : Nat}
    (hb : s.buf sl = some b) (hcap : b'.cap = b.cap) (hread : b'.store.read off = b.store.read off) :
    (s.setBuf sl b').peek sl off = s.peek sl off := by
  rw [State.peek_of_buf (State.buf_setBuf_of_buf hb), State.peek_of_buf hb, hcap, hread]

/-- A change of the registers that keeps CAP changes no byte of storage. -/
theorem State.peek_setBuf_of_store_eq {s : State} {sl : SlotId} {b b' : Buffer} (hb : s.buf sl = some b)
    (hcap : b'.cap = b.cap) (hstore : b'.store = b.store) (sl' : SlotId) (off : Nat) :
    (s.setBuf sl b').peek sl' off = s.peek sl' off := by
  by_cases h : sl' = sl
  · subst h
    exact State.peek_setBuf_of_read_eq hb hcap (by rw [hstore])
  · exact State.peek_congr (State.buf_setBuf_ne h) off

end Sys2Proof.Machine
end

section
/-! CERTIFICATE. The reads RDU32, RDF32 and RDB: what they answer, and what they leave unchanged
(41_typed_codec.md R111, R113, R115). -/

namespace Sys2Proof.Machine

section Reads

variable {s : State} {sa : SlotId} {b : Buffer}

/-- RDU32 and RDF32 have one rule: a float is read as its bit pattern (41_typed_codec.md R113). -/
theorem exec_of_typedRead {i : Instr} (hi : i = .rdu32 sa ∨ i = .rdf32 sa) (s : State) :
    commonChecks i = [.inRange sa, .isValid sa] ∧ exec i s = command i (readWord sa) s := by
  obtain rfl | rfl := hi <;> exact ⟨rfl, rfl⟩

theorem exec_typedRead_served {i : Instr} (hi : i = .rdu32 sa ∨ i = .rdf32 sa) (hrun : s.running)
    (hb : s.buf sa = some b) (hrc : b.rc.toNat ≤ b.cap.toNat) (hcap : 4 ≤ b.cap.toNat) :
    exec i s = .next
      ((s.setBuf sa { b with rc := BitVec.ofNat 32 (nextRc b.cap.toNat b.rc.toNat 4) }).respond
        (Reply.word ⟨lapWord b b.rc.toNat, decide (b.cap.toNat < b.rc.toNat + 4), false⟩)) := by
  obtain ⟨hchecks, hexec⟩ := exec_of_typedRead hi s
  rw [hexec, command_on_valid hchecks hrun hb, readWord, readRun_served (n := Config.unit) hb hrc hcap]
  rfl

theorem exec_typedRead_rangeFault {i : Instr} (hi : i = .rdu32 sa ∨ i = .rdf32 sa) (hrun : s.running)
    (hb : s.buf sa = some b) (h : ¬ (b.rc.toNat ≤ b.cap.toNat ∧ 4 ≤ b.cap.toNat)) :
    exec i s = .next (s.enterFault .rangeFault i.opcode sa) := by
  obtain ⟨hchecks, hexec⟩ := exec_of_typedRead hi s
  rw [hexec, command_on_valid hchecks hrun hb, readWord, readRun_rangeFault (n := Config.unit) hb h]
  rfl

theorem exec_rdb_served {n : Word} (hrun : s.running) (hb : s.buf sa = some b)
    (hrc : b.rc.toNat ≤ b.cap.toNat) (hn : n.toNat ≤ b.cap.toNat) :
    exec (.rdb sa n) s = .next
      (((s.setBuf sa { b with rc := BitVec.ofNat 32 (nextRc b.cap.toNat b.rc.toNat n.toNat) }).emit
        (lapBytes b b.rc.toNat n.toNat)).respond
        (Reply.word ⟨n, decide (b.cap.toNat < b.rc.toNat + n.toNat), false⟩)) := by
  rw [exec, execRdb, command_on_valid rfl hrun hb, readRun_served hb hrc hn]
  rfl

theorem exec_rdb_rangeFault {n : Word} (hrun : s.running) (hb : s.buf sa = some b)
    (h : ¬ (b.rc.toNat ≤ b.cap.toNat ∧ n.toNat ≤ b.cap.toNat)) :
    exec (.rdb sa n) s = .next (s.enterFault .rangeFault 0x14#8 sa) := by
  rw [exec, execRdb, command_on_valid rfl hrun hb, readRun_rangeFault hb h]
  rfl

end Reads

/-- Settles O35: the two commands are one read of 4 bytes, served or not. -/
theorem typedReadsAnswerTheWordAtTheCursor : Obligations.TypedReadsAnswerTheWordAtTheCursor := by
  refine ⟨fun sa w1 w2 w3 => ⟨?_, ?_⟩, fun s sa b i hi hrun hb => ⟨?_, fun h => ?_⟩⟩
  · simpa [opcodeRows, Row.opc] using
      decode_packDesc (r := opcodeRows[6]) (List.getElem_mem _) (by decide) (by decide) sa w1 w2 w3
  · simpa [opcodeRows, Row.opc] using
      decode_packDesc (r := opcodeRows[8]) (List.getElem_mem _) (by decide) (by decide) sa w1 w2 w3
  · exact exec_typedRead_served hi hrun hb
  · exact exec_typedRead_rangeFault hi hrun hb (by omega)

/-- Settles O36: one read of N bytes, served or not. -/
theorem rdbEmitsTheBytesAtTheCursor : Obligations.RdbEmitsTheBytesAtTheCursor := by
  refine ⟨fun sa n w2 w3 => ?_, fun s sa b n hrun hb => ⟨?_, fun h => ?_⟩⟩
  · simpa [opcodeRows, Row.opc] using
      decode_packDesc (r := opcodeRows[10]) (List.getElem_mem _) (by decide) (by decide) sa n w2 w3
  · exact exec_rdb_served hrun hb
  · exact exec_rdb_rangeFault hrun hb (by omega)

/-! ### The frame of a read -/

/-- How a read ends: halted with no slot changed, or with the read cursor of its slot moved and, for RDB, bytes
emitted. -/
inductive ReadEnds (i : Instr) (sa : SlotId) (n : Word) (s : State) : State → Prop
  | halted {t : State} (h : HaltedFrom s t) : ReadEnds i sa n s t
  | served {b : Buffer} (rc : Word) (bs : List Byte) (w : Resp) (hrun : s.running) (hb : s.buf sa = some b)
      (hbs : i ≠ .rdb sa n → bs = []) :
      ReadEnds i sa n s (((s.setBuf sa { b with rc := rc }).emit bs).respond w)

@[simp] theorem State.emit_nil (s : State) : s.emit [] = s := by
  simp [State.emit]

theorem readEnds_of_exec {i : Instr} {sa : SlotId} {n : Word} {s t : State}
    (hi : i = .rdu32 sa ∨ i = .rdf32 sa ∨ i = .rdb sa n) (ht : exec i s = .next t) : ReadEnds i sa n s t := by
  have hchecks : commonChecks i = [.inRange sa, .isValid sa] := by
    obtain rfl | rfl | rfl := hi <;> rfl
  obtain h | ⟨hrun, b, hb⟩ := haltedFrom_or_exists_buf hchecks ht
  · exact .halted h
  rw [← or_assoc] at hi
  obtain hi | rfl := hi
  · by_cases hfit : b.rc.toNat ≤ b.cap.toNat ∧ 4 ≤ b.cap.toNat
    · rw [exec_typedRead_served hi hrun hb hfit.1 hfit.2] at ht
      cases ht
      rw [← State.emit_nil (s.setBuf sa _)]
      exact .served _ [] _ hrun hb fun _ => rfl
    · rw [exec_typedRead_rangeFault hi hrun hb hfit] at ht
      cases ht
      exact .halted (haltedFrom_enterFault ..)
  · by_cases hfit : b.rc.toNat ≤ b.cap.toNat ∧ n.toNat ≤ b.cap.toNat
    · rw [exec_rdb_served hrun hb hfit.1 hfit.2] at ht
      cases ht
      exact .served _ _ _ hrun hb (absurd rfl)
    · rw [exec_rdb_rangeFault hrun hb hfit] at ht
      cases ht
      exact .halted (haltedFrom_enterFault ..)

/-- Settles O21: a read that ends halted changed no slot, and one that is served keeps the storage of its slot. -/
theorem readsLeaveAllButTheReadCursor : Obligations.ReadsLeaveAllButTheReadCursor := by
  intro i sa n s t hi ht
  cases readEnds_of_exec hi ht with
  | halted h =>
    obtain ⟨c, o, sl, r, rfl⟩ := h
    exact ⟨fun _ _ => rfl, ⟨rfl, rfl, rfl, rfl, rfl, rfl⟩, rfl, rfl, fun b hb => ⟨b.rc, hb⟩, id,
      fun _ _ => rfl, fun _ => rfl, fun _ => ⟨rfl, rfl⟩, nofun⟩
  | @served b rc bs w hrun hb hbs =>
    refine ⟨?_, ⟨rfl, rfl, rfl, rfl, State.nslots_setBuf .., rfl⟩, rfl, rfl, ?_, ?_, ?_, ?_, ?_,
      fun _ => ⟨rfl, rfl, rfl, rfl⟩⟩
    · exact fun sl hsl => State.buf_setBuf_ne (by simpa using hsl)
    · rintro b' hb'
      obtain rfl : b = b' := Option.some.inj (hb.symm.trans hb')
      exact ⟨rc, State.buf_setBuf_of_buf hb⟩
    · intro hfree
      simp [hb] at hfree
    · exact State.peek_setBuf_of_store_eq hb rfl rfl
    · intro hne
      simp [hbs hne]
    · intro hfault
      simp [hrun] at hfault

end Sys2Proof.Machine
end

section
/-! CERTIFICATE. The writes WRU32, WRF32 and WRB: what they store, and what they leave unchanged
(41_typed_codec.md R112, R114, R116). -/

namespace Sys2Proof.Machine

/-! ### The state a write leaves when it completes -/

/-- LWF after a write that completes: only WRF32 writes it (10_state.md R18). -/
def lwfAfter (b : Buffer) : Instr → Word
  | .wrf32 _ v => v
  | _ => b.lwf

/-- A write command has taken its payload and stored `bs` at the old write cursor of the Buffer `b` of slot `sa`. -/
def State.stored (s : State) (i : Instr) (sa : SlotId) (b : Buffer) (bs : List Byte) : State :=
  (s.dropDin i.payload).setBuf sa { b with
    wc := nextWc b bs.length
    lwf := lwfAfter b i
    store := memWrite b.store b.wc.toNat bs }

theorem State.buf_stored {s : State} {i : Instr} {sa : SlotId} {b : Buffer} {bs : List Byte}
    (hb : s.buf sa = some b) : (s.stored i sa b bs).buf sa = some { b with
      wc := nextWc b bs.length
      lwf := lwfAfter b i
      store := memWrite b.store b.wc.toNat bs } :=
  State.buf_setBuf_of_buf (s := s.dropDin i.payload) hb

/-- Without a landing the write cursor advances modulo 2^32 (40_cursor_arithmetic.md R97). -/
theorem nextWc_of_not_lands {b : Buffer} {n : Nat} (h : ¬ landsInRing b n = true) :
    nextWc b n = b.wc + BitVec.ofNat 32 n := if_neg h

/-- A write that overshoots does not land on capacity. -/
theorem not_landsInRing_of_lt {b : Buffer} {n : Nat} (h : b.cap.toNat < b.wc.toNat + n) :
    ¬ landsInRing b n = true := by
  have hne : b.wc.toNat + n ≠ b.cap.toNat := by omega
  simp [landsInRing, hne]

/-- Only a ring has landings (40_cursor_arithmetic.md R98). -/
theorem lin_of_landsInRing {b : Buffer} {n : Nat} (h : landsInRing b n = true) : b.lin = false := by
  simp only [landsInRing, Bool.and_eq_true, Bool.not_eq_true'] at h
  exact h.2

section Writes

variable {s : State} {sa : SlotId} {b : Buffer} (hrun : s.running) (hb : s.buf sa = some b)
include hb

/-! ### WRU32 and WRF32 -/

theorem writeWord_accepted (v : Word) (hn : b.wc.toNat + 4 ≤ b.cap.toNat) :
    writeWord sa v s = .done ⟨0, false, landsInRing b 4⟩
      (s.setBuf sa { b with wc := nextWc b 4, store := memWrite b.store b.wc.toNat (le32 v) }) := by
  rw [writeWord, writeRun_accepted (bs := le32 v) hb hn fun _ => by omega]
  rfl

theorem writeWord_overshoots (v : Word) (h : b.cap.toNat < b.wc.toNat + 4) :
    writeWord sa v s = .raised (overflowOf b) sa (s.setBuf sa { b with wc := nextWc b 4 }) := by
  rw [writeWord, writeRun_overshoots (bs := le32 v) hb (.inl h)]
  rfl

include hrun

theorem exec_typedWrite_accepted {i : Instr} {v : Word} (hi : i = .wru32 sa v ∨ i = .wrf32 sa v)
    (hn : b.wc.toNat + 4 ≤ b.cap.toNat) :
    exec i s = .next ((s.stored i sa b (le32 v)).respond (Reply.word ⟨0, false, landsInRing b 4⟩)) := by
  obtain rfl | rfl := hi
  · rw [exec, execWru32, command_on_valid rfl hrun hb, writeWord_accepted hb v hn]
    rfl
  · rw [exec, execWrf32, command_on_valid rfl hrun hb, writeWord_accepted hb v hn, Run.bind_done,
      setLwf_eq_onBuf, State.onBuf_eq_elim, State.buf_setBuf_of_buf hb, Option.elim_some, State.setBuf_setBuf]
    rfl

theorem exec_typedWrite_overshoots {i : Instr} {v : Word} (hi : i = .wru32 sa v ∨ i = .wrf32 sa v)
    (h : b.cap.toNat < b.wc.toNat + 4) :
    exec i s = .next ((s.setBuf sa { b with wc := nextWc b 4 }).enterFault (overflowOf b) i.opcode sa) := by
  obtain rfl | rfl := hi
  · rw [exec, execWru32, command_on_valid rfl hrun hb, writeWord_overshoots hb v h]
    rfl
  · rw [exec, execWrf32, command_on_valid rfl hrun hb, writeWord_overshoots hb v h]
    rfl

/-! ### WRB -/

theorem exec_wrb_accepted {n : Word} (hn : b.wc.toNat + n.toNat ≤ b.cap.toNat)
    (h4 : landsInRing b n.toNat = true → 4 ≤ b.cap.toNat) (hd : n.toNat ≤ s.din.length) :
    exec (.wrb sa n) s = .next ((s.stored (.wrb sa n) sa b (s.din.take n.toNat)).respond
      (Reply.word ⟨0, false, landsInRing b n.toNat⟩)) := by
  rw [State.stored, List.length_take_of_le hd]
  exact execWrb_accepted hrun hb hn h4 hd

/-- The payload is asked for only after the region was acquired (41_typed_codec.md R116). -/
theorem exec_wrb_starved {n : Word} (hn : b.wc.toNat + n.toNat ≤ b.cap.toNat)
    (h4 : landsInRing b n.toNat = true → 4 ≤ b.cap.toNat) (hd : s.din.length < n.toNat) :
    exec (.wrb sa n) s = .fault .payloadStarved := by
  rw [exec, execWrb, command_on_valid rfl hrun hb, openRun_accepted hb hn h4, Run.bind_done,
    dinTake_starved (s := s.setBuf sa _) hd]
  rfl

theorem exec_wrb_overshoots {n : Word}
    (h : b.cap.toNat < b.wc.toNat + n.toNat ∨ (landsInRing b n.toNat = true ∧ b.cap.toNat < 4)) :
    exec (.wrb sa n) s =
      .next ((s.setBuf sa { b with wc := nextWc b n.toNat }).enterFault (overflowOf b) 0x15#8 sa) := by
  rw [exec, execWrb, command_on_valid rfl hrun hb, openRun_overshoots hb h]
  rfl

end Writes

/-- Settles O37: the two commands are one write of 4 bytes, and WRF32 keeps its value in LWF. -/
theorem typedWritesStoreTheWordAtTheCursor : Obligations.TypedWritesStoreTheWordAtTheCursor := by
  refine ⟨fun sa v w2 w3 => ⟨?_, ?_⟩, fun s sa b v lwf i hi hrun hb => ?_⟩
  · simpa [opcodeRows, Row.opc] using
      decode_packDesc (r := opcodeRows[7]) (List.getElem_mem _) (by decide) (by decide) sa v w2 w3
  · simpa [opcodeRows, Row.opc] using
      decode_packDesc (r := opcodeRows[9]) (List.getElem_mem _) (by decide) (by decide) sa v w2 w3
  · have hi' : i = .wru32 sa v ∨ i = .wrf32 sa v := hi.imp And.left And.left
    refine ⟨fun hn => ⟨_, Memory.filled_memWrite _ _ _, ?_⟩, fun h => ?_⟩
    · rw [exec_typedWrite_accepted hrun hb hi' hn]
      obtain ⟨rfl, rfl⟩ | ⟨rfl, rfl⟩ := hi <;> rfl
    · rw [exec_typedWrite_overshoots hrun hb hi' h, nextWc_of_not_lands (not_landsInRing_of_lt h)]
      rfl

/-- Settles O38: the region is acquired or overshoots, and only then is the payload taken or waited for. -/
theorem wrbStoresItsPayloadAtTheCursor : Obligations.WrbStoresItsPayloadAtTheCursor := by
  refine ⟨fun sa n w2 w3 => ?_, fun s sa b n hrun hb =>
    ⟨fun h => ?_, fun hl hcap => ?_, fun hn h4 => ⟨?_, fun hd => ?_⟩⟩⟩
  · simpa [opcodeRows, Row.opc] using
      decode_packDesc (r := opcodeRows[11]) (List.getElem_mem _) (by decide) (by decide) sa n w2 w3
  · rw [exec_wrb_overshoots hrun hb (.inl h), nextWc_of_not_lands (not_landsInRing_of_lt h), BitVec.ofNat_toNat,
      BitVec.setWidth_eq]
  · rw [exec_wrb_overshoots hrun hb (.inr ⟨hl, hcap⟩), nextWc, if_pos hl, overflowOf, lin_of_landsInRing hl]
    rfl
  · exact exec_wrb_starved hrun hb hn h4
  · refine ⟨_, Memory.filled_memWrite _ _ _, ?_⟩
    rw [exec_wrb_accepted hrun hb hn h4 hd, State.stored, List.length_take_of_le hd]
    rfl

/-! ### The frame of a write -/

/-- How a write of `len` bytes ends: halted with no slot changed, halted with the write cursor of its slot moved, or
with its bytes stored. -/
inductive WriteEnds (i : Instr) (sa : SlotId) (len : Nat) (s : State) : State → Prop
  | halted {t : State} (h : HaltedFrom s t) : WriteEnds i sa len s t
  | overflowed {t : State} {b : Buffer} (hb : s.buf sa = some b)
      (h : HaltedFrom (s.setBuf sa { b with wc := nextWc b len }) t) : WriteEnds i sa len s t
  | stored {b : Buffer} (bs : List Byte) (w : Resp) (hrun : s.running) (hb : s.buf sa = some b)
      (hlen : bs.length = len) : WriteEnds i sa len s ((s.stored i sa b bs).respond w)

theorem writeEnds_of_exec {i : Instr} {sa : SlotId} {v n : Word} {len : Nat} {s t : State}
    (hi : (i = .wru32 sa v ∧ len = 4) ∨ (i = .wrf32 sa v ∧ len = 4) ∨ (i = .wrb sa n ∧ len = n.toNat))
    (ht : exec i s = .next t) : WriteEnds i sa len s t := by
  have hchecks : commonChecks i = [.inRange sa, .isValid sa] := by
    obtain ⟨rfl, -⟩ | ⟨rfl, -⟩ | ⟨rfl, -⟩ := hi <;> rfl
  obtain h | ⟨hrun, b, hb⟩ := haltedFrom_or_exists_buf hchecks ht
  · exact .halted h
  rw [← or_assoc, ← or_and_right] at hi
  obtain ⟨hi, rfl⟩ | ⟨rfl, rfl⟩ := hi
  · by_cases hover : b.cap.toNat < b.wc.toNat + 4
    · rw [exec_typedWrite_overshoots hrun hb hi hover] at ht
      cases ht
      exact .overflowed hb (haltedFrom_enterFault ..)
    · rw [exec_typedWrite_accepted hrun hb hi (not_lt.1 hover)] at ht
      cases ht
      exact .stored _ _ hrun hb (length_le32 v)
  · by_cases hover : b.cap.toNat < b.wc.toNat + n.toNat ∨ (landsInRing b n.toNat = true ∧ b.cap.toNat < 4)
    · rw [exec_wrb_overshoots hrun hb hover] at ht
      cases ht
      exact .overflowed hb (haltedFrom_enterFault ..)
    · simp only [not_or, not_and, not_lt] at hover
      obtain ⟨hn, h4⟩ := hover
      by_cases hd : n.toNat ≤ s.din.length
      · rw [exec_wrb_accepted hrun hb hn h4 hd] at ht
        cases ht
        exact .stored _ _ hrun hb (List.length_take_of_le hd)
      · rw [exec_wrb_starved hrun hb hn h4 (not_le.1 hd)] at ht
        cases ht

/-- Outside the region a stored write changes no byte of its slot. -/
theorem State.peek_stored_of_outside {s : State} {i : Instr} {sa : SlotId} {b : Buffer} {bs : List Byte} {off : Nat}
    (hb : s.buf sa = some b) (hoff : ¬ (b.wc.toNat ≤ off ∧ off < b.wc.toNat + bs.length)) :
    (s.stored i sa b bs).peek sa off = s.peek sa off :=
  State.peek_setBuf_of_read_eq (s := s.dropDin i.payload) hb rfl
    ((Memory.filled_memWrite b.store b.wc.toNat bs off).trans (if_neg hoff))

/-- Settles O22: the frame of every command, and what is left of each end of a write. -/
theorem writesLeaveAllButTheirRegion : Obligations.WritesLeaveAllButTheirRegion := by
  intro i sa v n len s t hi ht
  have hends := writeEnds_of_exec hi ht
  obtain ⟨hwrites, hpayload, hlwf⟩ : i.writes = [sa] ∧ (i ≠ .wrb sa n → i.payload = 0) ∧
      (i ≠ .wrf32 sa v → ∀ b, lwfAfter b i = b.lwf) := by
    obtain ⟨rfl, -⟩ | ⟨rfl, -⟩ | ⟨rfl, -⟩ := hi <;> simp [Instr.writes, Instr.payload, lwfAfter]
  obtain ⟨hothers, houtside, hpeek⟩ := commandsLeaveOtherSlots i s t ht
  rw [hwrites] at hothers hpeek
  replace hpeek : ∀ sl off, sl ≠ sa → t.peek sl off = s.peek sl off := fun sl off hne =>
    hpeek sl (by simpa using hne) off
  refine ⟨hothers, houtside, ?_⟩
  cases hends with
  | halted h =>
    obtain ⟨c, o, sl, r, rfl⟩ := h
    exact ⟨rfl, rfl, fun _ => rfl, nofun, hpeek, id, fun b hb =>
      ⟨b, hb, rfl, rfl, rfl, fun _ => rfl, fun _ _ => rfl, fun _ _ => rfl⟩⟩
  | @overflowed _ b hb h =>
    obtain ⟨c, o, sl, r, rfl⟩ := h
    have hsame := State.peek_setBuf_of_store_eq (b' := { b with wc := nextWc b len }) hb rfl rfl sa
    refine ⟨rfl, rfl, fun _ => rfl, nofun, hpeek, by simp [hb], fun b₀ hb₀ => ?_⟩
    obtain rfl : b = b₀ := Option.some.inj (hb.symm.trans hb₀)
    exact ⟨_, State.buf_setBuf_of_buf hb, rfl, rfl, rfl, fun _ => rfl, fun off _ => hsame off, fun _ => hsame⟩
  | @stored b bs w hrun hb hlen =>
    subst hlen
    refine ⟨rfl, rfl, fun hne => ?_, fun _ => ⟨rfl, rfl, rfl, rfl⟩, hpeek, by simp [hb], fun b₀ hb₀ => ?_⟩
    · change s.din.drop i.payload = s.din
      rw [hpayload hne, List.drop_zero]
    · obtain rfl : b = b₀ := Option.some.inj (hb.symm.trans hb₀)
      have hfault : ¬ s.fault = true := by simp [hrun]
      exact ⟨_, State.buf_stored hb, rfl, rfl, rfl, fun h => hlwf (h.resolve_right hfault) b,
        fun off => State.peek_stored_of_outside hb, fun h => absurd h hfault⟩

end Sys2Proof.Machine
end

section
/-! CERTIFICATE. What is written where the reader stands is read back (41_typed_codec.md R117, R118). -/

namespace Sys2Proof.Machine

/-- A read that does not go round the end of storage gives back what was last stored in its region
(40_cursor_arithmetic.md R93). -/
theorem lapBytes_of_filled {b : Buffer} {m : Memory} {off : Nat} {bs : List Byte} (h : Filled m b.store off bs)
    (hfit : off + bs.length ≤ b.cap.toNat) : lapBytes b off bs.length = bs := by
  refine List.ext_getElem (by simp [lapBytes]) fun k hk hk' => ?_
  have hread := h (off + k)
  rw [if_pos (by omega), Nat.add_sub_cancel_left, List.getD_eq_getElem _ _ hk'] at hread
  simp only [lapBytes, List.getElem_map, List.getElem_range]
  rw [Nat.mod_eq_of_lt (by omega), hread]

/-- The response of a completion with no wrap bit (30_encoding.md R75). -/
theorem word_plain (v : Word) : (Reply.plain v).word = valueResp v := by
  apply BitVec.eq_of_getLsbD_eq
  intro j hj
  simp [Reply.word, Reply.plain, responseWord, valueResp]

section Readback

variable {s : State} {sa : SlotId} {b : Buffer} (hrun : s.running) (hb : s.buf sa = some b)
  {m : Memory} {bs : List Byte} (hfill : Filled m b.store b.rc.toNat bs)
  (hfit : b.rc.toNat + bs.length ≤ b.cap.toNat)
include hrun hb hfill hfit

/-- A word that stands at the read cursor is answered as it was stored (41_typed_codec.md R111, R113). -/
theorem exec_typedRead_of_filled {r : Instr} (hr : r = .rdu32 sa ∨ r = .rdf32 sa) {v : Word} (hv : bs = le32 v) :
    ∃ u, exec r s = .next u ∧ u.rsp = s.rsp ++ [valueResp v] := by
  subst hv
  have hlap : lapWord b b.rc.toNat = v :=
    (congrArg unLE32 (lapBytes_of_filled hfill hfit)).trans (unLE32_le32 v)
  rw [length_le32] at hfit
  refine ⟨_, exec_typedRead_served hr hrun hb (by omega) (by omega), ?_⟩
  rw [hlap, decide_eq_false (not_lt.2 hfit)]
  exact congrArg (s.rsp ++ [·]) (word_plain v)

/-- A run that stands at the read cursor is emitted as it was stored (41_typed_codec.md R115). -/
theorem exec_rdb_of_filled {n : Word} (hn : bs.length = n.toNat) :
    ∃ u, exec (.rdb sa n) s = .next u ∧ u.rsp = s.rsp ++ [valueResp n] ∧ u.dout = s.dout ++ bs := by
  have hlap := lapBytes_of_filled hfill hfit
  rw [hn] at hfit hlap
  refine ⟨_, exec_rdb_served hrun hb (by omega) (by omega), ?_, ?_⟩
  · rw [decide_eq_false (not_lt.2 hfit)]
    exact congrArg (s.rsp ++ [·]) (word_plain n)
  · rw [hlap]
    rfl

end Readback

/-- Settles O47: the write leaves its bytes at the read cursor, in one piece before capacity. -/
theorem writeThenReadGivesTheValueBack : Obligations.WriteThenReadGivesTheValueBack := by
  intro s sa b hrun hb hrc
  have hfill : ∀ bs, Filled b.store (memWrite b.store b.wc.toNat bs) b.rc.toNat bs := fun bs => by
    rw [hrc]
    exact Memory.filled_memWrite b.store b.wc.toNat bs
  refine ⟨fun v w r hw hr hn => ?_, fun n hn h4 hd => ?_⟩
  · have hfit : b.rc.toNat + (le32 v).length ≤ b.cap.toNat := by rwa [hrc]
    obtain ⟨u, hu, hrsp⟩ := exec_typedRead_of_filled
      (s := (s.stored w sa b (le32 v)).respond (Reply.word ⟨0, false, landsInRing b 4⟩))
      hrun (State.buf_stored hb) (hfill (le32 v)) hfit hr rfl
    exact ⟨_, u, exec_typedWrite_accepted hrun hb hw hn, hu, hrsp⟩
  · have hlen : (s.din.take n.toNat).length = n.toNat := List.length_take_of_le hd
    have hfit : b.rc.toNat + (s.din.take n.toNat).length ≤ b.cap.toNat := by rwa [hrc, hlen]
    obtain ⟨u, hu, hrsp, hdout⟩ := exec_rdb_of_filled
      (s := (s.stored (.wrb sa n) sa b (s.din.take n.toNat)).respond (Reply.word ⟨0, false, landsInRing b n.toNat⟩))
      hrun (State.buf_stored hb) (hfill (s.din.take n.toNat)) hfit hlen
    exact ⟨_, u, exec_wrb_accepted hrun hb hn h4 hd, hu, hrsp, hdout⟩

end Sys2Proof.Machine
end

section
/-! SUPPORT. The commands on two slots: their descriptors, their checks, and the commands that end in a halted block
(42_nested_buffer.md R131). -/

namespace Sys2Proof.Machine

/-! ### Descriptors -/

/-- The descriptors of WRBUF and RDBUF use SB (30_encoding.md R61, R64, R72). -/
theorem decode_packDesc_twoSlots {r : Row} (hr : r ∈ opcodeRows) (hopc : r.opc = 0x20#8 ∨ r.opc = 0x21#8)
    (sa sb : SlotId) (w1 w2 w3 : Word) : decode (packDesc r.opc sa sb false w1 w2 w3) =
      .ok (r.build (packDesc r.opc sa sb false w1 w2 w3)) := by
  have hs : r.selects (packDesc r.opc sa sb false w1 w2 w3) = true := by
    refine (selects_iff hr).2 ⟨by simp, ?_⟩
    obtain h | h := hopc <;> simp [Desc.UnusedZero, Desc.rsv, h]
  have hqry : ¬ r.opc = 0x05#8 := by
    obtain h | h := hopc <;> simp [h]
  rw [decode_of_selects hr hs, if_pos ((wellFormed_build_iff hr).2 fun h => hqry h.1)]

/-! ### Checks -/

theorem wrbufChecks_pass {s : State} {o j : SlotId} {ob ib : Buffer} (hne : o ≠ j) (ho : s.buf o = some ob)
    (hj : s.buf j = some ib) : commonFault (.wrbuf o j) s = none := by
  simp [commonFault, commonChecks, Check.failure, hne, ho, hj, State.inRange_of_buf ho, State.inRange_of_buf hj]

theorem rdbufChecks_pass {s : State} {o d : SlotId} {b : Buffer} (ho : s.buf o = some b)
    (hr : s.inRange d = true) (hd : s.buf d = none) : commonFault (.rdbuf o d) s = none := by
  have hne : o ≠ d := fun h => by simp [← h, ho] at hd
  simp [commonFault, commonChecks, Check.failure, hne, ho, hd, hr, State.inRange_of_buf ho]

/-- A slot that passed its check holds a Buffer (60_exceptions.md R173, steps 5 and 7). -/
theorem exists_buf_of_commonFault_none {i : Instr} {s : State} {sl : SlotId} (h : commonFault i s = none)
    (hc : Check.isValid sl ∈ commonChecks i) : ∃ b, s.buf sl = some b := by
  simpa [Check.failure, Option.isSome_iff_exists] using check_passes_of_commonFault_none h hc

/-- A command that ends otherwise than in a halted block with no slot changed began in a running block and passed its
checks. -/
theorem haltedFrom_or_commonFault_none {i : Instr} {s t : State} (ht : exec i s = .next t) :
    HaltedFrom s t ∨ s.running ∧ commonFault i s = none := by
  obtain ⟨body, hexec⟩ := exists_exec_eq_command i s
  obtain ⟨hf, rfl⟩ | ⟨-, k, sl, -, rfl⟩ | ⟨hrun, hc, -⟩ := command_cases (hexec.symm.trans ht)
  · exact .inl (haltedFrom_answerHalted hf)
  · exact .inl (haltedFrom_enterFault ..)
  · exact .inr ⟨hrun, hc⟩

/-- `t` is `u` answered, or `u` halted. -/
def EndsAs (u t : State) : Prop := (∃ w, t = u.respond w) ∨ HaltedFrom u t

/-- The end of a command changes the status registers and the responses at most. -/
theorem EndsAs.same {u t : State} (h : EndsAs u t) : t.slots = u.slots ∧ t.din = u.din ∧ t.dout = u.dout ∧
    t.freeCount = u.freeCount ∧ (t.fault = false → SameStatus u t) := by
  obtain ⟨w, rfl⟩ | ⟨c, o, sl, r, rfl⟩ := h
  · exact ⟨rfl, rfl, rfl, rfl, fun _ => ⟨rfl, rfl, rfl, rfl⟩⟩
  · exact ⟨rfl, rfl, rfl, rfl, nofun⟩

/-- Writing back the Buffer a slot holds changes nothing. -/
theorem State.setBuf_self {s : State} {sl : SlotId} {b : Buffer} (h : s.buf sl = some b) : s.setBuf sl b = s := by
  obtain ⟨hlt, hget⟩ := List.getElem?_eq_some_iff.1 (Option.join_eq_some_iff.1 h)
  rw [State.setBuf, ← hget, List.set_getElem_self]

end Sys2Proof.Machine
end

section
/-! CERTIFICATE. WRBUF: its four writes, and what they leave unchanged (42_nested_buffer.md R130, R132, R133). -/

namespace Sys2Proof.Machine

/-! ### Successive writes into one slot -/

/-- Both ends of the write primitive leave the same Buffer (40_cursor_arithmetic.md R97, R99). -/
theorem acquireWrite_cases (b : Buffer) (n : Nat) :
    acquireWrite b n = .overflow (overflowOf b) { b with wc := nextWc b n } ∨
    acquireWrite b n = .region b.wc.toNat (landsInRing b n) { b with wc := nextWc b n } := by
  by_cases hover : b.cap.toNat < b.wc.toNat + n ∨ (landsInRing b n = true ∧ b.cap.toNat < 4)
  · exact .inl (acquireWrite_overshoots hover)
  · simp only [not_or, not_and, not_lt] at hover
    exact .inr (acquireWrite_accepted hover.1 hover.2)

/-- How writes into slot `sl` end that began in `s` and left the Buffer, the snap and the fault of `writeAll`; `w` says
whether a write before them snapped. -/
def endOfWrites (sl : SlotId) (s : State) (w : Bool) : Buffer × Bool × Option FaultKind → Run Bool
  | (b, snapped, none) => .done (w || snapped) (s.setBuf sl b)
  | (b, _, some k) => .raised k sl (s.setBuf sl b)

/-- The write runs of a slot are successive writes into its Buffer (42_nested_buffer.md R132). -/
theorem writeRuns_eq_endOfWrites {s : State} {sl : SlotId} {b : Buffer} (hb : s.buf sl = some b)
    (parts : List (List Byte)) (w : Bool) :
    writeRuns sl parts w s = endOfWrites sl s w (writeAll b parts) := by
  induction parts generalizing s b w with
  | nil => simp [writeRuns, writeAll, endOfWrites, State.setBuf_self hb]
  | cons bs rest ih =>
    obtain h | h := acquireWrite_cases b bs.length
    · simp [writeRuns, writeRun, openRun, withBuf_of_buf hb, writeAll, endOfWrites, h]
    · have hrun : writeRun sl bs s = .done (landsInRing b bs.length) (s.setBuf sl { b with
          wc := nextWc b bs.length
          store := memWrite b.store b.wc.toNat bs }) := by
        simp [writeRun, openRun, withBuf_of_buf hb, h, fillRun_of_buf (State.buf_setBuf_of_buf hb)]
      rw [writeRuns, hrun, Run.bind_done, ih (State.buf_setBuf_of_buf hb)]
      simp only [writeAll, h]
      generalize writeAll _ rest = r
      obtain ⟨b', sn, _ | k⟩ := r <;> simp [endOfWrites, Bool.or_assoc]

/-! ### The whole command -/

theorem nestedParts_eq (b : Buffer) :
    nestedParts b = [le32 b.cap, le32 b.rc, le32 b.wc, firstBytes b b.cap.toNat] := by
  rw [nestedParts, firstBytes_eq_memRead]

/-- WRBUF on two valid slots ends as its writes do (42_nested_buffer.md R132). -/
theorem exec_wrbuf {s : State} {o j : SlotId} {ob ib : Buffer} (hrun : s.running) (hne : o ≠ j)
    (ho : s.buf o = some ob) (hj : s.buf j = some ib) : exec (.wrbuf o j) s =
      ((endOfWrites o s false (writeAll ob (nestedParts ib))).bind fun w u =>
        .done ⟨0, false, w⟩ u).close 0x20#8 := by
  rw [exec, execWrbuf, command_runs hrun (wrbufChecks_pass hne ho hj), withBuf_of_buf hj,
    writeRuns_eq_endOfWrites ho]
  rfl

/-- Settles O40: the write runs into the outer slot are the successive writes into its Buffer. -/
theorem wrbufIsFourWritesInOrder : Obligations.WrbufIsFourWritesInOrder := by
  refine ⟨fun o j w1 w2 w3 => ?_, fun s o j ob ib hrun hne ho hj b' w f hw => ?_⟩
  · simpa [opcodeRows, Row.opc] using
      decode_packDesc_twoSlots (r := opcodeRows[12]) (List.getElem_mem _) (by decide) o j w1 w2 w3
  · rw [exec_wrbuf hrun hne ho hj, nestedParts_eq, hw]
    refine ⟨?_, ?_⟩
    · rintro rfl
      simp [endOfWrites]
    · rintro k rfl
      rfl

/-! ### Writes that fit before capacity -/

theorem memWrite_append (m : Memory) (off : Nat) (bs bs' : List Byte) :
    memWrite m off (bs ++ bs') = memWrite (memWrite m off bs) (off + bs.length) bs' := by
  induction bs generalizing m off with
  | nil => rfl
  | cons c bs ih =>
    rw [List.cons_append, memWrite, memWrite, ih, List.length_cons, Nat.add_assoc, Nat.add_comm 1]

/-- What a write of `m` bytes leaves to the next one of `n` when both together fit (40_cursor_arithmetic.md R97, R98):
only an empty one can follow a landing. -/
theorem nextWc_nextWc {b : Buffer} {m n : Nat} (h4 : 4 ≤ b.cap.toNat) (hfit : b.wc.toNat + (m + n) ≤ b.cap.toNat) :
    (nextWc b m).toNat + n ≤ b.cap.toNat ∧
    nextWc { b with wc := nextWc b m } n = nextWc b (m + n) ∧
    (landsInRing b m || landsInRing { b with wc := nextWc b m } n) = landsInRing b (m + n) ∧
    (n = 0 ∨ (nextWc b m).toNat = b.wc.toNat + m) := by
  have htoNat := toNat_nextWc (b := b) (n := m) (by omega)
  by_cases hl : landsInRing b m = true
  · have hwc : nextWc b m = 4 := if_pos hl
    obtain rfl : n = 0 := by
      simp only [landsInRing, Bool.and_eq_true, decide_eq_true_eq] at hl
      omega
    refine ⟨by simpa [hwc] using h4, ?_, by simp [hl], .inl rfl⟩
    simp [nextWc, hl]
  · rw [if_neg hl] at htoNat
    have hlands : landsInRing { b with wc := nextWc b m } n = landsInRing b (m + n) := by
      simp only [landsInRing, htoNat, Nat.add_assoc]
    refine ⟨by omega, ?_, by simp [hl, hlands], .inr htoNat⟩
    rw [nextWc, hlands, nextWc_of_not_lands hl, nextWc, BitVec.ofNat_add, BitVec.add_assoc]

/-- Writes that fit before capacity are one write of their bytes (42_nested_buffer.md R133). -/
theorem writeAll_of_fits {b : Buffer} (bs : List Byte) (rest : List (List Byte)) (h4 : 4 ≤ b.cap.toNat)
    (hfit : b.wc.toNat + (bs ++ rest.flatten).length ≤ b.cap.toNat) :
    writeAll b (bs :: rest) = ({ b with
      wc := nextWc b (bs ++ rest.flatten).length
      store := memWrite b.store b.wc.toNat (bs ++ rest.flatten) },
      landsInRing b (bs ++ rest.flatten).length, none) := by
  induction rest generalizing b bs with
  | nil =>
    simp only [List.flatten_nil, List.append_nil] at hfit ⊢
    simp [writeAll, acquireWrite_accepted hfit fun _ => h4]
  | cons bs' rest ih =>
    rw [List.flatten_cons, List.length_append] at hfit
    obtain ⟨hnext, hwc, hsnap, hstart⟩ := nextWc_nextWc h4 hfit
    have hstore : memWrite (memWrite b.store b.wc.toNat bs) (nextWc b bs.length).toNat (bs' ++ rest.flatten) =
        memWrite b.store b.wc.toNat (bs ++ (bs' ++ rest.flatten)) := by
      rw [memWrite_append b.store]
      obtain hnil | hstart := hstart
      · rw [List.length_eq_zero_iff.1 hnil]
        rfl
      · rw [hstart]
    have hrest := ih (b := { b with wc := nextWc b bs.length, store := memWrite b.store b.wc.toNat bs }) bs' h4 hnext
    rw [writeAll, acquireWrite_accepted (by omega) fun _ => h4]
    simp only [hrest, List.flatten_cons, List.length_append (as := bs), ← hwc, ← hsnap, ← hstore]
    rfl

/-! ### The serialized form in one piece -/

theorem length_nestedForm (b : Buffer) : (nestedForm b).length = 12 + b.cap.toNat := by
  simp only [nestedForm, firstBytes, List.length_append, length_le32, List.length_map, List.length_range]

/-- The outer Buffer with the serialized form of `ib` stored at its write cursor in one piece. -/
def formStored (ob ib : Buffer) : Buffer :=
  { ob with
    wc := nextWc ob (12 + ib.cap.toNat)
    store := memWrite ob.store ob.wc.toNat (nestedForm ib) }

/-- WRBUF where the whole form fits before capacity (42_nested_buffer.md R130, R132). -/
theorem exec_wrbuf_of_fits {s : State} {o j : SlotId} {ob ib : Buffer} (hrun : s.running) (hne : o ≠ j)
    (ho : s.buf o = some ob) (hj : s.buf j = some ib) (hfit : ob.wc.toNat + 12 + ib.cap.toNat ≤ ob.cap.toNat) :
    exec (.wrbuf o j) s = .next ((s.setBuf o (formStored ob ib)).respond
      (Reply.word ⟨0, false, landsInRing ob (12 + ib.cap.toNat)⟩)) := by
  have hform : le32 ib.cap ++ [le32 ib.rc, le32 ib.wc, firstBytes ib ib.cap.toNat].flatten = nestedForm ib := by
    simp [nestedForm]
  have hwrites := writeAll_of_fits (b := ob) (le32 ib.cap) [le32 ib.rc, le32 ib.wc, firstBytes ib ib.cap.toNat]
    (by omega) (by rw [hform, length_nestedForm]; omega)
  rw [hform, length_nestedForm] at hwrites
  rw [exec_wrbuf hrun hne ho hj, nestedParts_eq, hwrites]
  rfl

/-- Settles O39: writes that fit before capacity are one write of their bytes. -/
theorem wrbufStoresTheSerializedForm : Obligations.WrbufStoresTheSerializedForm :=
  fun _ _ _ _ _ hrun hne ho hj hfit =>
    ⟨_, Memory.filled_memWrite _ _ _, exec_wrbuf_of_fits hrun hne ho hj hfit⟩

/-! ### The frame of WRBUF -/

/-- The write primitive does not look at the storage (40_cursor_arithmetic.md R102). -/
theorem runRegions_store (b : Buffer) (m : Memory) (ns : List Nat) :
    runRegions { b with store := m } ns = runRegions b ns := by
  induction ns generalizing b with
  | nil => rfl
  | cons n ns ih =>
    obtain h | h := acquireWrite_cases b n
    · simp only [runRegions, acquireWrite_store, h]
    · simp only [runRegions, acquireWrite_store, h, ih { b with wc := nextWc b n }]

/-- Successive writes write the write cursor and no other register, and store only into the regions they acquire
(42_nested_buffer.md R132). -/
theorem writeAll_frame (b : Buffer) (parts : List (List Byte)) : ∃ wc m,
    (writeAll b parts).1 = { b with wc := wc, store := m } ∧
    ∀ off, (∀ r ∈ runRegions b (parts.map List.length), ¬ (r.1 ≤ off ∧ off < r.1 + r.2)) →
      m.read off = b.store.read off := by
  induction parts generalizing b with
  | nil => exact ⟨b.wc, b.store, rfl, fun _ _ => rfl⟩
  | cons bs rest ih =>
    obtain h | h := acquireWrite_cases b bs.length
    · exact ⟨nextWc b bs.length, b.store, by simp only [writeAll, h], fun _ _ => rfl⟩
    · obtain ⟨wc, m, hrest, hread⟩ :=
        ih { b with wc := nextWc b bs.length, store := memWrite b.store b.wc.toNat bs }
      refine ⟨wc, m, by simp only [writeAll, h, hrest], fun off hoff => ?_⟩
      simp only [List.map_cons, runRegions, h, List.forall_mem_cons] at hoff
      rw [hread off (by rw [runRegions_store { b with wc := nextWc b bs.length }]; exact hoff.2),
        Memory.filled_memWrite b.store b.wc.toNat bs off, if_neg hoff.1]

/-- How WRBUF ends: halted with no slot changed, or with its writes made in the outer slot. -/
inductive WrbufEnds (o j : SlotId) (s t : State) : Prop
  | halted (h : HaltedFrom s t)
  | wrote {ob ib : Buffer} (ho : s.buf o = some ob) (hj : s.buf j = some ib)
      (h : EndsAs (s.setBuf o (writeAll ob (nestedParts ib)).1) t)

theorem wrbufEnds_of_exec {o j : SlotId} {s t : State} (ht : exec (.wrbuf o j) s = .next t) :
    WrbufEnds o j s t := by
  obtain h | ⟨hrun, hc⟩ := haltedFrom_or_commonFault_none ht
  · exact .halted h
  have hne : o ≠ j := ne_of_commonFault_none hc (by simp [commonChecks])
  obtain ⟨ob, ho⟩ := exists_buf_of_commonFault_none (sl := o) hc (by simp [commonChecks])
  obtain ⟨ib, hj⟩ := exists_buf_of_commonFault_none (sl := j) hc (by simp [commonChecks])
  refine .wrote ho hj ?_
  rw [exec_wrbuf hrun hne ho hj] at ht
  generalize writeAll ob (nestedParts ib) = r at ht ⊢
  obtain ⟨b', w, _ | k⟩ := r
  · cases ht
    exact .inl ⟨_, rfl⟩
  · cases ht
    exact .inr (haltedFrom_enterFault ..)

/-- Settles O25: the frame of every command, and of successive writes into one Buffer. -/
theorem wrbufLeavesAllButItsRegions : Obligations.WrbufLeavesAllButItsRegions := by
  intro o j s t ht
  obtain ⟨hothers, houtside, hpeek⟩ := commandsLeaveOtherSlots _ s t ht
  replace hpeek : ∀ sl off, sl ≠ o → t.peek sl off = s.peek sl off := fun sl off hne =>
    hpeek sl (by simpa [Instr.writes] using hne) off
  refine ⟨hothers, houtside, ?_⟩
  cases wrbufEnds_of_exec ht with
  | halted h =>
    obtain ⟨hslots, hdin, hdout, hfree, hstatus⟩ := EndsAs.same (.inr h)
    have hbuf := State.buf_congr hslots o
    exact ⟨hdin, hdout, hfree, hstatus, hpeek, hbuf.trans, fun b hb =>
      ⟨b, hbuf.trans hb, rfl, rfl, rfl, rfl, fun _ off _ _ => State.peek_congr hbuf off⟩⟩
  | @wrote ob ib ho hj h =>
    obtain ⟨hslots, hdin, hdout, hfree, hstatus⟩ := h.same
    obtain ⟨wc, m, hb', hread⟩ := writeAll_frame ob (nestedParts ib)
    rw [hb'] at hslots
    have hbuf := State.buf_congr hslots o
    refine ⟨hdin, hdout, hfree, hstatus, hpeek, by simp [ho], fun b hb => ?_⟩
    obtain rfl : ob = b := Option.some.inj (ho.symm.trans hb)
    refine ⟨_, hbuf.trans (State.buf_setBuf_of_buf ho), rfl, rfl, rfl, rfl, fun ib' off hj' hoff => ?_⟩
    obtain rfl : ib = ib' := Option.some.inj (hj.symm.trans hj')
    rw [State.peek_congr hbuf off]
    exact State.peek_setBuf_of_read_eq ho rfl (hread off (by simpa [nestedParts] using hoff))

end Sys2Proof.Machine
end

section
/-! CERTIFICATE. RDBUF: the ring buffer it constructs, and what it leaves unchanged (42_nested_buffer.md R134, R136). -/

namespace Sys2Proof.Machine

/-! ### Cursors and bytes on the way round storage -/

/-- The cursor after a read, up to whole laps (40_cursor_arithmetic.md R94). -/
theorem nextRc_modEq (cap c n : Nat) : nextRc cap c n ≡ c + n [MOD cap] := by
  unfold nextRc
  split_ifs with h
  · exact .rfl
  · rw [Nat.ModEq, ← Nat.mod_eq_sub_mod (by omega)]

theorem lapBytes_congr {b : Buffer} {c c' : Nat} (h : c ≡ c' [MOD b.cap.toNat]) (n : Nat) :
    lapBytes b c n = lapBytes b c' n :=
  List.map_congr_left fun p _ => congrArg b.store.read (h.add_right p)

theorem lapWord_congr {b : Buffer} {c c' : Nat} (h : c ≡ c' [MOD b.cap.toNat]) : lapWord b c = lapWord b c' :=
  congrArg unLE32 (lapBytes_congr h 4)

/-- One of two successive reads splits exactly when a read of both lengths would (40_cursor_arithmetic.md R94). -/
theorem split_or_split (cap c m n : Nat) :
    (decide (cap < c + m) || decide (cap < nextRc cap c m + n)) = decide (cap < c + (m + n)) := by
  rw [← Bool.decide_or, decide_eq_decide]
  unfold nextRc
  split_ifs <;> omega

/-! ### Reads of the outer slot, one after another -/

/-- The state with the read cursor of the Buffer `b` of slot `sl` moved to `c`. -/
def State.atRc (s : State) (sl : SlotId) (b : Buffer) (c : Nat) : State :=
  s.setBuf sl { b with rc := BitVec.ofNat 32 c }

/-- From the read cursor of `b` every read of RDBUF is served, and gives these fields, none of them above the ceiling
(42_nested_buffer.md R134, R135). -/
structure ReadsFields (b : Buffer) (cap rc wc : Word) : Prop where
  rc_le : b.rc.toNat ≤ b.cap.toNat
  four_le : 4 ≤ b.cap.toNat
  cap_eq : cap = lapWord b b.rc.toNat
  rc_eq : rc = lapWord b (b.rc.toNat + 4)
  wc_eq : wc = lapWord b (b.rc.toNat + 8)
  cap_small : cap.toNat ≤ 1048576
  rc_small : rc.toNat ≤ 1048576
  wc_small : wc.toNat ≤ 1048576
  run_le : cap.toNat ≤ b.cap.toNat

/-- The read cursor after three fields and a run of `n` bytes (42_nested_buffer.md R134). -/
def rcAfterForm (b : Buffer) (n : Nat) : Nat :=
  nextRc b.cap.toNat (nextRc b.cap.toNat (nextRc b.cap.toNat (nextRc b.cap.toNat b.rc.toNat 4) 4) 4) n

section Reads

variable {s : State} {o d : SlotId} {b : Buffer} (ho : s.buf o = some b)
include ho

theorem State.atRc_self : s.atRc o b b.rc.toNat = s := by
  rw [State.atRc, BitVec.ofNat_toNat, BitVec.setWidth_eq]
  exact State.setBuf_self ho

/-- A read that is served from a cursor that earlier reads may have moved (40_cursor_arithmetic.md R93, R94). -/
theorem readRun_atRc {c n : Nat} (hc : c ≤ b.cap.toNat) (hn : n ≤ b.cap.toNat) :
    readRun o n (s.atRc o b c) =
      .done (lapBytes b c n, decide (b.cap.toNat < c + n)) (s.atRc o b (nextRc b.cap.toNat c n)) := by
  have hrc : (BitVec.ofNat 32 c).toNat = c := Nat.mod_eq_of_lt (hc.trans_lt b.cap.isLt)
  have hrun := readRun_served (n := n) (State.buf_setBuf_of_buf (b' := { b with rc := BitVec.ofNat 32 c }) ho)
    (hrc.trans_le hc) hn
  rw [State.setBuf_setBuf, hrc] at hrun
  exact hrun

/-- A field that can be read and is not above the ceiling (42_nested_buffer.md R134, R135). -/
theorem readField_atRc {c : Nat} {v : Word} (w : Bool) (hc : c ≤ b.cap.toNat) (h4 : 4 ≤ b.cap.toNat)
    (hv : lapWord b c = v) (hceil : v.toNat ≤ 1048576) :
    readField o w (s.atRc o b c) =
      .done (v, w || decide (b.cap.toNat < c + 4)) (s.atRc o b (nextRc b.cap.toNat c 4)) := by
  subst hv
  rw [readField, readRun_atRc ho hc (n := Config.unit) h4, Run.bind_done]
  exact if_neg (not_lt.2 hceil)

/-- RDBUF where every read is served and every field passes the ceiling (42_nested_buffer.md R134, R136). -/
theorem exec_rdbuf_of_readsFields {cap rc wc : Word} (hrun : s.running) (hr : s.inRange d = true)
    (hd : s.buf d = none) (h : ReadsFields b cap rc wc) :
    exec (.rdbuf o d) s = .next
      (((s.atRc o b (rcAfterForm b cap.toNat)).construct d cap rc wc false
          (lapBytes b (b.rc.toNat + 12) cap.toNat)).respond
        (Reply.word ⟨0, decide (b.cap.toNat < b.rc.toNat + 12 + cap.toNat), false⟩)) := by
  obtain ⟨hrc, h4, hcapE, hrcE, hwcE, hcap, hrc', hwc, hlen⟩ := h
  let c₁ := nextRc b.cap.toNat b.rc.toNat 4
  let c₂ := nextRc b.cap.toNat c₁ 4
  let c₃ := nextRc b.cap.toNat c₂ 4
  have hc₁ : c₁ ≤ b.cap.toNat := nextRc_le hrc h4
  have hc₂ : c₂ ≤ b.cap.toNat := nextRc_le hc₁ h4
  have hc₃ : c₃ ≤ b.cap.toNat := nextRc_le hc₂ h4
  have hm₁ : c₁ ≡ b.rc.toNat + 4 [MOD b.cap.toNat] := nextRc_modEq ..
  have hm₂ : c₂ ≡ b.rc.toNat + 8 [MOD b.cap.toNat] := (nextRc_modEq ..).trans (hm₁.add_right 4)
  have hm₃ : c₃ ≡ b.rc.toNat + 12 [MOD b.cap.toNat] := (nextRc_modEq ..).trans (hm₂.add_right 4)
  have hfirst := readField_atRc ho false hrc h4 hcapE.symm hcap
  rw [State.atRc_self ho] at hfirst
  rw [exec, execRdbuf, command_runs hrun (rdbufChecks_pass ho hr hd), hfirst, Run.bind_done,
    readField_atRc ho _ hc₁ h4 ((lapWord_congr hm₁).trans hrcE.symm) hrc', Run.bind_done,
    readField_atRc ho _ hc₂ h4 ((lapWord_congr hm₂).trans hwcE.symm) hwc, Run.bind_done,
    readRun_atRc ho hc₃ hlen, Run.bind_done, Run.close_done, lapBytes_congr hm₃]
  simp only [Bool.false_or, Bool.or_assoc]
  rw [split_or_split, split_or_split, split_or_split,
    show b.rc.toNat + (4 + (4 + (4 + cap.toNat))) = b.rc.toNat + 12 + cap.toNat by omega]
  rfl

end Reads

/-- Settles O41: four reads, each served from where the one before it left the cursor. -/
theorem rdbufConstructsARingBuffer : Obligations.RdbufConstructsARingBuffer := by
  refine ⟨fun o d w1 w2 w3 => ?_, fun s o d b cap rc wc hrun ho hr hd hrc h4 hcapE hrcE hwcE hcap hrc' hwc hlen => ?_⟩
  · simpa [opcodeRows, Row.opc] using
      decode_packDesc_twoSlots (r := opcodeRows[13]) (List.getElem_mem _) (by decide) o d w1 w2 w3
  · exact ⟨_, _, rfl, Memory.read_ofBytes _, exec_rdbuf_of_readsFields ho hrun (decide_eq_true hr) hd
      ⟨hrc, h4, hcapE, hrcE, hwcE, hcap, hrc', hwc, hlen⟩⟩

/-! ### The frame of RDBUF -/

/-- `u` is `s` with the read cursor of the Buffer of slot `o` moved, if at all. -/
def RcMoved (o : SlotId) (s u : State) : Prop :=
  ∃ b rc, s.buf o = some b ∧ u = s.setBuf o { b with rc := rc }

/-- A piece of a command leaves a state in `Q` when it completes, one in `P` when it raises a fault, and never waits:
`Run.Meets` for a command whose last piece leaves the frame of the pieces before it. -/
def Run.Ends {α : Type} (P Q : State → Prop) : Run α → Prop
  | .done _ t => Q t
  | .raised _ _ t => P t
  | .stuck _ => False

theorem Run.Ends.bind {α β : Type} {P Q R : State → Prop} {x : Run α} {f : α → State → Run β} (hx : x.Ends P Q)
    (hf : ∀ a t, Q t → (f a t).Ends P R) : (x.bind f).Ends P R := by
  cases x with
  | done a t => exact hf a t hx
  | raised k sl t => exact hx
  | stuck r => exact hx

/-- What the last piece of a command leaves when the command answers a next state. -/
theorem Run.Ends.of_close_eq_next {P Q : State → Prop} {x : Run Reply} {opc : Byte} {t : State}
    (ht : x.close opc = .next t) (hx : x.Ends P Q) :
    (∃ r u, Q u ∧ t = u.respond (Reply.word r)) ∨ ∃ k sl u, P u ∧ t = u.enterFault k opc sl := by
  obtain ⟨r, u, rfl, rfl⟩ | ⟨k, sl, u, rfl, rfl⟩ := Run.close_eq_next ht
  · exact .inl ⟨r, u, hx, rfl⟩
  · exact .inr ⟨k, sl, u, hx, rfl⟩

section Moves

variable {o : SlotId} {s u : State} (h : RcMoved o s u)
include h

theorem readRun_ends (n : Nat) : (readRun o n u).Ends (RcMoved o s) (RcMoved o s) := by
  have hmoved := h
  obtain ⟨b, rc, hb, rfl⟩ := h
  have hu := State.buf_setBuf_of_buf (b' := { b with rc := rc }) hb
  by_cases hfit : rc.toNat ≤ b.cap.toNat ∧ n ≤ b.cap.toNat
  · rw [readRun_served hu hfit.1 hfit.2]
    exact ⟨b, _, hb, State.setBuf_setBuf ..⟩
  · rw [readRun_rangeFault hu hfit]
    exact hmoved

theorem readField_ends (w : Bool) : (readField o w u).Ends (RcMoved o s) (RcMoved o s) := by
  refine (readRun_ends h _).bind fun r t ht => ?_
  split_ifs
  · exact ht
  · exact ht

end Moves

/-- How RDBUF ends: halted with no slot changed, or with the outer read cursor moved, and the destination
constructed when it completes. -/
inductive RdbufEnds (o d : SlotId) (s t : State) : Prop
  | halted (h : HaltedFrom s t)
  | faulted {b : Buffer} (rc : Word) (ho : s.buf o = some b) (h : HaltedFrom (s.setBuf o { b with rc := rc }) t)
  | constructed {b : Buffer} (rc : Word) (c : Buffer) (w : Resp) (hrun : s.running) (hne : o ≠ d)
      (ho : s.buf o = some b) (h : t = ((s.setBuf o { b with rc := rc }).setBuf d c).respond w)

theorem rdbufEnds_of_exec {o d : SlotId} {s t : State} (ht : exec (.rdbuf o d) s = .next t) :
    RdbufEnds o d s t := by
  obtain h | ⟨hrun, hc⟩ := haltedFrom_or_commonFault_none ht
  · exact .halted h
  have hne : o ≠ d := ne_of_commonFault_none hc (by simp [commonChecks])
  obtain ⟨b, ho⟩ := exists_buf_of_commonFault_none (sl := o) hc (by simp [commonChecks])
  have hs : RcMoved o s s := ⟨b, b.rc, ho, (State.setBuf_self ho).symm⟩
  rw [exec, execRdbuf, command_runs hrun hc] at ht
  obtain ⟨r, u, hu, rfl⟩ | ⟨k, sl, u, hu, rfl⟩ := Run.Ends.of_close_eq_next ht (P := RcMoved o s)
      (Q := fun u => ∃ v c, RcMoved o s v ∧ u = v.setBuf d c) (by
    refine (readField_ends hs _).bind fun cap s₁ h₁ => ?_
    refine (readField_ends h₁ _).bind fun rc s₂ h₂ => ?_
    refine (readField_ends h₂ _).bind fun wc s₃ h₃ => ?_
    exact (readRun_ends h₃ _).bind fun r s₄ h₄ => ⟨s₄, _, h₄, rfl⟩)
  · obtain ⟨v, c, ⟨b, rc, hb, rfl⟩, rfl⟩ := hu
    exact .constructed rc c _ hrun hne hb rfl
  · obtain ⟨b, rc, hb, rfl⟩ := hu
    exact .faulted rc hb (haltedFrom_enterFault ..)

/-- Settles O26: the frame of every command, and how RDBUF ends. -/
theorem rdbufLeavesAllButItsDestination : Obligations.RdbufLeavesAllButItsDestination := by
  intro o d s t ht
  obtain ⟨hothers, houtside, -⟩ := commandsLeaveOtherSlots _ s t ht
  refine ⟨hothers, houtside, ?_⟩
  cases rdbufEnds_of_exec ht with
  | halted h =>
    obtain ⟨hslots, hdin, hdout, hfree, hstatus⟩ := EndsAs.same (.inr h)
    have hbuf := State.buf_congr hslots
    exact ⟨hdin, hdout, hfree, hstatus, fun sl off _ => State.peek_congr (hbuf sl) off,
      fun b hb => ⟨b.rc, (hbuf o).trans hb⟩, fun _ => hslots, fun _ _ => hbuf d⟩
  | @faulted b rc ho h =>
    obtain ⟨hslots, hdin, hdout, hfree, hstatus⟩ := EndsAs.same (.inr h)
    have hbuf := State.buf_congr hslots
    refine ⟨hdin, hdout, hfree, hstatus, fun sl off _ => ?_, fun b₀ hb₀ => ?_, by simp [ho], fun _ hne => ?_⟩
    · exact (State.peek_congr (hbuf sl) off).trans
        (State.peek_setBuf_of_store_eq (b' := { b with rc := rc }) ho rfl rfl sl off)
    · obtain rfl : b = b₀ := Option.some.inj (ho.symm.trans hb₀)
      exact ⟨rc, (hbuf o).trans (State.buf_setBuf_of_buf ho)⟩
    · exact (hbuf d).trans (State.buf_setBuf_ne hne.symm)
  | @constructed b rc c w hrun hne ho h =>
    subst h
    refine ⟨rfl, rfl, rfl, fun _ => ⟨rfl, rfl, rfl, rfl⟩, fun sl off hsl => ?_, fun b₀ hb₀ => ?_, by simp [ho],
      by simp [hrun]⟩
    · exact (State.peek_congr (State.buf_setBuf_ne hsl) off).trans
        (State.peek_setBuf_of_store_eq (b' := { b with rc := rc }) ho rfl rfl sl off)
    · obtain rfl : b = b₀ := Option.some.inj (ho.symm.trans hb₀)
      exact ⟨rc, (State.buf_setBuf_ne hne).trans (State.buf_setBuf_of_buf ho)⟩

end Sys2Proof.Machine
end

section
/-! CERTIFICATE. What WRBUF wrote where the reader stands RDBUF reads back (42_nested_buffer.md R137). -/

namespace Sys2Proof.Machine

theorem lapBytes_add (b : Buffer) (c m n : Nat) : lapBytes b c (m + n) = lapBytes b c m ++ lapBytes b (c + m) n := by
  simp [lapBytes, List.range_add, Function.comp_def, Nat.add_assoc]

/-- A read through a serialized form finds the fields and the bytes at their places in it (42_nested_buffer.md R130). -/
theorem fields_of_lapBytes_eq {b ib : Buffer} {c : Nat} (h : lapBytes b c (nestedForm ib).length = nestedForm ib) :
    lapWord b c = ib.cap ∧ lapWord b (c + 4) = ib.rc ∧ lapWord b (c + 8) = ib.wc ∧
    lapBytes b (c + 12) ib.cap.toNat = firstBytes ib ib.cap.toNat := by
  rw [length_nestedForm, show 12 + ib.cap.toNat = 4 + 4 + 4 + ib.cap.toNat from rfl, lapBytes_add, lapBytes_add,
    lapBytes_add, nestedForm] at h
  obtain ⟨h, hrun⟩ := List.append_inj h (by simp [lapBytes])
  obtain ⟨h, hwc⟩ := List.append_inj h (by simp [lapBytes])
  obtain ⟨hcap, hrc⟩ := List.append_inj h (by simp [lapBytes])
  exact ⟨(congrArg unLE32 hcap).trans (unLE32_le32 _), (congrArg unLE32 hrc).trans (unLE32_le32 _),
    (congrArg unLE32 hwc).trans (unLE32_le32 _), hrun⟩

/-- RDBUF where a serialized form stands at the read cursor in one piece (42_nested_buffer.md R134, R137). -/
theorem exec_rdbuf_of_filled {s : State} {o d : SlotId} {b ib : Buffer} {m : Memory} {off : Nat} (hrun : s.running)
    (ho : s.buf o = some b) (hr : s.inRange d = true) (hd : s.buf d = none) (hoff : b.rc.toNat = off)
    (hfill : Filled m b.store off (nestedForm ib)) (hfit : off + 12 + ib.cap.toNat ≤ b.cap.toNat)
    (hcap : ib.cap.toNat ≤ 1048576) (hrc : ib.rc.toNat ≤ 1048576) (hwc : ib.wc.toNat ≤ 1048576) :
    ∃ u, exec (.rdbuf o d) s = .next u ∧ u.fault = false ∧
      u.buf d = some ⟨ib.cap, ib.rc, ib.wc, false, 0, Memory.ofBytes (firstBytes ib ib.cap.toNat)⟩ := by
  subst hoff
  obtain ⟨hcapE, hrcE, hwcE, hbytes⟩ :=
    fields_of_lapBytes_eq (lapBytes_of_filled hfill (by rw [length_nestedForm]; omega))
  refine ⟨_, exec_rdbuf_of_readsFields ho hrun hr hd
    ⟨by omega, by omega, hcapE.symm, hrcE.symm, hwcE.symm, hcap, hrc, hwc, by omega⟩, hrun, ?_⟩
  rw [hbytes]
  exact State.buf_setBuf_same (by rwa [State.atRc, State.inRange_setBuf])

/-- A Buffer filled with the first bytes of `b` reads as `b` does below its capacity. -/
theorem read_ofBytes_firstBytes (b : Buffer) {n off : Nat} (h : off < n) :
    (Memory.ofBytes (firstBytes b n)).read off = b.store.read off := by
  simp [Memory.read_ofBytes, firstBytes, h]

/-- Settles O48: WRBUF leaves the form at the read cursor in one piece, so RDBUF finds its fields there. -/
theorem nestedBufferRoundTrip : Obligations.NestedBufferRoundTrip := by
  intro s o j d ob ib hrun hne ho hj hr hd hrc hfit hcap hrc' hwc'
  have hdo : d ≠ o := fun h => by simp [h, ho] at hd
  obtain ⟨u, hu, hfault, hbuf⟩ := exec_rdbuf_of_filled (s := (s.setBuf o (formStored ob ib)).respond _) hrun
    (State.buf_setBuf_of_buf ho) ((State.inRange_setBuf ..).trans (decide_eq_true hr))
    ((State.buf_setBuf_ne hdo).trans hd) (congrArg BitVec.toNat hrc) (Memory.filled_memWrite _ _ _) hfit hcap hrc' hwc'
  refine ⟨_, u, _, exec_wrbuf_of_fits hrun hne ho hj hfit, hu, hfault, hbuf, rfl, rfl, rfl, rfl, rfl, fun off => ?_⟩
  rw [State.peek_of_buf hbuf, State.peek_of_buf hj]
  exact ite_congr rfl (fun h => congrArg some (read_ofBytes_firstBytes ib h)) fun _ => rfl

end Sys2Proof.Machine
end

section
/-! SUPPORT. The lifecycle and bulk commands: their descriptors, their answers, and the checks of the commands that
construct in a free slot (43_lifecycle_bulk.md R140 to R146). -/

namespace Sys2Proof.Machine

/-! ### Descriptors -/

/-- A descriptor with its unused fields zero decodes to the command of its opcode, if that is legal (30_encoding.md
R61, R64, R72). -/
theorem decode_packDesc_of_unusedZero {r : Row} (hr : r ∈ opcodeRows) {sa sb : SlotId} {f : Bool} {w1 w2 w3 : Word}
    (hz : (packDesc r.opc sa sb f w1 w2 w3).UnusedZero) : decode (packDesc r.opc sa sb f w1 w2 w3) =
      if (r.build (packDesc r.opc sa sb f w1 w2 w3)).wellFormed then .ok (r.build (packDesc r.opc sa sb f w1 w2 w3))
      else .error .badSelector :=
  decode_of_selects hr ((selects_iff hr).2 ⟨opc_packDesc .., hz⟩)

/-- The descriptors of INIT, LOAD and DRAIN also use F0 (30_encoding.md R61, R63). -/
theorem decode_packDesc_flag {r : Row} (hr : r ∈ opcodeRows)
    (hopc : r.opc = 0x01#8 ∨ r.opc = 0x02#8 ∨ r.opc = 0x03#8) (sa : SlotId) (f : Bool) (w1 w2 w3 : Word) :
    decode (packDesc r.opc sa 0 f w1 w2 w3) = .ok (r.build (packDesc r.opc sa 0 f w1 w2 w3)) := by
  have hz : (packDesc r.opc sa 0 f w1 w2 w3).UnusedZero := by
    obtain h | h | h := hopc <;> simp [Desc.UnusedZero, Desc.rsv, h]
  have hqry : ¬ r.opc = 0x05#8 := by
    obtain h | h | h := hopc <;> simp [h]
  rw [decode_packDesc_of_unusedZero hr hz, if_pos ((wellFormed_build_iff hr).2 fun h => hqry h.1)]

/-! ### Answers -/

theorem codeWord_haltedCode : codeWord haltedCode = 0x000000FF00000000#64 := by decide

/-- The answer of a halted block as a word (43_lifecycle_bulk.md R141). -/
theorem exec_halted_eq {s : State} (h : s.fault = true) (i : Instr) :
    exec i s = .next { s with rsp := s.rsp ++ [0x000000FF00000000#64] } := by
  rw [exec_halted h, State.answerHalted, codeWord_haltedCode]
  rfl

/-! ### The checks of a command that constructs in a free slot -/

/-- A number at or above NSLOTS is out of range (30_encoding.md R61). -/
theorem State.inRange_eq_false {s : State} {sl : SlotId} (h : s.nslots ≤ sl.toNat) : s.inRange sl = false :=
  decide_eq_false (not_lt.2 h)

section Constructing

variable {i : Instr} {sa : SlotId} {cs : List Check} {s : State}
  (hi : commonChecks i = .inRange sa :: .isFree sa :: cs) (hrun : s.running)
include hi hrun

theorem exec_construct_outOfRange (h : s.nslots ≤ sa.toNat) :
    exec i s = .next (s.enterFault .badSlot i.opcode sa) := by
  obtain ⟨body, hexec⟩ := exists_exec_eq_command i s
  rw [hexec, command_checkFails hrun]
  simp [commonFault, hi, Check.failure, State.inRange_eq_false h]

theorem exec_construct_inUse {b : Buffer} (hb : s.buf sa = some b) :
    exec i s = .next (s.enterFault .slotInUse i.opcode sa) := by
  obtain ⟨body, hexec⟩ := exists_exec_eq_command i s
  rw [hexec, command_checkFails hrun]
  simp [commonFault, hi, Check.failure, State.inRange_of_buf hb, hb]

/-- A length above CAP_MAX is looked at after the slot was found free (60_exceptions.md R173, step 9). -/
theorem exec_construct_badLength {len : Word} (hcs : cs = [.lenFits sa len]) (hr : s.inRange sa = true)
    (hfree : s.buf sa = none) (hlen : s.capMax < len.toNat) :
    exec i s = .next (s.enterFault .badLength i.opcode sa) := by
  obtain ⟨body, hexec⟩ := exists_exec_eq_command i s
  rw [hexec, command_checkFails hrun]
  simp [commonFault, hi, hcs, Check.failure, hr, hfree, not_le.2 hlen]

end Constructing

/-! ### Construction from a payload -/

/-- The state with a Buffer made of the next `len` bytes of DIN constructed in slot `sa` (43_lifecycle_bulk.md R142,
R143). -/
def State.constructFromDin (s : State) (sa : SlotId) (len rc wc : Word) (lin : Bool) : State :=
  (s.dropDin len.toNat).construct sa len rc wc lin (s.din.take len.toNat)

/-- INIT and LOAD take their payload and construct their Buffer from it, or wait. -/
theorem constructRun_eq (s : State) (sa : SlotId) (len rc wc : Word) (lin : Bool) :
    ((dinTake len.toNat s).bind fun p t => .done (Reply.plain 0) (t.construct sa len rc wc lin p)) =
      if s.din.length < len.toNat then .stuck .payloadStarved
      else .done (Reply.plain 0) (s.constructFromDin sa len rc wc lin) := by
  unfold dinTake
  split_ifs <;> rfl

end Sys2Proof.Machine
end

section
/-! CERTIFICATE. NOP, FREE and QRY (43_lifecycle_bulk.md R141, R145, R146). -/

namespace Sys2Proof.Machine

/-! ### NOP -/

theorem exec_nop_running {s : State} (hrun : s.running) : exec .nop s = .next (s.respond (valueResp 0)) := by
  rw [exec, execNop, command_runs hrun rfl, Run.close_done, word_plain]

/-- The row of NOP compares the whole of W0 (30_encoding.md R64). -/
theorem decode_eq_nop_iff {d : Desc} : decode d = .ok .nop ↔ d.w0 = 0 := by
  constructor
  · intro hd
    obtain ⟨-, hw0, -⟩ := encodeAgreesWithTheDescriptor d .nop hd
    exact hw0.symm
  · intro hw0
    exact decode_of_selects (r := opcodeRows[0]) (List.getElem_mem _) (by simp [Row.selects, hw0, opcodeRows])

/-- Settles O29: NOP has no check, and its row compares the whole of W0. -/
theorem nopAnswersZero : Obligations.NopAnswersZero := by
  exact ⟨fun s hrun => exec_nop_running hrun, fun s hf => exec_halted_eq hf _, fun d => decode_eq_nop_iff⟩

/-! ### FREE -/

theorem exec_free_of_buf {s : State} {sa : SlotId} {b : Buffer} (hrun : s.running) (hb : s.buf sa = some b) :
    exec (.free sa) s = .next ((s.release sa).respond (valueResp 0)) := by
  rw [exec, execFree, command_on_valid rfl hrun hb, Run.close_done, word_plain]

/-- Settles O33: the release of a slot, after the checks of a command on a valid one. -/
theorem freeReleasesItsSlot : Obligations.FreeReleasesItsSlot := by
  refine ⟨fun sa w1 w2 w3 => ?_, fun s sa hrun => ⟨exec_on_free rfl hrun, fun b hb => ?_⟩⟩
  · simpa [opcodeRows, Row.opc] using
      decode_packDesc (r := opcodeRows[4]) (List.getElem_mem _) (by decide) (by decide) sa w1 w2 w3
  · exact ⟨_, exec_free_of_buf hrun hb, State.buf_release_same s sa,
      fun sl hsl => State.buf_release_ne (by simpa using hsl), rfl⟩

/-! ### QRY -/

section Qry

variable {s : State} {sa : SlotId} {sel : Word}

theorem commonChecks_qry_of_ne (h3 : sel ≠ 3) :
    commonChecks (.qry sa sel) = [.selector sa sel, .inRange sa, .isValid sa] := if_neg h3

/-- FLAGS is answered on a free slot too (43_lifecycle_bulk.md R146). -/
theorem qryChecks_pass (hsel : sel.toNat ≤ 4) (hr : s.inRange sa = true)
    (hvalid : sel ≠ 3 → (s.buf sa).isSome = true) : commonFault (.qry sa sel) s = none := by
  by_cases h3 : sel = 3
  · simp [commonFault, commonChecks, Check.failure, h3, hr]
  · simp [commonFault, commonChecks_qry_of_ne h3, Check.failure, hsel, hr, hvalid h3]

/-- The selector is looked at before the slot (60_exceptions.md R173, step 2). -/
theorem qryChecks_illegalSelector (hsel : 4 < sel.toNat) :
    commonFault (.qry sa sel) s = some (.illegalCommand, sa) := by
  have h3 : sel ≠ 3 := fun h => by simp [h] at hsel
  simp [commonFault, commonChecks_qry_of_ne h3, Check.failure, not_le.2 hsel]

theorem qryChecks_badSlot (hsel : sel.toNat ≤ 4) (h : s.nslots ≤ sa.toNat ∨ sel ≠ 3) (hfree : s.buf sa = none) :
    commonFault (.qry sa sel) s = some (.badSlot, sa) := by
  obtain h | h3 := h
  · simp only [commonFault, commonChecks]
    split_ifs <;> simp [Check.failure, hsel, State.inRange_eq_false h]
  · cases hr : s.inRange sa <;> simp [commonFault, commonChecks_qry_of_ne h3, Check.failure, hsel, hr, hfree]

variable (hrun : s.running) (hc : commonFault (.qry sa sel) s = none)
include hrun hc

theorem exec_qry_flags (h3 : sel = 3) :
    exec (.qry sa sel) s = .next (s.respond (valueResp (slotFlags (s.buf sa)))) := by
  rw [exec, execQry, command_runs hrun hc, if_pos h3, Run.close_done, word_plain]

theorem exec_qry_register {b : Buffer} (hb : s.buf sa = some b) (h3 : sel ≠ 3) :
    exec (.qry sa sel) s = .next (s.respond (valueResp (b.register sel))) := by
  rw [exec, execQry, command_runs hrun hc, if_neg h3, withBuf_of_buf hb, Run.close_done, word_plain]

end Qry

/-- Settles O34: the checks of QRY decide whether it answers, and its selector what. -/
theorem qryAnswersTheRegister : Obligations.QryAnswersTheRegister := by
  refine ⟨⟨fun sa sel w2 w3 => ?_, fun s sa sel hf => exec_halted_eq hf _⟩,
    fun s sa hrun => ⟨fun b hb => ?_, fun hr hfree => ?_, fun sel hsel => ?_, fun sel hsel h hfree => ?_⟩⟩
  · simpa [opcodeRows, Row.opc, Instr.wellFormed] using
      decode_packDesc_of_unusedZero (r := opcodeRows[5]) (List.getElem_mem _) (sa := sa) (sb := 0) (f := false)
        (w1 := sel) (w2 := w2) (w3 := w3) (by simp [Desc.UnusedZero, Desc.rsv, opcodeRows, Row.opc])
  · have hc {sel : Word} (hsel : sel.toNat ≤ 4) : commonFault (.qry sa sel) s = none :=
      qryChecks_pass hsel (State.inRange_of_buf hb) fun _ => by simp [hb]
    refine ⟨exec_qry_register hrun (hc (by decide)) hb (by decide),
      exec_qry_register hrun (hc (by decide)) hb (by decide),
      exec_qry_register hrun (hc (by decide)) hb (by decide), ?_,
      exec_qry_register hrun (hc (by decide)) hb (by decide)⟩
    rw [exec_qry_flags hrun (hc (by decide)) rfl, hb]
    rfl
  · rw [exec_qry_flags hrun (qryChecks_pass (by decide) (decide_eq_true hr) (absurd rfl)) rfl, hfree]
    rfl
  · rw [exec, execQry, command_checkFails hrun (qryChecks_illegalSelector hsel)]
    rfl
  · rw [exec, execQry, command_checkFails hrun (qryChecks_badSlot hsel h hfree)]
    rfl

end Sys2Proof.Machine
end

section
/-! CERTIFICATE. INIT and LOAD (43_lifecycle_bulk.md R142, R143). -/

namespace Sys2Proof.Machine

/-! ### INIT -/

theorem exec_init_passed {s : State} {sa : SlotId} {lin : Bool} {len rc0 wc0 : Word} (hrun : s.running)
    (hc : commonFault (.init sa lin len rc0 wc0) s = none) :
    exec (.init sa lin len rc0 wc0) s =
      if s.din.length < len.toNat then .fault .payloadStarved
      else .next ((s.constructFromDin sa len rc0 wc0 lin).respond (valueResp 0)) := by
  rw [exec, execInit, command_runs hrun hc, constructRun_eq, ← word_plain]
  split_ifs <;> rfl

/-- Settles O30: the checks of a construction, then the payload and the Buffer made of it. -/
theorem initConstructsItsBuffer : Obligations.InitConstructsItsBuffer := by
  refine ⟨fun sa lin len rc0 wc0 => ?_, fun s sa lin len rc0 wc0 hrun => ⟨exec_construct_outOfRange rfl hrun,
    fun b => exec_construct_inUse rfl hrun, fun hr hfree => ⟨?_, fun hlen hd => ?_, fun hlen hd => ?_⟩⟩⟩
  · simpa [opcodeRows, Row.opc] using
      decode_packDesc_flag (r := opcodeRows[1]) (List.getElem_mem _) (by decide) sa lin len rc0 wc0
  · exact exec_construct_badLength rfl hrun rfl (decide_eq_true hr) hfree
  · rw [exec_init_passed hrun (freeChecks_pass (decide_eq_true hr) hfree hlen), if_pos hd]
  · refine ⟨_, Memory.read_ofBytes _, ?_⟩
    rw [exec_init_passed hrun (freeChecks_pass (decide_eq_true hr) hfree hlen), if_neg (not_lt.2 hd)]
    rfl

/-! ### LOAD -/

section Load

variable {s : State} {sa : SlotId} {len : Word} (hrun : s.running)
include hrun

/-- An absent source gives an empty Buffer, and neither W1 nor `io_err` is looked at (30_encoding.md R71). -/
theorem exec_load_absent (hc : commonFault (.load sa true len) s = none) :
    exec (.load sa true len) s = .next ((s.construct sa 0 0 0 true []).respond (valueResp 0)) := by
  rw [exec, execLoad, command_runs hrun hc, ← word_plain]
  rfl

variable (hc : commonFault (.load sa false len) s = none)
include hc

theorem exec_load_ioFailure (hio : s.ioErr = true) :
    exec (.load sa false len) s = .next
      ((s.dropDin (min (Config.loadTaken s.freeCount) len.toNat)).countFree.enterFault .ioFailure 0x02#8 sa) := by
  rw [exec, execLoad, command_runs hrun hc, if_neg (by decide), if_pos hio]
  rfl

theorem exec_load_passed (hio : s.ioErr = false) :
    exec (.load sa false len) s =
      if s.din.length < len.toNat then .fault .payloadStarved
      else .next ((s.constructFromDin sa len 0 0 true).respond (valueResp 0)) := by
  rw [exec, execLoad, command_runs hrun hc, if_neg (by decide), if_neg (by simp [hio]), constructRun_eq, ← word_plain]
  split_ifs <;> rfl

end Load

theorem commonChecks_load (sa : SlotId) (f : Bool) (len : Word) :
    ∃ cs, commonChecks (.load sa f len) = .inRange sa :: .isFree sa :: cs := by
  cases f <;> exact ⟨_, rfl⟩

/-- The length of an absent source is not checked (43_lifecycle_bulk.md R143). -/
theorem loadAbsentChecks_pass {s : State} {sa : SlotId} (len : Word) (hr : s.inRange sa = true)
    (hfree : s.buf sa = none) : commonFault (.load sa true len) s = none := by
  simp [commonFault, commonChecks, Check.failure, hr, hfree]

/-- Settles O31: the checks of a construction, then the ways the source can be. -/
theorem loadConstructsALinearBuffer : Obligations.LoadConstructsALinearBuffer := by
  refine ⟨fun sa f len w2 w3 => ?_, fun s sa len hrun => ⟨fun f h => ?_, fun f b hb => ?_, fun hr hfree => ?_⟩⟩
  · simpa [opcodeRows, Row.opc] using
      decode_packDesc_flag (r := opcodeRows[2]) (List.getElem_mem _) (by decide) sa f len w2 w3
  · obtain ⟨cs, hcs⟩ := commonChecks_load sa f len
    exact exec_construct_outOfRange hcs hrun h
  · obtain ⟨cs, hcs⟩ := commonChecks_load sa f len
    exact exec_construct_inUse hcs hrun hb
  replace hr : s.inRange sa = true := decide_eq_true hr
  have hc (hlen : len.toNat ≤ s.capMax) : commonFault (.load sa false len) s = none := freeChecks_pass hr hfree hlen
  refine ⟨exec_load_absent hrun (loadAbsentChecks_pass len hr hfree), exec_construct_badLength rfl hrun rfl hr hfree,
    fun hlen hio => ?_, fun hlen hio hd => ?_, fun hlen hio hd => ?_⟩
  · exact ⟨_, _, Nat.min_le_right .., exec_load_ioFailure hrun (hc hlen) hio⟩
  · rw [exec_load_passed hrun (hc hlen) hio, if_pos hd]
  · refine ⟨_, Memory.read_ofBytes _, ?_⟩
    rw [exec_load_passed hrun (hc hlen) hio, if_neg (not_lt.2 hd)]
    rfl

end Sys2Proof.Machine
end

section
/-! CERTIFICATE. DRAIN (43_lifecycle_bulk.md R144). -/

namespace Sys2Proof.Machine

/-- How many bytes DRAIN emits: CAP, or WC with TRUNC (43_lifecycle_bulk.md R144). -/
def Buffer.drainCount (b : Buffer) (trunc : Bool) : Word := if trunc then b.wc else b.cap

section Drain

variable {s : State} {sa : SlotId} {trunc : Bool} {b : Buffer} (hrun : s.running) (hb : s.buf sa = some b)
include hrun hb

/-- DRAIN of a Buffer: the range test, then `io_err`, then the bytes. -/
theorem exec_drain_of_buf : exec (.drain sa trunc) s = .next (
    if trunc ∧ b.cap.toNat < b.wc.toNat then s.enterFault .rangeFault 0x03#8 sa
    else if s.ioErr then
      (s.emit ((firstBytes b (b.drainCount trunc).toNat).take (Config.drainEmitted s.freeCount))).countFree.enterFault
        .ioFailure 0x03#8 sa
    else (s.emit (firstBytes b (b.drainCount trunc).toNat)).respond (valueResp (b.drainCount trunc))) := by
  have hcount : (if trunc then b.wc.toNat else b.cap.toNat) = (b.drainCount trunc).toNat := by
    cases trunc <;> rfl
  have hvalue : (if trunc then b.wc else b.cap) = b.drainCount trunc := rfl
  rw [exec, execDrain, command_on_valid rfl hrun hb, withBuf_of_buf hb, hcount, hvalue, firstBytes_eq_memRead,
    ← word_plain]
  split_ifs <;> rfl

theorem exec_drain_rangeFault (htrunc : trunc = true) (hwc : b.cap.toNat < b.wc.toNat) :
    exec (.drain sa trunc) s = .next (s.enterFault .rangeFault 0x03#8 sa) := by
  rw [exec_drain_of_buf hrun hb, if_pos ⟨htrunc, hwc⟩]

end Drain

/-- The bytes to emit are in storage unless DRAIN takes RangeFault. -/
theorem not_rangeFault_of_drainCount_le {b : Buffer} {trunc : Bool} (h : (b.drainCount trunc).toNat ≤ b.cap.toNat) :
    ¬ (trunc = true ∧ b.cap.toNat < b.wc.toNat) := by
  rintro ⟨rfl, hwc⟩
  exact absurd h (not_le.2 hwc)

/-- Settles O32: the checks of a command on a valid slot, then the three ends of DRAIN. -/
theorem drainEmitsStorage : Obligations.DrainEmitsStorage := by
  refine ⟨fun sa f w1 w2 w3 => ?_, fun s sa f hrun => ⟨exec_on_free rfl hrun, fun b hb =>
    ⟨exec_drain_rangeFault hrun hb, ?_⟩⟩⟩
  · simpa [opcodeRows, Row.opc] using
      decode_packDesc_flag (r := opcodeRows[3]) (List.getElem_mem _) (by decide) sa f w1 w2 w3
  · rintro n rfl hn
    rw [exec_drain_of_buf hrun hb, if_neg (not_rangeFault_of_drainCount_le hn)]
    refine ⟨fun hio => ?_, fun hio => ⟨Config.drainEmitted s.freeCount, s.freeCount + 1, ?_⟩⟩
    · rw [if_neg (by simp [hio])]
      rfl
    · rw [if_pos hio]
      rfl

end Sys2Proof.Machine
end

section
/-! CERTIFICATE. What the lifecycle and bulk commands leave unchanged (43_lifecycle_bulk.md R141 to R146;
60_exceptions.md R183). -/

namespace Sys2Proof.Machine

/-! ### NOP, QRY and DRAIN -/

theorem nop_endsAs {s t : State} (ht : exec .nop s = .next t) : EndsAs s t := by
  obtain h | ⟨hrun, -⟩ := haltedFrom_or_commonFault_none ht
  · exact .inr h
  · rw [exec_nop_running hrun] at ht
    cases ht
    exact .inl ⟨_, rfl⟩

theorem qry_endsAs {sa : SlotId} {sel : Word} {s t : State} (ht : exec (.qry sa sel) s = .next t) : EndsAs s t := by
  obtain h | ⟨hrun, hc⟩ := haltedFrom_or_commonFault_none ht
  · exact .inr h
  by_cases h3 : sel = 3
  · rw [exec_qry_flags hrun hc h3] at ht
    cases ht
    exact .inl ⟨_, rfl⟩
  · obtain ⟨b, hb⟩ := exists_buf_of_commonFault_none (sl := sa) hc (by simp [commonChecks_qry_of_ne h3])
    rw [exec_qry_register hrun hc hb h3] at ht
    cases ht
    exact .inl ⟨_, rfl⟩

/-- DRAIN ends as the state with bytes emitted, and draws a free value only when it faults. -/
theorem drain_endsAs {sa : SlotId} {f : Bool} {s t : State} (ht : exec (.drain sa f) s = .next t) :
    ∃ bs c, EndsAs { s.emit bs with freeCount := c } t ∧ (t.fault = false → c = s.freeCount) := by
  obtain h | ⟨hrun, b, hb⟩ := haltedFrom_or_exists_buf rfl ht
  · exact ⟨[], s.freeCount, .inr (by simpa using h), fun _ => rfl⟩
  rw [exec_drain_of_buf hrun hb] at ht
  split_ifs at ht
  · cases ht
    exact ⟨[], s.freeCount, .inr (by simpa using haltedFrom_enterFault ..), nofun⟩
  · cases ht
    exact ⟨_, _, .inr (haltedFrom_enterFault ..), nofun⟩
  · cases ht
    exact ⟨_, s.freeCount, .inl ⟨_, rfl⟩, fun _ => rfl⟩

/-- Settles O23: the frame of every command, and how the three commands end. -/
theorem nopQryDrainLeaveEverySlot : Obligations.NopQryDrainLeaveEverySlot := by
  intro i sa f sel s t hi ht
  obtain ⟨-, houtside, -⟩ := commandsLeaveOtherSlots i s t ht
  obtain ⟨bs, c, hends, hquiet, hc⟩ : ∃ bs c, EndsAs { s.emit bs with freeCount := c } t ∧
      (i ≠ .drain sa f → bs = [] ∧ c = s.freeCount) ∧ (t.fault = false → c = s.freeCount) := by
    rw [← or_assoc] at hi
    obtain hi | rfl := hi
    · have hends : EndsAs s t := by
        obtain rfl | rfl := hi
        · exact nop_endsAs ht
        · exact qry_endsAs ht
      exact ⟨[], s.freeCount, by simpa using hends, fun _ => ⟨rfl, rfl⟩, fun _ => rfl⟩
    · obtain ⟨bs, c, hends, hc⟩ := drain_endsAs ht
      exact ⟨bs, c, hends, absurd rfl, hc⟩
  obtain ⟨hslots, hdin, hdout, hfree, hstatus⟩ := hends.same
  refine ⟨hslots, houtside, hdin, fun sl => State.peek_congr (State.buf_congr hslots sl), fun hne => ?_,
    fun hf => ⟨hstatus hf, hfree.trans (hc hf)⟩⟩
  obtain ⟨rfl, rfl⟩ := hquiet hne
  exact ⟨by simpa using hdout, hfree⟩

/-! ### INIT, LOAD and FREE -/

/-- How INIT, LOAD and FREE end: halted with no slot changed, or with the content of their slot replaced; FREE takes
no payload and draws no free value. -/
inductive ConstructionEnds (i : Instr) (sa : SlotId) (s t : State) : Prop
  | halted (n c : Nat) (h : HaltedFrom { s.dropDin n with freeCount := c } t)
      (hfree : i = .free sa → n = 0 ∧ c = s.freeCount)
  | slotSet (n : Nat) (o : Option Buffer) (w : Resp) (hrun : s.running)
      (h : t = ({ s.dropDin n with slots := s.slots.set sa.toNat o } : State).respond w)
      (hfree : i = .free sa → n = 0)

theorem constructionEnds_of_haltedFrom {i : Instr} {sa : SlotId} {s t : State} (h : HaltedFrom s t) :
    ConstructionEnds i sa s t := .halted 0 s.freeCount h fun _ => ⟨rfl, rfl⟩

theorem init_ends {sa : SlotId} {lin : Bool} {len rc wc : Word} {s t : State}
    (ht : exec (.init sa lin len rc wc) s = .next t) : ConstructionEnds (.init sa lin len rc wc) sa s t := by
  obtain h | ⟨hrun, hc⟩ := haltedFrom_or_commonFault_none ht
  · exact constructionEnds_of_haltedFrom h
  rw [exec_init_passed hrun hc] at ht
  split_ifs at ht
  cases ht
  exact .slotSet _ _ _ hrun rfl nofun

theorem load_ends {sa : SlotId} {absent : Bool} {len : Word} {s t : State}
    (ht : exec (.load sa absent len) s = .next t) : ConstructionEnds (.load sa absent len) sa s t := by
  obtain h | ⟨hrun, hc⟩ := haltedFrom_or_commonFault_none ht
  · exact constructionEnds_of_haltedFrom h
  cases absent with
  | true =>
    rw [exec_load_absent hrun hc] at ht
    cases ht
    exact .slotSet 0 _ _ hrun rfl nofun
  | false =>
    cases hio : s.ioErr with
    | true =>
      rw [exec_load_ioFailure hrun hc hio] at ht
      cases ht
      exact .halted _ _ (haltedFrom_enterFault ..) nofun
    | false =>
      rw [exec_load_passed hrun hc hio] at ht
      split_ifs at ht
      cases ht
      exact .slotSet _ _ _ hrun rfl nofun

theorem free_ends {sa : SlotId} {s t : State} (ht : exec (.free sa) s = .next t) :
    ConstructionEnds (.free sa) sa s t := by
  obtain h | ⟨hrun, b, hb⟩ := haltedFrom_or_exists_buf rfl ht
  · exact constructionEnds_of_haltedFrom h
  rw [exec_free_of_buf hrun hb] at ht
  cases ht
  exact .slotSet 0 none _ hrun rfl fun _ => rfl

/-- Settles O24: the frame of every command, and how the three commands end. -/
theorem constructionsLeaveOtherSlots : Obligations.ConstructionsLeaveOtherSlots := by
  intro i sa f len rc wc s t hi ht
  obtain ⟨hwrites, hends⟩ : i.writes = [sa] ∧ ConstructionEnds i sa s t := by
    obtain rfl | rfl | rfl := hi
    · exact ⟨rfl, init_ends ht⟩
    · exact ⟨rfl, load_ends ht⟩
    · exact ⟨rfl, free_ends ht⟩
  obtain ⟨hothers, houtside, hpeek⟩ := commandsLeaveOtherSlots i s t ht
  rw [hwrites] at hothers hpeek
  replace hpeek : ∀ sl off, sl ≠ sa → t.peek sl off = s.peek sl off := fun sl off hne =>
    hpeek sl (by simpa using hne) off
  refine ⟨hothers, houtside, ?_⟩
  cases hends with
  | halted n c h hfree =>
    obtain ⟨fc, fo, fs, r, rfl⟩ := h
    refine ⟨rfl, hpeek, fun hi => ?_, fun _ => rfl, nofun⟩
    obtain ⟨rfl, rfl⟩ := hfree hi
    exact ⟨rfl, rfl⟩
  | slotSet n o w hrun h hfree =>
    subst h
    refine ⟨rfl, hpeek, fun hi => ?_, fun hf => ?_, fun _ => ⟨⟨rfl, rfl, rfl, rfl⟩, rfl⟩⟩
    · obtain rfl := hfree hi
      exact ⟨rfl, rfl⟩
    · simp [hrun] at hf

end Sys2Proof.Machine
end

section
/-! SUPPORT. The faults that the own rule of a command takes once its common checks have passed, and the slot they
name (60_exceptions.md R160, R170, R173). -/

namespace Sys2Proof.Machine

/-! ### The faults of an own rule -/

/-- A piece of command `i` raises only a fault that no common check raises, naming SA; what completes leaves a state
in `Q` (60_exceptions.md R160: codes 0x01 to 0x05; R170). -/
def Run.Faults {α : Type} (i : Instr) (Q : State → Prop) : Run α → Prop
  | .done _ t => Q t
  | .raised k sl _ => k.code ≤ 0x05#8 ∧ i.sa? = some sl
  | .stuck _ => True

namespace Run.Faults

/-- The rule of sequence. -/
theorem bind {α β : Type} {i : Instr} {Q R : State → Prop} {x : Run α} {f : α → State → Run β}
    (hx : x.Faults i Q) (hf : ∀ a t, Q t → (f a t).Faults i R) : (x.bind f).Faults i R := by
  cases x with
  | done a t => exact hf a t hx
  | raised k sl t => exact hx
  | stuck r => exact hx

/-- The rule of the conditional. -/
theorem ite {α : Type} {i : Instr} {Q : State → Prop} {c : Prop} [Decidable c] {x y : Run α}
    (hx : x.Faults i Q) (hy : y.Faults i Q) : (if c then x else y).Faults i Q := by
  split_ifs <;> assumption

end Run.Faults

/-- The block is not halted and the slot holds a Buffer: what the pieces of a command find there once its checks have
passed. -/
structure State.Holds (sl : SlotId) (u : State) : Prop where
  running : u.running
  buf : ∃ b, u.buf sl = some b

theorem State.Holds.setBuf {sl : SlotId} {u : State} (h : u.Holds sl) (b : Buffer) : (u.setBuf sl b).Holds sl :=
  have ⟨_, hb⟩ := h.buf
  ⟨h.running, b, State.buf_setBuf_of_buf hb⟩

theorem State.Holds.fillRun {sl : SlotId} {u : State} (h : u.Holds sl) (off : Nat) (bs : List Byte) :
    (fillRun sl off bs u).Holds sl := by
  obtain ⟨b, hb⟩ := h.buf
  rw [fillRun_of_buf hb]
  exact h.setBuf _

theorem running_setLwf {u : State} (h : u.running) (sl : SlotId) (v : Word) : (setLwf sl v u).running := by
  obtain ⟨hfault, -⟩ := (took_zero_setLwf sl v u).status
  exact hfault.trans h

/-! ### The pieces of a command -/

theorem dinTake_faults {i : Instr} {Q : State → Prop} {u : State} (n : Nat) (h : Q (u.dropDin n)) :
    (dinTake n u).Faults i Q := by
  unfold dinTake
  split_ifs
  · trivial
  · exact h

/-- Taking a payload and constructing a Buffer from it, for INIT and LOAD: no fault is left to take. -/
theorem constructFromDin_faults {i : Instr} {u : State} (h : u.running) (sl : SlotId) (len rc wc : Word) (lin : Bool) :
    ((dinTake len.toNat u).bind fun p t =>
      .done (Reply.plain 0) (t.construct sl len rc wc lin p)).Faults i State.running :=
  (dinTake_faults (Q := State.running) _ h).bind fun _ _ ht => ht

section Pieces

variable {i : Instr} {sl : SlotId} (hi : i.sa? = some sl) {u : State} (h : u.Holds sl)
include hi h

theorem readRun_faults (n : Nat) : (readRun sl n u).Faults i (State.Holds sl) := by
  obtain ⟨b, hb⟩ := h.buf
  by_cases hfit : b.rc.toNat ≤ b.cap.toNat ∧ n ≤ b.cap.toNat
  · rw [readRun_served hb hfit.1 hfit.2]
    exact h.setBuf _
  · rw [readRun_rangeFault hb hfit]
    exact ⟨by decide, hi⟩

theorem openRun_faults (n : Nat) : (openRun sl n u).Faults i (State.Holds sl) := by
  obtain ⟨b, hb⟩ := h.buf
  by_cases hover : b.cap.toNat < b.wc.toNat + n ∨ (landsInRing b n = true ∧ b.cap.toNat < 4)
  · rw [openRun_overshoots hb hover]
    exact ⟨by unfold overflowOf; split_ifs <;> decide, hi⟩
  · simp only [not_or, not_and, not_lt] at hover
    rw [openRun_accepted hb hover.1 hover.2]
    exact h.setBuf _

theorem writeRun_faults (bs : List Byte) : (writeRun sl bs u).Faults i (State.Holds sl) :=
  (openRun_faults hi h _).bind fun r _ ht => ht.fillRun r.1 bs

theorem writeRuns_faults (parts : List (List Byte)) (w : Bool) :
    (writeRuns sl parts w u).Faults i (State.Holds sl) := by
  induction parts generalizing w u with
  | nil => exact h
  | cons bs rest ih => exact (writeRun_faults hi h bs).bind fun sn _ ht => ih ht (w || sn)

theorem readWord_faults : (readWord sl u).Faults i State.running :=
  (readRun_faults hi h _).bind fun _ _ ht => ht.running

theorem writeWord_faults (v : Word) : (writeWord sl v u).Faults i State.running :=
  (writeRun_faults hi h _).bind fun _ _ ht => ht.running

theorem readField_faults (split : Bool) : (readField sl split u).Faults i (State.Holds sl) :=
  (readRun_faults hi h _).bind fun _ _ ht => .ite ⟨by decide, hi⟩ ht

end Pieces

/-! ### Whole commands -/

/-- A command that passed its checks takes the fault of its own rule, if any. -/
theorem command_fault_of_checks_pass {i : Instr} {body : State → Run Reply} {s t : State} (hrun : s.running)
    (hc : commonFault i s = none) (hbody : (body s).Faults i State.running) (ht : command i body s = .next t)
    (hf : t.fault = true) : t.fcode ≤ 0x05#8 ∧ i.sa? = some t.fslot := by
  rw [command_runs hrun hc] at ht
  obtain ⟨r, u, hr, rfl⟩ | ⟨k, sl, u, hr, rfl⟩ := Run.close_eq_next ht
  · rw [hr] at hbody
    have hu : u.fault = false := hbody
    simp [hu] at hf
  · rw [hr] at hbody
    exact hbody

/-- With its common checks passed, a command takes none of the faults of the checks, and its fault names SA
(60_exceptions.md R170, R173). -/
theorem exec_fault_of_checks_pass {i : Instr} {s t : State} (hrun : s.running) (hc : commonFault i s = none)
    (ht : exec i s = .next t) (hf : t.fault = true) : t.fcode ≤ 0x05#8 ∧ i.sa? = some t.fslot := by
  have hvalid : ∀ sl, Check.isValid sl ∈ commonChecks i → s.Holds sl := fun _ h =>
    ⟨hrun, exists_buf_of_commonFault_none hc h⟩
  cases i
  all_goals
    unfold exec at ht
    refine command_fault_of_checks_pass hrun hc ?_ ht hf
  case nop => exact hrun
  case init sa lin len rc0 wc0 => exact constructFromDin_faults hrun ..
  case load sa absent len =>
    cases absent with
    | true => exact hrun
    | false => exact .ite (c := s.ioErr = true) ⟨by decide, rfl⟩ (constructFromDin_faults hrun ..)
  case drain sa trunc =>
    obtain ⟨b, hb⟩ := (hvalid sa (by simp [commonChecks])).buf
    rw [withBuf_of_buf hb]
    exact .ite ⟨by decide, rfl⟩ (.ite ⟨by decide, rfl⟩ hrun)
  case free => exact hrun
  case qry sa sel =>
    by_cases h3 : sel = 3
    · rw [if_pos h3]
      exact hrun
    · obtain ⟨b, hb⟩ := (hvalid sa (by simp [commonChecks_qry_of_ne h3])).buf
      rw [if_neg h3, withBuf_of_buf hb]
      exact hrun
  case rdu32 sa => exact readWord_faults rfl (hvalid sa (by simp [commonChecks]))
  case wru32 sa v => exact writeWord_faults rfl (hvalid sa (by simp [commonChecks])) v
  case rdf32 sa => exact readWord_faults rfl (hvalid sa (by simp [commonChecks]))
  case wrf32 sa v =>
    exact (writeWord_faults rfl (hvalid sa (by simp [commonChecks])) v).bind fun _ _ hu => running_setLwf hu sa v
  case rdb sa n => exact (readRun_faults rfl (hvalid sa (by simp [commonChecks])) _).bind fun _ _ hu => hu.running
  case wrb sa n =>
    refine (openRun_faults rfl (hvalid sa (by simp [commonChecks])) _).bind fun r u hu => ?_
    exact (dinTake_faults (Q := State.Holds sa) _ ⟨hu.running, hu.buf⟩).bind fun p _ hv => (hv.fillRun r.1 p).running
  case wrbuf outer inner =>
    obtain ⟨b, hb⟩ := (hvalid inner (by simp [commonChecks])).buf
    rw [withBuf_of_buf hb]
    exact (writeRuns_faults rfl (hvalid outer (by simp [commonChecks])) _ _).bind fun _ _ hu => hu.running
  case rdbuf outer dest =>
    refine (readField_faults rfl (hvalid outer (by simp [commonChecks])) _).bind fun cap s₁ h₁ => ?_
    refine (readField_faults rfl h₁ _).bind fun rc s₂ h₂ => ?_
    refine (readField_faults rfl h₂ _).bind fun wc s₃ h₃ => ?_
    exact (readRun_faults rfl h₃ _).bind fun r s₄ h₄ => h₄.running

end Sys2Proof.Machine
end

section
/-! CERTIFICATE. The common checks, fault entry, the idle block and the halted block (60_exceptions.md R170, R171, R173,
R176, R182; 70_reset_and_hazards.md R191). -/

namespace Sys2Proof.Machine

/-! ### The idle block and the halted block -/

/-- Settles O8: a step without an action of the host is idle. -/
theorem idleBlockHoldsItsState : Obligations.IdleBlockHoldsItsState := fun _ => step_idle

/-- Settles O12: what is not a reset is idle, or the Halted answer. -/
theorem onlyRstLeavesTheHaltedState : Obligations.OnlyRstLeavesTheHaltedState := by
  intro s t hf ht
  rcases step_cases ht with ⟨-, rfl⟩ | ⟨rest, hh, rfl⟩ | ⟨r, rest, hh, hissue⟩
  · exact .inl ⟨hf, rfl, rfl, rfl, rfl, rfl⟩
  · exact .inr ⟨by simp [hh], rfl, State.buf_applyReset _⟩
  · have hacc : (s.accept r rest).fault = true := hf
    rcases hissue with ⟨rest', rfl, rfl⟩ | ⟨i, u, -, hu, rfl⟩ | ⟨e, -, rfl⟩
    · exact .inr ⟨by simp [hh], rfl, State.buf_applyReset _⟩
    · rw [exec_halted hacc] at hu
      cases hu
      exact .inl ⟨hf, rfl, rfl, rfl, rfl, rfl⟩
    · rw [illegalCommand_halted hacc]
      exact .inl ⟨hf, rfl, rfl, rfl, rfl, rfl⟩

/-! ### Fault entry -/

/-- The first check that fails decides the command (60_exceptions.md R173). -/
theorem exec_of_commonFault {i : Instr} {s : State} {p : FaultKind × SlotId} (hrun : s.running)
    (hc : commonFault i s = some p) : exec i s = .next (s.enterFault p.1 i.opcode p.2) := by
  obtain ⟨body, hexec⟩ := exists_exec_eq_command i s
  rw [hexec, command_checkFails hrun hc]

/-- The slot a check names when it fails (60_exceptions.md R170). -/
def Check.slot : Check → SlotId
  | .selector sl _ | .inRange sl | .isValid sl | .distinct sl _ | .isFree sl | .lenFits sl _ => sl

/-- A check that fails names its slot. -/
theorem Check.slot_of_failure {c : Check} {s : State} {k : FaultKind} {sl : SlotId}
    (h : c.failure s = some (k, sl)) : sl = c.slot := by
  cases c
  all_goals
    simp only [Check.failure] at h
    split_ifs at h
    cases h
    rfl

/-- Every check of a command looks at SA or SB. -/
theorem slot_mem_of_mem_commonChecks (i : Instr) :
    ∀ c ∈ commonChecks i, c.slot ∈ i.sa?.toList ++ i.sb?.toList := by
  cases i
  case load sa absent len => cases absent <;> simp [commonChecks, Check.slot, Instr.sa?]
  case qry sa sel =>
    rw [commonChecks]
    split_ifs <;> simp [Check.slot, Instr.sa?]
  all_goals simp [commonChecks, Check.slot, Instr.sa?, Instr.sb?]

/-- A command that takes a fault names SA or SB: a failed check names its slot, and the own rule names SA. -/
theorem fslot_mem_of_exec {i : Instr} {s t : State} (hrun : s.running) (ht : exec i s = .next t)
    (hf : t.fault = true) : t.fslot ∈ i.sa?.toList ++ i.sb?.toList := by
  cases hc : commonFault i s with
  | none =>
    obtain ⟨-, hsa⟩ := exec_fault_of_checks_pass hrun hc ht hf
    simp [hsa]
  | some p =>
    obtain ⟨c, hmem, hfail⟩ := List.exists_of_findSome?_eq_some hc
    rw [exec_of_commonFault hrun hc] at ht
    cases ht
    rw [State.enterFault_fslot, Check.slot_of_failure hfail]
    exact slot_mem_of_mem_commonChecks i c hmem

/-- Settles O16: the status registers and the response are those of how the command ends. -/
theorem faultEntryRecordsTheFault : Obligations.FaultEntryRecordsTheFault := by
  intro i s t hrun ht
  obtain ⟨r, u, -, hu, rfl⟩ | ⟨k, sl, u, ⟨m, -, hu⟩, -, rfl⟩ := exec_running_cases hrun ht
  · exact .inr ⟨hu.status, r.word, by simp [hu.rsp], by simp [Reply.word]⟩
  · exact .inl ⟨rfl, rfl, fslot_mem_of_exec hrun ht rfl, k, rfl, by simp [hu.rsp, codeWord_eq_faultResp]⟩

/-! ### The common checks in order -/

/-- What a list of checks, made in order, decides for a command: the first that fails gives the fault (60_exceptions.md
R173). -/
def resultOf (i : Instr) (s : State) (cs : List Check) : CheckResult :=
  (cs.findSome? (Check.failure s)).elim (.pass i) fun p => .fault p.1 p.2

section Chain

variable (i : Instr) (s : State) (sl : SlotId) (cs : List Check)

@[simp] theorem resultOf_nil : resultOf i s [] = .pass i := rfl

theorem resultOf_cons (c : Check) : resultOf i s (c :: cs) =
    (c.failure s).elim (resultOf i s cs) fun p => .fault p.1 p.2 := by
  cases h : c.failure s <;> simp [resultOf, h]

theorem resultOf_selector {sel : Word} (h : sel.toNat ≤ 4) :
    resultOf i s (.selector sl sel :: cs) = resultOf i s cs := by
  simp [resultOf_cons, Check.failure, h]

@[simp] theorem resultOf_inRange : resultOf i s (.inRange sl :: cs) =
    if s.nslots ≤ sl.toNat then .fault .badSlot sl else resultOf i s cs := by
  by_cases h : s.nslots ≤ sl.toNat
  · simp [resultOf_cons, Check.failure, State.inRange, h, not_lt.2 h]
  · simp [resultOf_cons, Check.failure, State.inRange, h, not_le.1 h]

@[simp] theorem resultOf_isValid : resultOf i s (.isValid sl :: cs) =
    if (s.buf sl).isNone then .fault .badSlot sl else resultOf i s cs := by
  cases h : s.buf sl <;> simp [resultOf_cons, Check.failure, h]

@[simp] theorem resultOf_distinct (sl' : SlotId) : resultOf i s (.distinct sl sl' :: cs) =
    if sl = sl' then .fault .slotAlias sl else resultOf i s cs := by
  by_cases h : sl = sl' <;> simp [resultOf_cons, Check.failure, h]

@[simp] theorem resultOf_isFree : resultOf i s (.isFree sl :: cs) =
    if (s.buf sl).isSome then .fault .slotInUse sl else resultOf i s cs := by
  cases h : s.buf sl <;> simp [resultOf_cons, Check.failure, h]

@[simp] theorem resultOf_lenFits (len : Word) : resultOf i s (.lenFits sl len :: cs) =
    if s.capMax < len.toNat then .fault .badLength sl else resultOf i s cs := by
  by_cases h : s.capMax < len.toNat
  · simp [resultOf_cons, Check.failure, h, not_le.2 h]
  · simp [resultOf_cons, Check.failure, h, not_lt.1 h]

end Chain

/-- R173's chain of checks is the list of the command's checks, one branch for each. -/
theorem checkInstr_eq_resultOf {i : Instr} (hw : i.wellFormed = true) (s : State) :
    checkInstr i s = resultOf i s (commonChecks i) := by
  cases i
  case load sa absent len =>
    cases absent <;> simp [checkInstr, commonChecks, Instr.sa?, Instr.sb?, Instr.needsValidSa]
  case qry sa sel =>
    have hsel : sel.toNat ≤ 4 := by simpa [Instr.wellFormed] using hw
    by_cases h3 : sel = 3
    · simp [checkInstr, commonChecks, Instr.sa?, Instr.sb?, Instr.needsValidSa, h3, resultOf_selector]
    · rw [commonChecks_qry_of_ne h3, resultOf_selector _ _ _ _ hsel]
      simp [checkInstr, Instr.sa?, Instr.sb?, Instr.needsValidSa, show ¬ sel = 3#32 from h3]
  case init | rdbuf =>
    -- `simp` brings both sides to the same branches; only how the test of a free slot is decided still differs.
    simp [checkInstr, commonChecks, Instr.sa?, Instr.sb?, Instr.needsValidSa] <;> rfl
  all_goals simp [checkInstr, commonChecks, Instr.sa?, Instr.sb?, Instr.needsValidSa]

theorem checkDesc_of_decode_ok {d : Desc} {i : Instr} {s : State} (hrun : s.running) (hd : decode d = .ok i) :
    checkDesc d s = resultOf i s (commonChecks i) := by
  simp [checkDesc, hrun, hd, checkInstr_eq_resultOf (wellFormed_of_decode hd)]

/-- The opcode of a descriptor that decodes is that of its command (30_encoding.md R69). -/
theorem opcode_of_decode {d : Desc} {i : Instr} (h : decode d = .ok i) : i.opcode = d.opc := by
  obtain ⟨-, hw0, -⟩ := encodeAgreesWithTheDescriptor d i h
  exact (opc_encode i).symm.trans (Desc.w0_eq_iff.1 hw0).1

/-- Settles O15: FAULT, then the decoder, then the command's list of checks. -/
theorem commonChecksDecideInOrder : Obligations.CommonChecksDecideInOrder := by
  intro s r rest hh ha
  cases hf : s.fault with
  | true =>
    have hcheck : checkDesc r.desc (s.accept r rest) = .halted := if_pos hf
    rw [hcheck, step_halted hf hh ha, State.answerHalted, codeWord_eq_faultResp]
    rfl
  | false =>
    have hrun : (s.accept r rest).running := hf
    cases hd : decode r.desc with
    | error e =>
      have hcheck : checkDesc r.desc (s.accept r rest) = .fault .illegalCommand r.desc.sa := by
        simp [checkDesc, hf, hd]
      rw [hcheck, step_of_decode_error hh ha hd, illegalCommand, hrun, ← codeWord_eq_faultResp]
      rfl
    | ok i =>
      have hstep := step_of_decode_ok hh ha hd
      rw [checkDesc_of_decode_ok hrun hd, resultOf, ← commonFault]
      cases hc : commonFault i (s.accept r rest) with
      | some p =>
        rw [hstep, exec_of_commonFault hrun hc, endCommand_next, opcode_of_decode hd]
        simp only [Option.elim_some, ← codeWord_eq_faultResp]
        rfl
      | none =>
        refine ⟨rfl, hstep, fun t ht hfault => ?_⟩
        obtain ⟨hcode, -⟩ := exec_fault_of_checks_pass hrun hc ht hfault
        have hcheck : ∀ c ∈ [0x06#8, 0x07#8, 0x08#8, 0x09#8, 0x0A#8], ¬ c ≤ 0x05#8 := by decide
        exact fun hmem => hcheck _ hmem hcode

end Sys2Proof.Machine
end

section
/-! CERTIFICATE. The faults of RDBUF at its fields and at its run of bytes (42_nested_buffer.md R134, R135;
60_exceptions.md R163). -/

namespace Sys2Proof.Machine

section Reads

variable {s : State} {o : SlotId} {b : Buffer} (ho : s.buf o = some b)
include ho

/-- A run of bytes longer than the capacity leaves the cursor where earlier reads moved it (40_cursor_arithmetic.md
R95). -/
theorem readRun_atRc_rangeFault {c n : Nat} (hn : b.cap.toNat < n) :
    readRun o n (s.atRc o b c) = .raised .rangeFault o (s.atRc o b c) :=
  readRun_rangeFault (State.buf_setBuf_of_buf (b' := { b with rc := BitVec.ofNat 32 c }) ho) fun ⟨_, hle⟩ =>
    absurd hle (not_le.2 hn)

/-- A field above the ceiling is a fault after the cursor has passed it (60_exceptions.md R163). -/
theorem readField_atRc_oversized {c : Nat} (w : Bool) (hc : c ≤ b.cap.toNat) (h4 : 4 ≤ b.cap.toNat)
    (hbig : 1048576 < (lapWord b c).toNat) :
    readField o w (s.atRc o b c) = .raised .oversizedLength o (s.atRc o b (nextRc b.cap.toNat c 4)) := by
  rw [readField, readRun_atRc ho hc (n := Config.unit) h4, Run.bind_done]
  exact if_pos hbig

end Reads

/-- Settles O42: the fields that pass are read one after another, each from where the one before it left the cursor, up
to the first that does not. -/
theorem rdbufFaultsAtTheFirstBadField : Obligations.RdbufFaultsAtTheFirstBadField := by
  intro s o d b c₁ c₂ c₃ hrun ho hr hd hc₁ hc₂ hc₃
  rw [exec, execRdbuf, command_runs hrun (rdbufChecks_pass ho (decide_eq_true hr) hd)]
  refine ⟨fun hshort => ?_, fun hrc h4 => ?_⟩
  · rw [readField, readRun_rangeFault ho (n := Config.unit) (by simp only [Config.unit]; omega)]
    rfl
  have hle₁ : c₁ ≤ b.cap.toNat := hc₁ ▸ nextRc_le hrc h4
  have hle₂ : c₂ ≤ b.cap.toNat := hc₂ ▸ nextRc_le hle₁ h4
  have hw₁ : lapWord b c₁ = lapWord b (b.rc.toNat + 4) := lapWord_congr (hc₁ ▸ nextRc_modEq ..)
  have hw₂ : lapWord b c₂ = lapWord b (b.rc.toNat + 8) :=
    lapWord_congr (hc₂ ▸ (nextRc_modEq ..).trans ((hc₁ ▸ nextRc_modEq ..).add_right 4))
  have hstart : readField o false s = readField o false (s.atRc o b b.rc.toNat) := by rw [State.atRc_self ho]
  rw [hstart, ← hw₁, ← hw₂]
  refine ⟨fun hbig => ?_, fun hcap hbig => ?_, fun hcap hrc' hbig => ?_, fun hcap hrc' hwc hlong => ?_⟩
  · rw [readField_atRc_oversized ho _ hrc h4 hbig, ← hc₁]
    rfl
  · rw [readField_atRc ho _ hrc h4 rfl hcap, ← hc₁, Run.bind_done, readField_atRc_oversized ho _ hle₁ h4 hbig, ← hc₂]
    rfl
  · rw [readField_atRc ho _ hrc h4 rfl hcap, ← hc₁, Run.bind_done, readField_atRc ho _ hle₁ h4 rfl hrc', ← hc₂,
      Run.bind_done, readField_atRc_oversized ho _ hle₂ h4 hbig, ← hc₃]
    rfl
  · rw [readField_atRc ho _ hrc h4 rfl hcap, ← hc₁, Run.bind_done, readField_atRc ho _ hle₁ h4 rfl hrc', ← hc₂,
      Run.bind_done, readField_atRc ho _ hle₂ h4 rfl hwc, ← hc₃, Run.bind_done, readRun_atRc_rangeFault ho hlong]
    rfl

end Sys2Proof.Machine
end

section
/-! CERTIFICATE. `rst`, and the commands that wait for ever (70_reset_and_hazards.md R190, R201, R202). -/

namespace Sys2Proof.Machine

theorem step_rst {s : State} {rest : List HostEvent} (hh : s.host = .rst :: rest) :
    step s = .next ({ s with host := rest } : State).applyReset := by
  simp [step, fetch, hh]

/-- Settles O10: the step is the reset, whose fields are known one by one. -/
theorem rstClearsTheBlock : Obligations.RstClearsTheBlock := fun s rest hh =>
  ⟨_, step_rst hh, State.buf_applyReset _, rfl, rfl, rfl, rfl, rfl, rfl, rfl, rfl, rfl,
    State.nslots_applyReset { s with host := rest }, rfl, rfl⟩

/-! ### A command that waits -/

theorem endCommand_fault_of_rst {t : State} {rest : List HostEvent} (hh : t.host = .rst :: rest) (f : Fault) :
    endCommand t (.fault f) = .next ({ t with host := rest } : State).applyReset := by
  simp [endCommand, hh]

theorem endCommand_fault_of_no_rst {t : State} (hh : t.host.head? ≠ some .rst) (f : Fault) :
    endCommand t (.fault f) = .fault f := by
  rcases hhost : t.host with _ | ⟨_ | _, rest⟩
  · simp [endCommand, hhost]
  · simp [endCommand, hhost]
  · simp [hhost] at hh

theorem step_not_accepted {s : State} {r : Request} {rest : List HostEvent} (hh : s.host = .issue r :: rest)
    (ha : r.accepts = false) : step s = endCommand (s.accept r rest) (.fault .outputNotAccepted) := by
  simp [step, fetch_not_accepted hh ha]

/-- Settles O14: both forms of waiting leave the end of the command to the host's next action. -/
theorem waitingCommandEndsOnlyByRst : Obligations.WaitingCommandEndsOnlyByRst := by
  intro s r rest hh hwait
  obtain ⟨f, hstep⟩ : ∃ f, step s = endCommand (s.accept r rest) (.fault f) := by
    obtain ha | ⟨ha, i, hd, hstarved⟩ := hwait
    · exact ⟨_, step_not_accepted hh ha⟩
    · exact ⟨_, hstarved ▸ step_of_decode_ok hh ha hd⟩
  refine ⟨fun hno => ⟨f, hstep.trans (endCommand_fault_of_no_rst hno f)⟩, fun rest' hrest => ?_⟩
  exact ⟨_, hstep.trans (endCommand_fault_of_rst hrest f), rfl, rfl, rfl, State.buf_applyReset _⟩

end Sys2Proof.Machine
end
